-- ==== Sys2Proof/Word.lean ====
section
/-! DEFINITION. The widths of the block's values (spec/00_scope.md R6): an 8-bit datum, a 16-bit bus address, a
25-bit transaction word (spec/30_encoding.md R49). -/

namespace Sys2Proof

/-- A bus datum, a register, a bank id: 8 bits (R6 `DATA_W`, `BANK_ID_W`). -/
abbrev Byte := BitVec 8

/-- A bus address: 16 bits (R6 `ADDR_W`). -/
abbrev Addr := BitVec 16

/-- A transaction word: 25 bits (R49). -/
abbrev TxnWord := BitVec 25

end Sys2Proof
end

