-- ==== Sys2Proof/Config.lean ====
section
/-! DEFINITION. What is fixed for the machine: the parameter table of spec/00_scope.md R6 as named numbers, and the
open parameters of R7 that no rule gives a value, as constants without a body (nothing can be proved of their value). -/

namespace Sys2Proof.Config

/-- `BODY_OFF`: file offset of the NSF body (R6, R47). -/
@[simp] abbrev bodyOff : Nat := 0x80

/-- `BANK_SIZE`: bytes per bank, cache slot and ROM window (R6). -/
@[simp] abbrev bankSize : Nat := 0x1000

/-- `HDR_SIZE`: bytes of the NSF header (R6). -/
@[simp] abbrev hdrSize : Nat := 128

/-- `SHIM_BASE`: base address of the shim and target of the reset vector (R6, R17, R36). -/
@[simp] abbrev shimBase : Addr := 0x1000

/-- `IDLE_PC`: the address both CPU runs poll for (R6, R10). -/
@[simp] abbrev idlePc : Addr := 0x1007

/-- `APU17_RESET`: the value `playback_init` gives `apu_regs[0x17]` (R6, R109). -/
@[simp] abbrev apu17Reset : Byte := 0x40

/-- `P_VEC_NMI`: the contents of the NMI vector, an open parameter (R7, R17, D7; log 5). -/
opaque vecNmi : Addr

/-- `P_VEC_IRQ`: the contents of the IRQ vector, an open parameter (R7, R17, D7; log 5). -/
opaque vecIrq : Addr

/-- The 0-based starting song of a header whose 1-based byte is 0: the source does not say
(spec/43_host_ops.md R87, spec/93_implementation_defined.md part 2; log 9). -/
opaque startingSongOfZero : Byte

end Sys2Proof.Config
end

