-- ==== Sys2Proof/Syntax.lean ====
section
/-! DEFINITION. The block's operations: the bus transactions of spec/30_encoding.md R51, one constructor per class of
spec/opcode_table.json, with the operands of R50. The table cuts each class into aligned address blocks (93 rows for 15
mnemonics); an operand says which address of the class is meant, so a class is one constructor (log 15). -/

namespace Sys2Proof

/-- A bus transaction. Operands are the indices of R50; `v` is the datum `D`. -/
inductive Instr where
  /-- RD_RAM (R59): RAM index `A[10:0]`. -/
  | rdRam (i : Fin 0x800)
  /-- RD_SHIM (R60): shim index `A[6:0]`. -/
  | rdShim (i : Fin 0x80)
  /-- RD_APU (R61): register `A - 0x4000`. -/
  | rdApu (n : Fin 0x18)
  /-- RD_BANKREG (R62): register `A - 0x5FF8`. -/
  | rdBankreg (k : Fin 8)
  /-- RD_ROM (R63): window `A[14:12]`, offset `A[11:0]`. -/
  | rdRom (k : Fin 8) (off : Fin 0x1000)
  /-- RD_VEC (R64): vector byte `A - 0xFFFA`. -/
  | rdVec (i : Fin 6)
  /-- RD_OPEN (R65): the unmapped address itself. -/
  | rdOpen (a : Addr)
  /-- WR_RAM (R66). -/
  | wrRam (i : Fin 0x800) (v : Byte)
  /-- WR_SHIM (R67). -/
  | wrShim (i : Fin 0x80) (v : Byte)
  /-- WR_APU (R68): every register but `0x16`. -/
  | wrApu (n : Fin 0x18) (v : Byte)
  /-- WR_APU_STROBE (R69): register `0x16`, address `$4016`. -/
  | wrApuStrobe (v : Byte)
  /-- WR_BANKREG (R70): register and window `A - 0x5FF8`, bank id `D`. -/
  | wrBankreg (k : Fin 8) (v : Byte)
  /-- WR_ROM (R71). -/
  | wrRom (k : Fin 8) (off : Fin 0x1000) (v : Byte)
  /-- WR_VEC (R72). -/
  | wrVec (i : Fin 6) (v : Byte)
  /-- WR_OPEN (R73). -/
  | wrOpen (a : Addr) (v : Byte)
  deriving DecidableEq, Repr

/-- The transaction classes of R51: the mnemonics of spec/opcode_table.json. -/
inductive TxnClass where
  | RD_RAM | RD_SHIM | RD_APU | RD_BANKREG | RD_ROM | RD_VEC | RD_OPEN
  | WR_RAM | WR_SHIM | WR_APU | WR_APU_STROBE | WR_BANKREG | WR_ROM | WR_VEC | WR_OPEN
  deriving DecidableEq, Repr

/-- The class of a transaction. -/
def Instr.cls : Instr → TxnClass
  | .rdRam _ => .RD_RAM
  | .rdShim _ => .RD_SHIM
  | .rdApu _ => .RD_APU
  | .rdBankreg _ => .RD_BANKREG
  | .rdRom _ _ => .RD_ROM
  | .rdVec _ => .RD_VEC
  | .rdOpen _ => .RD_OPEN
  | .wrRam _ _ => .WR_RAM
  | .wrShim _ _ => .WR_SHIM
  | .wrApu _ _ => .WR_APU
  | .wrApuStrobe _ => .WR_APU_STROBE
  | .wrBankreg _ _ => .WR_BANKREG
  | .wrRom _ _ _ => .WR_ROM
  | .wrVec _ _ => .WR_VEC
  | .wrOpen _ _ => .WR_OPEN

/-- The direction bit `W` of a transaction: true for a write (R49). -/
def Instr.isWrite : Instr → Bool
  | .rdRam _ | .rdShim _ | .rdApu _ | .rdBankreg _ | .rdRom _ _ | .rdVec _ | .rdOpen _ => false
  | .wrRam _ _ | .wrShim _ _ | .wrApu _ _ | .wrApuStrobe _ | .wrBankreg _ _ | .wrRom _ _ _ | .wrVec _ _ | .wrOpen _ _ => true

/-- The datum `D` of a transaction; canonically 0 for a read (R49). -/
def Instr.datum : Instr → Byte
  | .rdRam _ | .rdShim _ | .rdApu _ | .rdBankreg _ | .rdRom _ _ | .rdVec _ | .rdOpen _ => 0#8
  | .wrRam _ v | .wrShim _ v | .wrApu _ v | .wrApuStrobe v | .wrBankreg _ v | .wrRom _ _ v | .wrVec _ v | .wrOpen _ v => v

end Sys2Proof
end

