-- ==== Sys2Proof/WellFormed.lean ====
section
/-! DEFINITION. Which terms of `Instr` stand for a transaction. The operand types bound every index; what is left to
check is where one class gives way to another in the map of spec/20_memory.md R33. -/

namespace Sys2Proof

/-- The address lies in one of the four unmapped ranges of R33. -/
def openAddr (a : Addr) : Bool :=
  let n := a.toNat
  (0x0800 ≤ n && n ≤ 0x0FFF) || (0x1080 ≤ n && n ≤ 0x3FFF) || (0x4018 ≤ n && n ≤ 0x5FF7) || (0x6000 ≤ n && n ≤ 0x7FFF)

/-- The window byte is below `$FFFA`: the vectors take the last six bytes of window 7 (R35). -/
def romOperand (k : Fin 8) (off : Fin 0x1000) : Bool := !(k == 7 && 0xFFA ≤ off.val)

/-- The term is a transaction the decoder of R51 can select. -/
def Instr.wf : Instr → Bool
  | .rdRam _ | .rdShim _ | .rdApu _ | .rdBankreg _ | .rdVec _ => true
  | .rdRom k off => romOperand k off
  | .rdOpen a => openAddr a
  | .wrRam _ _ | .wrShim _ _ | .wrApuStrobe _ | .wrBankreg _ _ | .wrVec _ _ => true
  | .wrApu n _ => n != 0x16
  | .wrRom k off _ => romOperand k off
  | .wrOpen a _ => openAddr a

end Sys2Proof
end

