-- ==== Sys2Proof/Decode.lean ====
section
/-! DEFINITION. The address decoder (spec/20_memory.md R33, spec/30_encoding.md R49 to R54), from a 25-bit transaction
word to a transaction, the encoder, and the rows of spec/opcode_table.json. Decoding is total and refuses nothing: R52
says that no word is illegal or reserved. -/

namespace Sys2Proof

/-! ## Little-endian pairs (spec/20_memory.md R38) -/

/-- The low byte of a 16-bit value, stored at the lower address (R38). -/
def loByte (a : Addr) : Byte := a.extractLsb' 0 8

/-- The high byte of a 16-bit value, stored at the higher address (R38). -/
def hiByte (a : Addr) : Byte := a.extractLsb' 8 8

/-- A 16-bit value from its low and its high byte (R38, and `RDW` of R55). -/
def le16 (lo hi : Byte) : Addr := hi ++ lo

/-! ## The word (R49) -/

/-- `W = t[24]`: true for a write. -/
def TxnWord.w (t : TxnWord) : Bool := t.getLsbD 24

/-- `A = t[23:8]`. -/
def TxnWord.a (t : TxnWord) : Addr := t.extractLsb' 8 16

/-- `D = t[7:0]`. -/
def TxnWord.d (t : TxnWord) : Byte := t.extractLsb' 0 8

/-- `t = (W << 24) | (A << 8) | D`. -/
def packTxn (w : Bool) (a : Addr) (d : Byte) : TxnWord := BitVec.ofBool w ++ a ++ d

/-! ## The address map (R33) with the operand fields of R50 -/

/-- A region of the bus space with the index of the addressed byte in it. -/
inductive Region where
  | ram (i : Fin 0x800)
  | shim (i : Fin 0x80)
  | apu (n : Fin 0x18)
  | bankreg (k : Fin 8)
  | rom (k : Fin 8) (off : Fin 0x1000)
  | vec (i : Fin 6)
  | unmapped (a : Addr)
  deriving DecidableEq, Repr

/-- The region of an address: the twelve ranges of R33, the three of the APU mirror taken together. -/
def regionOf (a : Addr) : Region :=
  let n := a.toNat
  if n < 0x0800 then .ram (Fin.ofNat 0x800 n)
  else if n < 0x1000 then .unmapped a
  else if n < 0x1080 then .shim (Fin.ofNat 0x80 (n - 0x1000))
  else if n < 0x4000 then .unmapped a
  else if n < 0x4018 then .apu (Fin.ofNat 0x18 (n - 0x4000))
  else if n < 0x5FF8 then .unmapped a
  else if n < 0x6000 then .bankreg (Fin.ofNat 8 (n - 0x5FF8))
  else if n < 0x8000 then .unmapped a
  else if n < 0xFFFA then .rom (Fin.ofNat 8 (n / 0x1000)) (Fin.ofNat 0x1000 n)
  else .vec (Fin.ofNat 6 (n - 0xFFFA))

/-- A read at an address (R51, the rows with `W = 0`). -/
def decodeRead (a : Addr) : Instr :=
  match regionOf a with
  | .ram i => .rdRam i
  | .shim i => .rdShim i
  | .apu n => .rdApu n
  | .bankreg k => .rdBankreg k
  | .rom k off => .rdRom k off
  | .vec i => .rdVec i
  | .unmapped a => .rdOpen a

/-- A write at an address (R51, the rows with `W = 1`); `$4016` is a class of its own. -/
def decodeWrite (a : Addr) (v : Byte) : Instr :=
  match regionOf a with
  | .ram i => .wrRam i v
  | .shim i => .wrShim i v
  | .apu n => if n = 0x16 then .wrApuStrobe v else .wrApu n v
  | .bankreg k => .wrBankreg k v
  | .rom k off => .wrRom k off v
  | .vec i => .wrVec i v
  | .unmapped a => .wrOpen a v

/-- The decoder: every word is one transaction; a read ignores `D` (R49, R51, R52). -/
def decode (t : TxnWord) : Instr :=
  if t.w then decodeWrite t.a t.d else decodeRead t.a

/-- The host's question (its fixed name): the instruction of the word whose bits are `w`. A transaction word has 25
bits (R49); bits above them are no part of the word and are dropped (log 16). Every word decodes (R52). -/
def decodeTableWord (nbits w : Nat) : Option Instr :=
  some (decode (BitVec.ofNat 25 (w % 2 ^ nbits)))

/-! ## The encoder -/

/-- The bus address of a transaction: the base of its region plus its index (R50 read backwards). -/
def Instr.addr : Instr → Addr
  | .rdRam i | .wrRam i _ => BitVec.ofNat 16 i.val
  | .rdShim i | .wrShim i _ => BitVec.ofNat 16 (0x1000 + i.val)
  | .rdApu n | .wrApu n _ => BitVec.ofNat 16 (0x4000 + n.val)
  | .wrApuStrobe _ => 0x4016
  | .rdBankreg k | .wrBankreg k _ => BitVec.ofNat 16 (0x5FF8 + k.val)
  | .rdRom k off | .wrRom k off _ => BitVec.ofNat 16 (0x8000 + 0x1000 * k.val + off.val)
  | .rdVec i | .wrVec i _ => BitVec.ofNat 16 (0xFFFA + i.val)
  | .rdOpen a | .wrOpen a _ => a

/-- The word of a transaction (R49). -/
def encode (i : Instr) : TxnWord := packTxn i.isWrite i.addr i.datum

/-! ## The opcode table -/

/-- A row of spec/opcode_table.json: its class and the match and mask over the 25-bit word. -/
structure Row where
  cls : TxnClass
  matchBits : TxnWord
  maskBits : TxnWord
  deriving DecidableEq, Repr

/-- `(t & mask) == match` (R51). -/
def Row.hits (r : Row) (t : TxnWord) : Bool := t &&& r.maskBits == r.matchBits

/-- The RD_RAM rows (R59). -/
def rowsRdRam : List Row :=
  [⟨.RD_RAM, 0x0000000, 0x1F80000⟩]

/-- The RD_SHIM rows (R60). -/
def rowsRdShim : List Row :=
  [⟨.RD_SHIM, 0x0100000, 0x1FF8000⟩]

/-- The RD_APU rows (R61). -/
def rowsRdApu : List Row :=
  [⟨.RD_APU, 0x0400000, 0x1FFF000⟩,
   ⟨.RD_APU, 0x0401000, 0x1FFF800⟩]

/-- The RD_BANKREG rows (R62). -/
def rowsRdBankreg : List Row :=
  [⟨.RD_BANKREG, 0x05FF800, 0x1FFF800⟩]

/-- The RD_ROM rows (R63). -/
def rowsRdRom : List Row :=
  [⟨.RD_ROM, 0x0800000, 0x1C00000⟩,
   ⟨.RD_ROM, 0x0C00000, 0x1E00000⟩,
   ⟨.RD_ROM, 0x0E00000, 0x1F00000⟩,
   ⟨.RD_ROM, 0x0F00000, 0x1F80000⟩,
   ⟨.RD_ROM, 0x0F80000, 0x1FC0000⟩,
   ⟨.RD_ROM, 0x0FC0000, 0x1FE0000⟩,
   ⟨.RD_ROM, 0x0FE0000, 0x1FF0000⟩,
   ⟨.RD_ROM, 0x0FF0000, 0x1FF8000⟩,
   ⟨.RD_ROM, 0x0FF8000, 0x1FFC000⟩,
   ⟨.RD_ROM, 0x0FFC000, 0x1FFE000⟩,
   ⟨.RD_ROM, 0x0FFE000, 0x1FFF000⟩,
   ⟨.RD_ROM, 0x0FFF000, 0x1FFF800⟩,
   ⟨.RD_ROM, 0x0FFF800, 0x1FFFE00⟩]

/-- The RD_VEC rows (R64). -/
def rowsRdVec : List Row :=
  [⟨.RD_VEC, 0x0FFFA00, 0x1FFFE00⟩,
   ⟨.RD_VEC, 0x0FFFC00, 0x1FFFC00⟩]

/-- The RD_OPEN rows (R65). -/
def rowsRdOpen : List Row :=
  [⟨.RD_OPEN, 0x0080000, 0x1F80000⟩,
   ⟨.RD_OPEN, 0x0108000, 0x1FF8000⟩,
   ⟨.RD_OPEN, 0x0110000, 0x1FF0000⟩,
   ⟨.RD_OPEN, 0x0120000, 0x1FE0000⟩,
   ⟨.RD_OPEN, 0x0140000, 0x1FC0000⟩,
   ⟨.RD_OPEN, 0x0180000, 0x1F80000⟩,
   ⟨.RD_OPEN, 0x0200000, 0x1E00000⟩,
   ⟨.RD_OPEN, 0x0401800, 0x1FFF800⟩,
   ⟨.RD_OPEN, 0x0402000, 0x1FFE000⟩,
   ⟨.RD_OPEN, 0x0404000, 0x1FFC000⟩,
   ⟨.RD_OPEN, 0x0408000, 0x1FF8000⟩,
   ⟨.RD_OPEN, 0x0410000, 0x1FF0000⟩,
   ⟨.RD_OPEN, 0x0420000, 0x1FE0000⟩,
   ⟨.RD_OPEN, 0x0440000, 0x1FC0000⟩,
   ⟨.RD_OPEN, 0x0480000, 0x1F80000⟩,
   ⟨.RD_OPEN, 0x0500000, 0x1F80000⟩,
   ⟨.RD_OPEN, 0x0580000, 0x1FC0000⟩,
   ⟨.RD_OPEN, 0x05C0000, 0x1FE0000⟩,
   ⟨.RD_OPEN, 0x05E0000, 0x1FF0000⟩,
   ⟨.RD_OPEN, 0x05F0000, 0x1FF8000⟩,
   ⟨.RD_OPEN, 0x05F8000, 0x1FFC000⟩,
   ⟨.RD_OPEN, 0x05FC000, 0x1FFE000⟩,
   ⟨.RD_OPEN, 0x05FE000, 0x1FFF000⟩,
   ⟨.RD_OPEN, 0x05FF000, 0x1FFF800⟩,
   ⟨.RD_OPEN, 0x0600000, 0x1E00000⟩]

/-- The WR_RAM rows (R66). -/
def rowsWrRam : List Row :=
  [⟨.WR_RAM, 0x1000000, 0x1F80000⟩]

/-- The WR_SHIM rows (R67). -/
def rowsWrShim : List Row :=
  [⟨.WR_SHIM, 0x1100000, 0x1FF8000⟩]

/-- The WR_APU rows (R68). -/
def rowsWrApu : List Row :=
  [⟨.WR_APU, 0x1400000, 0x1FFF000⟩,
   ⟨.WR_APU, 0x1401000, 0x1FFFC00⟩,
   ⟨.WR_APU, 0x1401400, 0x1FFFE00⟩,
   ⟨.WR_APU, 0x1401700, 0x1FFFF00⟩]

/-- The WR_APU_STROBE rows (R69). -/
def rowsWrApuStrobe : List Row :=
  [⟨.WR_APU_STROBE, 0x1401600, 0x1FFFF00⟩]

/-- The WR_BANKREG rows (R70). -/
def rowsWrBankreg : List Row :=
  [⟨.WR_BANKREG, 0x15FF800, 0x1FFF800⟩]

/-- The WR_ROM rows (R71). -/
def rowsWrRom : List Row :=
  [⟨.WR_ROM, 0x1800000, 0x1C00000⟩,
   ⟨.WR_ROM, 0x1C00000, 0x1E00000⟩,
   ⟨.WR_ROM, 0x1E00000, 0x1F00000⟩,
   ⟨.WR_ROM, 0x1F00000, 0x1F80000⟩,
   ⟨.WR_ROM, 0x1F80000, 0x1FC0000⟩,
   ⟨.WR_ROM, 0x1FC0000, 0x1FE0000⟩,
   ⟨.WR_ROM, 0x1FE0000, 0x1FF0000⟩,
   ⟨.WR_ROM, 0x1FF0000, 0x1FF8000⟩,
   ⟨.WR_ROM, 0x1FF8000, 0x1FFC000⟩,
   ⟨.WR_ROM, 0x1FFC000, 0x1FFE000⟩,
   ⟨.WR_ROM, 0x1FFE000, 0x1FFF000⟩,
   ⟨.WR_ROM, 0x1FFF000, 0x1FFF800⟩,
   ⟨.WR_ROM, 0x1FFF800, 0x1FFFE00⟩]

/-- The WR_VEC rows (R72). -/
def rowsWrVec : List Row :=
  [⟨.WR_VEC, 0x1FFFA00, 0x1FFFE00⟩,
   ⟨.WR_VEC, 0x1FFFC00, 0x1FFFC00⟩]

/-- The WR_OPEN rows (R73). -/
def rowsWrOpen : List Row :=
  [⟨.WR_OPEN, 0x1080000, 0x1F80000⟩,
   ⟨.WR_OPEN, 0x1108000, 0x1FF8000⟩,
   ⟨.WR_OPEN, 0x1110000, 0x1FF0000⟩,
   ⟨.WR_OPEN, 0x1120000, 0x1FE0000⟩,
   ⟨.WR_OPEN, 0x1140000, 0x1FC0000⟩,
   ⟨.WR_OPEN, 0x1180000, 0x1F80000⟩,
   ⟨.WR_OPEN, 0x1200000, 0x1E00000⟩,
   ⟨.WR_OPEN, 0x1401800, 0x1FFF800⟩,
   ⟨.WR_OPEN, 0x1402000, 0x1FFE000⟩,
   ⟨.WR_OPEN, 0x1404000, 0x1FFC000⟩,
   ⟨.WR_OPEN, 0x1408000, 0x1FF8000⟩,
   ⟨.WR_OPEN, 0x1410000, 0x1FF0000⟩,
   ⟨.WR_OPEN, 0x1420000, 0x1FE0000⟩,
   ⟨.WR_OPEN, 0x1440000, 0x1FC0000⟩,
   ⟨.WR_OPEN, 0x1480000, 0x1F80000⟩,
   ⟨.WR_OPEN, 0x1500000, 0x1F80000⟩,
   ⟨.WR_OPEN, 0x1580000, 0x1FC0000⟩,
   ⟨.WR_OPEN, 0x15C0000, 0x1FE0000⟩,
   ⟨.WR_OPEN, 0x15E0000, 0x1FF0000⟩,
   ⟨.WR_OPEN, 0x15F0000, 0x1FF8000⟩,
   ⟨.WR_OPEN, 0x15F8000, 0x1FFC000⟩,
   ⟨.WR_OPEN, 0x15FC000, 0x1FFE000⟩,
   ⟨.WR_OPEN, 0x15FE000, 0x1FFF000⟩,
   ⟨.WR_OPEN, 0x15FF000, 0x1FFF800⟩,
   ⟨.WR_OPEN, 0x1600000, 0x1E00000⟩]

/-- The 93 rows of spec/opcode_table.json, in its order. -/
def opcodeRows : List Row :=
  rowsRdRam ++
  rowsRdShim ++
  rowsRdApu ++
  rowsRdBankreg ++
  rowsRdRom ++
  rowsRdVec ++
  rowsRdOpen ++
  rowsWrRam ++
  rowsWrShim ++
  rowsWrApu ++
  rowsWrApuStrobe ++
  rowsWrBankreg ++
  rowsWrRom ++
  rowsWrVec ++
  rowsWrOpen

end Sys2Proof
end

