-- ==== Sys2Proof/Machine/State.lean ====
section
/-! DEFINITION. Everything the spec gives the machine, as plain data: the engine's regions, bank cache and bookkeeping
(spec/10_state.md), the process-wide state around it, and what the outside world does next. -/

namespace Sys2Proof.Machine

/-! ## Memory -/

/-- Bytes by index in one canonical form: indices strictly rising, no byte 0 listed. An unlisted byte reads 0, as
R31, R109, R111 and R112 set every byte that nothing has written (see `Memory.wf`). -/
abbrev Memory := List Host.Cell

/-! ## Names of the spec -/

/-- A ROM window's target (R15). -/
inductive Target where
  | unmapped
  | cache (i : Fin 10)
  | flat
  deriving DecidableEq, Repr

/-- `rom_mode` (R19). -/
inductive RomMode where
  | unset | banked | contiguous
  deriving DecidableEq, Repr

/-- The error kinds (spec/60_exceptions.md R95), `Ok` apart. -/
inductive ErrorKind where
  | invalidArg | badMagic | shortHeader | badLoadAddress | ioError | alreadyOpen | invalidState | internalError
  deriving DecidableEq, Repr

/-- The info value a fault records beside its kind (R95). -/
inductive FaultInfo where
  | badRegister (r : Nat)
  | loadAddress (a : Addr)
  | bankRead (b : Byte)
  | contigRead
  | lruTailEmpty
  | victimNotFound (b : Byte)
  | lruFull (b : Byte)
  | windowUnloaded (k : Fin 8) (i : Fin 10)
  deriving DecidableEq, Repr

/-- The sticky error record `Some(kind, info)` (R25). -/
structure FaultRecord where
  kind : ErrorKind
  info : FaultInfo
  deriving DecidableEq, Repr

/-- What a short read was for: a bank, or the contiguous load (R96). -/
inductive ReadSource where
  | bank (b : Byte)
  | contig
  deriving DecidableEq, Repr

/-- A diagnostic with its info (R96). -/
inductive Diag where
  /-- `m` bytes of `n` were there. -/
  | shortRomRead (src : ReadSource) (m n : Nat)
  | unmappedRomRead (a : Addr)
  | reservedHeaderBits (flags chips : Byte)
  deriving DecidableEq, Repr

/-- How a `load_bank` call ended (R27). -/
inductive LoadOutcome where
  | hit (i : Fin 10)
  | fill (v : Fin 10)
  | fault (kind : ErrorKind)
  deriving DecidableEq, Repr

/-- An entry of the event history (R27). `reg` is a number because a direct call may name a register out of range
(spec/42_bank_cache.md R74). -/
inductive Event where
  | apuWrite (a : Addr) (v : Byte)
  | diag (d : Diag)
  | bankLoad (reg : Nat) (bank : Byte) (outcome : LoadOutcome)
  deriving DecidableEq, Repr

/-- The parsed NSF v1 header (spec/30_encoding.md R58), its magic apart. The text fields hold 32 bytes. -/
structure Header where
  version : Byte
  totalSongs : Byte
  /-- converted to 0-based (R87) -/
  startingSong : Byte
  loadAddress : Addr
  initAddress : Addr
  playAddress : Addr
  name : List Byte
  artist : List Byte
  copyright : List Byte
  speedNtsc : Addr
  /-- `bankswitch_init[0..7]` -/
  bankswitch : Vector Byte 8
  speedPal : Addr
  regionFlags : Byte
  extraChips : Byte
  reserved : List Byte
  deriving DecidableEq, Repr

/-! ## The engine -/

/-- One engine: the state of spec/10_state.md R11 to R27, the header and file that `open` gave it (R24,
spec/43_host_ops.md R88), the answers of P_IO to come (spec/20_memory.md R48; log 4) and the registered sink
(spec/70_reset_and_hazards.md R109; log 19). -/
structure Engine where
  /-- R11 -/
  ram : Memory
  /-- R12 -/
  shim : Memory
  /-- R13 -/
  apuRegs : Vector Byte 0x18
  /-- R14 -/
  bankRegs : Vector Byte 8
  /-- R15 -/
  win : Vector Target 8
  /-- R16 -/
  winBank : Vector Byte 8
  /-- R17 -/
  intVecs : Vector Byte 6
  /-- R18; `none` is absent -/
  flat : Option Memory
  /-- R19 -/
  romMode : RomMode
  /-- R20 -/
  cache : Vector Memory 10
  /-- R21 -/
  slotBankId : Vector Byte 10
  /-- R22 -/
  slotLoaded : Vector Bool 10
  /-- R23 -/
  lru : Vector (Option Byte) 10
  /-- R24 -/
  header : Header
  /-- P_FILE (R47) -/
  file : List Byte
  /-- P_IO: whether the next accesses fail, in order; past its end none fails (R48, D20) -/
  ioFail : List Bool
  /-- R25 -/
  fault : Option FaultRecord
  /-- R26 -/
  initialised : Bool
  /-- R93 -/
  sink : Option Nat
  /-- R27, oldest first -/
  events : List Event
  deriving DecidableEq, Repr

/-! ## The process -/

/-- What `State.eng` is: no engine, the active engine (R28), or an engine whose `playback_init` failed and that only
waits for `close` (spec/70_reset_and_hazards.md R114). `active_engine` is set exactly in the second case. -/
inductive EngineStatus where
  | absent | active | detached
  deriving DecidableEq, Repr

/-- The host operation whose CPU run is in progress (R113, spec/43_host_ops.md R90). -/
inductive Run where
  | idle | initRun | frameRun
  deriving DecidableEq, Repr

/-- The engine a host call names: the one in `State.eng`, or one of those that a later `open` replaced before they were
closed, oldest first (log 8). -/
inductive EngineRef where
  | current
  | failed (k : Nat)
  deriving DecidableEq, Repr

/-- A call of the host (spec/43_host_ops.md R86), or one of the two trace lines that no bus word encodes
(spec/30_encoding.md R55). -/
inductive HostOp where
  /-- `read_header(P_FILE)` (R87), with P_IO's answers for the call -/
  | readHeader (file : List Byte) (ioFail : List Bool)
  /-- `open(P_FILE)` (R88) -/
  | openFile (file : List Byte) (ioFail : List Bool)
  /-- `get_header(E)` (R89) -/
  | getHeader (e : EngineRef)
  /-- `log_header(E)` (R89) -/
  | logHeader (e : EngineRef)
  /-- `playback_init(E, song, region, sink)` (R107) -/
  | playbackInit (e : EngineRef) (song region : Byte) (sink : Nat)
  /-- `playback_frame(E)` (R90) -/
  | playbackFrame (e : EngineRef)
  /-- `close(E)` (R91) -/
  | close (e : EngineRef)
  /-- the trace line `INIT`: `playback_init` without its CPU run (R55) -/
  | traceInit (song region : Byte) (sink : Nat)
  /-- the trace line `LOADBANK`: a direct `load_bank(r, b)` (R55, R74) -/
  | traceLoadBank (r : Nat) (b : Byte)
  deriving DecidableEq, Repr

/-- What the outside world does, one at a time (R5, R42): the CPU issues a transaction, the CPU's `reset()` or `step()`
returns and `pc()` reads `pc` (R92), the host calls. -/
inductive Input where
  | bus (t : TxnWord)
  | cpuReturn (pc : Addr)
  | host (op : HostOp)
  deriving DecidableEq, Repr

/-- What a host operation returns (the result column of R86). -/
inductive HostResult where
  | ok
  | err (kind : ErrorKind)
  /-- a header, with the diagnostics `read_header` returns beside it (R87) -/
  | header (h : Header) (diags : List Diag)
  deriving DecidableEq, Repr

/-- What the last step gave back: nothing, the byte of the `read` hook, the return of the `write` hook, the result of
a host operation. -/
inductive Output where
  | nothing
  | readData (v : Byte)
  | writeDone
  | hostReturn (r : HostResult)
  deriving DecidableEq, Repr

/-- The whole state. -/
structure State where
  /-- the engine of the latest `open` -/
  eng : Engine
  /-- `active_engine` (R28) -/
  status : EngineStatus
  /-- engines whose `playback_init` failed, replaced by a later `open` and not yet closed (R114) -/
  failed : List Engine
  /-- the CPU run in progress (R113, R90) -/
  run : Run
  /-- what `cpu.pc()` returns (R92) -/
  cpuPc : Addr
  /-- what the CPU and the host do next (log 1) -/
  inputs : List Input
  /-- what the last step gave back (log 10) -/
  out : Output
  deriving DecidableEq, Repr

/-! ## Stops -/

/-- The stops of the model. No instruction's meaning ends in one: the spec's own faults are state (`Engine.fault`,
R97), after which the machine goes on. Each is a protocol the outside world broke, which the spec says cannot happen;
each is SAFE (the model stops, it claims nothing of what follows). -/
inductive Fault where
  /-- `step`: a bus transaction while no engine is active. The hooks reach the active engine and no other
  (R94), and the CPU runs only inside an operation on one (R93). Safe (log 7). -/
  | noActiveEngine
  /-- `step`: a host call on an engine that does not exist; there is no operation on a closed engine (R91). Safe
  (log 8). -/
  | noSuchEngine
  /-- `step`: a host call while another host operation is in progress, which R86 excludes. Safe (log 8). -/
  | hostCallInProgress
  deriving DecidableEq, Repr

/-- Refusals. -/
inductive Refusal where
  /-- an instruction that has no meaning yet: `exec`'s arms only, none is left. Safe. -/
  | notModelled (mnemonic : String)
  deriving DecidableEq, Repr

/-! ## Reset -/

/-- A header of zeros: `open` replaces it (log 2). -/
def Header.zero : Header where
  version := 0
  totalSongs := 0
  startingSong := 0
  loadAddress := 0
  initAddress := 0
  playAddress := 0
  name := List.replicate 32 0
  artist := List.replicate 32 0
  copyright := List.replicate 32 0
  speedNtsc := 0
  bankswitch := Vector.replicate 8 0#8
  speedPal := 0
  regionFlags := 0
  extraChips := 0
  reserved := List.replicate 4 0

/-- The "at open" column of R31 (D13), but for what `open` reads from its file: the header, the file and P_IO. -/
def Engine.blank : Engine where
  ram := []
  shim := []
  apuRegs := Vector.replicate 0x18 0#8
  bankRegs := Vector.replicate 8 0#8
  win := Vector.replicate 8 .unmapped
  winBank := Vector.replicate 8 0#8
  intVecs := #v[loByte Config.vecNmi, hiByte Config.vecNmi, 0x00, 0x10, loByte Config.vecIrq, hiByte Config.vecIrq]
  flat := none
  romMode := .unset
  cache := Vector.replicate 10 []
  slotBankId := Vector.replicate 10 0#8
  slotLoaded := Vector.replicate 10 false
  lru := Vector.replicate 10 none
  header := Header.zero
  file := []
  ioFail := []
  fault := none
  initialised := false
  sink := none
  events := []

/-- The process before any `open`: no active engine (R28), every engine field at its "at open" value (R31, R115), no
input waiting (log 1, log 2). -/
def State.reset : State where
  eng := Engine.blank
  status := .absent
  failed := []
  run := .idle
  cpuPc := 0
  inputs := []
  out := .nothing

end Sys2Proof.Machine
end

