-- ==== Sys2Proof/Machine/Flags.lean ====
section
/-! DEFINITION. The block has no condition codes (spec/10_state.md R29). Its Boolean state is `slot_loaded`,
`initialised` and whether `fault` is set; here are the tests the operations make of it. -/

namespace Sys2Proof.Machine

/-- Whether `fault` is set (R25, R29): the engine is dead. -/
def Engine.faulted (e : Engine) : Bool := e.fault.isSome

/-- The kind of the recorded fault (R97). -/
def Engine.faultKind (e : Engine) : Option ErrorKind := e.fault.map (·.kind)

/-- The cache slot indices in rising order, so that a search finds the lowest (R76). -/
def slotIxs : List (Fin 10) := [0, 1, 2, 3, 4, 5, 6, 7, 8, 9]

/-- The slot that holds bank `b` (spec/42_bank_cache.md R74); unique in reachable states (R82). -/
def Engine.slotHolding (e : Engine) (b : Byte) : Option (Fin 10) :=
  slotIxs.find? fun i => e.slotLoaded[i] && e.slotBankId[i] == b

/-- The lowest slot that is not loaded (R76). -/
def Engine.freeSlot (e : Engine) : Option (Fin 10) :=
  slotIxs.find? fun i => !e.slotLoaded[i]

/-- `n` of R82 item 6: how many slots are loaded. -/
def Engine.loadedCount (e : Engine) : Nat :=
  (slotIxs.filter fun i => e.slotLoaded[i]).length

/-- The engine uses banked mode: some `bankswitch_init[i]` is not 0 (spec/70_reset_and_hazards.md R110). -/
def Header.banked (h : Header) : Bool := h.bankswitch.toList.any (· != 0#8)

end Sys2Proof.Machine
end

