-- ==== Sys2Proof/Machine/Operands.lean ====
section
/-! DEFINITION. From operands to places: the bus addresses of R50 that a meaning itself needs, and the ROM window
translation (spec/20_memory.md R37). -/

namespace Sys2Proof.Machine

/-- The sink address of an APU register: the bus address itself (R50, R68). -/
def apuAddr (n : Fin 0x18) : Addr := BitVec.ofNat 16 (0x4000 + n.val)

/-- The bus address of a window byte: `$8000 + 0x1000·k + off` (R37). -/
def romAddr (k : Fin 8) (off : Fin 0x1000) : Addr := BitVec.ofNat 16 (0x8000 + 0x1000 * k.val + off.val)

/-- What a window byte translates to (R37). -/
inductive RomPlace where
  | cacheByte (i : Fin 10) (off : Nat)
  | flatByte (j : Nat)
  | noByte
  deriving DecidableEq, Repr

/-- `Translate` (R37), from the address already cut into `k = a[14:12]` and `off = a[11:0]`. -/
def translate (win : Vector Target 8) (k : Fin 8) (off : Fin 0x1000) : RomPlace :=
  match win[k] with
  | .cache i => .cacheByte i off.val
  | .flat => .flatByte (0x1000 * k.val + off.val)
  | .unmapped => .noByte

end Sys2Proof.Machine
end

