-- ==== Sys2Proof/Machine/Ops.lean ====
section
/-! DEFINITION. The named operations the meanings share: bytes of a memory, the event history, raising a fault, the
file primitive, the LRU touch, and the frame of a bus transaction on a live or a faulted engine. -/

namespace Sys2Proof.Machine

/-! ## Memory -/

/-- The byte at an index; 0 where none is listed. -/
def Memory.read : Memory → Nat → Byte
  | [], _ => 0#8
  | (b, v) :: m, a => if a = b then v else Memory.read m a

/-- Stores a byte and keeps the canonical form: a 0 is not listed. -/
def Memory.write : Memory → Nat → Byte → Memory
  | [], a, v => if v = 0#8 then [] else [(a, v)]
  | (b, w) :: m, a, v =>
    if a < b then (if v = 0#8 then (b, w) :: m else (a, v) :: (b, w) :: m)
    else if a = b then (if v = 0#8 then m else (a, v) :: m)
    else (b, w) :: Memory.write m a v

/-- The memory that holds `bytes` from index `base` on and 0 elsewhere: zeroing a buffer and writing the bytes into it
(R79, R112). -/
def Memory.ofBytes : Nat → List Byte → Memory
  | _, [] => []
  | base, v :: vs => if v = 0#8 then Memory.ofBytes (base + 1) vs else (base, v) :: Memory.ofBytes (base + 1) vs

/-- The indices rise strictly from `lo` on and no listed byte is 0. -/
def Memory.wfFrom : Nat → Memory → Bool
  | _, [] => true
  | lo, (a, v) :: m => decide (lo ≤ a) && v != 0#8 && Memory.wfFrom (a + 1) m

/-- The canonical form of `Memory`, for a buffer of `size` bytes. -/
def Memory.wf (size : Nat) (m : Memory) : Bool := Memory.wfFrom 0 m && m.all fun c => decide (c.1 < size)

/-! ## Events and faults -/

/-- `Emit(ev)`: append to the history (R27). -/
def Engine.emit (ev : Event) (e : Engine) : Engine := { e with events := e.events ++ [ev] }

/-- TAKING A FAULT: `raise Fault(kind, info)` sets the sticky record; nothing done before is undone (spec/60_exceptions.md
R97 steps 2 and 3). The `BankLoad` event of step 1 is `loadBank`'s. There is no return from it (R99): no operation of an
engine clears `fault`. -/
def Engine.raiseFault (kind : ErrorKind) (info : FaultInfo) (e : Engine) : Engine := { e with fault := some ⟨kind, info⟩ }

/-- How an internal operation ends: it completes with a value, or a step of it raises a fault; either way with the
engine as the steps so far left it. -/
inductive Attempt (α : Type) where
  | ok (e : Engine) (a : α)
  | raise (e : Engine) (kind : ErrorKind) (info : FaultInfo)

/-- Go on where the operation completed; a raised fault ends it (R97 step 3). -/
def Attempt.andThen {α β : Type} (t : Attempt α) (f : Engine → α → Attempt β) : Attempt β :=
  match t with
  | .ok e a => f e a
  | .raise e kind info => .raise e kind info

/-! ## The file (spec/20_memory.md R48) -/

/-- `P_FILE[off .. off+m-1]` with `m = min(n, max(0, flen - off))`. -/
def fileBytes (file : List Byte) (off n : Nat) : List Byte := (file.drop off).take n

/-- `FileRead(off, n)` on a file and P_IO's answers: the answers left, and the bytes present or `io_fail` (`none`). The
seek never fails by itself (D21); one answer of P_IO stands for the seek and the read together (log 4). -/
def fileRead (file : List Byte) (ioFail : List Bool) (off n : Nat) : List Bool × Option (List Byte) :=
  (ioFail.tail, if ioFail.headD false then none else some (fileBytes file off n))

/-- `FileRead` of the open engine; `io_fail` raises `IoError` with the caller's info (R48). -/
def Engine.readFile (info : FaultInfo) (off n : Nat) (e : Engine) : Attempt (List Byte) :=
  match fileRead e.file e.ioFail off n with
  | (io, none) => .raise { e with ioFail := io } .ioError info
  | (io, some bytes) => .ok { e with ioFail := io } bytes

/-- The diagnostic of a short read, when `m < n` (R96). -/
def Engine.noteShort (src : ReadSource) (m n : Nat) (e : Engine) : Engine :=
  if m < n then e.emit (.diag (.shortRomRead src m n)) else e

/-! ## The LRU list (spec/42_bank_cache.md R81) -/

/-- Old entries `0 .. j-1` move to `1 .. j`, `b` becomes the head, later entries stay. -/
def lruShift (j : Fin 10) (b : Byte) (l : Vector (Option Byte) 10) : Vector (Option Byte) 10 :=
  Vector.ofFn fun t : Fin 10 => if t = 0 then some b else if t ≤ j then l[t.val - 1] else l[t]

/-- The entries after the head, in rising order. -/
def lruTailIxs : List (Fin 10) := [1, 2, 3, 4, 5, 6, 7, 8, 9]

/-- `LruTouch(b)` on the list: `none` where the insertion finds the list full. -/
def lruTouch (b : Byte) (l : Vector (Option Byte) 10) : Option (Vector (Option Byte) 10) :=
  if l[0] = some b then some l
  else
    match lruTailIxs.find? fun j => l[j] == some b with
    | some j => some (lruShift j b l)
    | none => if l[9] = none then some (lruShift 9 b l) else none

/-- `LruTouch(b)` of the engine; a full list is `InternalError` (R81, D23). -/
def Engine.touch (b : Byte) (e : Engine) : Attempt Unit :=
  match lruTouch b e.lru with
  | some l => .ok { e with lru := l } ()
  | none => .raise e .internalError (.lruFull b)

/-! ## Reading one byte without effect -/

/-- The byte of the flat buffer; an absent buffer reads 0, which no reachable state asks for (log 13). -/
def Engine.flatByte (e : Engine) (j : Nat) : Byte :=
  match e.flat with
  | some m => m.read j
  | none => 0#8

/-- The byte window `k` shows at `off`: 0 where it shows nothing (R37, R63). -/
def Engine.romByte (e : Engine) (k : Fin 8) (off : Fin 0x1000) : Byte :=
  match translate e.win k off with
  | .cacheByte i o => e.cache[i].read o
  | .flatByte j => e.flatByte j
  | .noByte => 0#8

/-- The byte the bus shows at an address (R33), as a live engine would answer it and without any effect: the model's
read of one byte of the bus space. -/
def Engine.busByte (e : Engine) (a : Addr) : Byte :=
  match regionOf a with
  | .ram i => e.ram.read i.val
  | .shim i => e.shim.read i.val
  | .apu n => e.apuRegs[n]
  | .bankreg k => e.bankRegs[k]
  | .rom k off => e.romByte k off
  | .vec i => e.intVecs[i]
  | .unmapped _ => 0#8

/-! ## The frame of a bus transaction -/

/-- A read hook call: a faulted engine answers 0 and does not change (R97, D37); otherwise the body gives the byte and
what the read does to the engine. -/
def readTxn (body : Engine → Engine × Byte) (s : State) : Host.Outcome State Fault Refusal :=
  if s.eng.faulted then .next { s with out := .readData 0#8 }
  else .next { s with eng := (body s.eng).1, out := .readData (body s.eng).2 }

/-- A write hook call: a faulted engine ignores it (R97, D37). -/
def writeTxn (body : Engine → Engine) (s : State) : Host.Outcome State Fault Refusal :=
  if s.eng.faulted then .next { s with out := .writeDone }
  else .next { s with eng := body s.eng, out := .writeDone }

end Sys2Proof.Machine
end

