-- ==== Sys2Proof/Machine/Read.lean ====
section
/-! DEFINITION. The bus reads (spec/40_bus_read.md R59 to R65). -/

namespace Sys2Proof.Machine

/-- RD_RAM (R59). -/
def execRdRam (i : Fin 0x800) (s : State) : Host.Outcome State Fault Refusal :=
  readTxn (fun e => (e, e.ram.read i.val)) s

/-- RD_SHIM (R60). -/
def execRdShim (i : Fin 0x80) (s : State) : Host.Outcome State Fault Refusal :=
  readTxn (fun e => (e, e.shim.read i.val)) s

/-- RD_APU (R61): the shadow, whatever the register. -/
def execRdApu (n : Fin 0x18) (s : State) : Host.Outcome State Fault Refusal :=
  readTxn (fun e => (e, e.apuRegs[n])) s

/-- RD_BANKREG (R62). -/
def execRdBankreg (k : Fin 8) (s : State) : Host.Outcome State Fault Refusal :=
  readTxn (fun e => (e, e.bankRegs[k])) s

/-- What RD_ROM does to a live engine, and the byte it gives (R63). A read that raises a fault gives 0 (R97). -/
def Engine.readRom (k : Fin 8) (off : Fin 0x1000) (e : Engine) : Engine × Byte :=
  match translate e.win k off with
  | .cacheByte i o =>
    if e.slotLoaded[i] then
      match e.touch e.slotBankId[i] with
      | .ok e' _ => (e', e.cache[i].read o)
      | .raise e' kind info => (e'.raiseFault kind info, 0#8)
    else (e.raiseFault .internalError (.windowUnloaded k i), 0#8)
  | .flatByte j => (e, e.flatByte j)
  | .noByte => (e.emit (.diag (.unmappedRomRead (romAddr k off))), 0#8)

/-- RD_ROM (R63). -/
def execRdRom (k : Fin 8) (off : Fin 0x1000) (s : State) : Host.Outcome State Fault Refusal :=
  readTxn (Engine.readRom k off) s

/-- RD_VEC (R64): the vectors, never window 7. -/
def execRdVec (i : Fin 6) (s : State) : Host.Outcome State Fault Refusal :=
  readTxn (fun e => (e, e.intVecs[i])) s

/-- RD_OPEN (R65): 0 and no diagnostic. -/
def execRdOpen (_a : Addr) (s : State) : Host.Outcome State Fault Refusal :=
  readTxn (fun e => (e, 0#8)) s

end Sys2Proof.Machine
end

