-- ==== Sys2Proof/Machine/Cache.lean ====
section
/-! DEFINITION. The bank cache (spec/42_bank_cache.md R74 to R80): `load_bank` and the operations it is made of. -/

namespace Sys2Proof.Machine

/-- Where a bank lies: file offset, in-bank offset, length (R78). -/
structure BankLoc where
  offset : Nat
  inBank : Nat
  len : Nat
  deriving DecidableEq, Repr

/-- `BankLocation(b)` for a load address (R78). -/
def bankLocation (load : Addr) (b : Byte) : BankLoc :=
  let p := load.toNat % 0x1000
  if b = 0#8 then ⟨Config.bodyOff, p, Config.bankSize - p⟩
  else ⟨Config.bodyOff + (Config.bankSize - p) + Config.bankSize * (b.toNat - 1), 0, Config.bankSize⟩

/-- `Evict(v, ob)`: unload slot `v`, the LRU tail's, and unmap every window that shows it (R77, D9, C8). -/
def Engine.evict (v : Fin 10) (e : Engine) : Engine :=
  { e with
    lru := e.lru.set 9 none
    slotLoaded := e.slotLoaded.set v false
    slotBankId := e.slotBankId.set v 0#8
    win := Vector.ofFn fun k : Fin 8 => if e.win[k] = .cache v then .unmapped else e.win[k]
    winBank := Vector.ofFn fun k : Fin 8 => if e.win[k] = .cache v then 0#8 else e.winBank[k] }

/-- `ChooseVictim()`: the lowest free slot, else the slot of the LRU tail, evicted (R76, D23). -/
def Engine.chooseVictim (e : Engine) : Attempt (Fin 10) :=
  match e.freeSlot with
  | some v => .ok e v
  | none =>
    match e.lru[9] with
    | none => .raise e .internalError .lruTailEmpty
    | some ob =>
      match e.slotHolding ob with
      | none => .raise e .internalError (.victimNotFound ob)
      | some v => .ok (e.evict v) v

/-- `Fill(v, b)`: zero the slot, read the bank into it, note a short read (R79). -/
def Engine.fill (v : Fin 10) (b : Byte) (e : Engine) : Attempt Unit :=
  let loc := bankLocation e.header.loadAddress b
  (Engine.readFile (.bankRead b) loc.offset loc.len { e with cache := e.cache.set v [] }).andThen fun e bytes =>
    .ok (Engine.noteShort (.bank b) bytes.length loc.len
      { e with cache := e.cache.set v (Memory.ofBytes loc.inBank bytes) }) ()

/-- `Install(r, b, v)` up to its event: the slot is loaded, window `r` shows it, the bank becomes the LRU head (R80). -/
def Engine.install (r : Fin 8) (b : Byte) (v : Fin 10) (e : Engine) : Attempt Unit :=
  Engine.touch b
    { e with
      slotLoaded := e.slotLoaded.set v true
      slotBankId := e.slotBankId.set v b
      win := e.win.set r (.cache v)
      winBank := e.winBank.set r b }

/-- `Hit(r, b, i)` up to its event (R75). -/
def Engine.showHit (r : Fin 8) (b : Byte) (i : Fin 10) (e : Engine) : Attempt Unit :=
  Engine.touch b { e with win := e.win.set r (.cache i), winBank := e.winBank.set r b }

/-- The steps of `LoadBank(r, b)` for a register in range: hit, or victim, fill and install (R74). -/
def Engine.loadSteps (r : Fin 8) (b : Byte) (e : Engine) : Attempt LoadOutcome :=
  match e.slotHolding b with
  | some i => (e.showHit r b i).andThen fun e _ => .ok e (.hit i)
  | none =>
    e.chooseVictim.andThen fun e v =>
      (e.fill v b).andThen fun e _ =>
        (e.install r b v).andThen fun e _ => .ok e (.fill v)

/-- `LoadBank(r, b)` (R74): `InvalidArg` for a register out of range (D32), one `BankLoad` event in every case, then the
fault if a step raised one (R97 step 1). The engine's `fault` says how it ended. -/
def Engine.loadBank (r : Nat) (b : Byte) (e : Engine) : Engine :=
  match (if h : r < 8 then e.loadSteps ⟨r, h⟩ b else .raise e .invalidArg (.badRegister r)) with
  | .ok e o => e.emit (.bankLoad r b o)
  | .raise e kind info => (e.emit (.bankLoad r b (.fault kind))).raiseFault kind info

end Sys2Proof.Machine
end

