-- ==== Sys2Proof/Machine/Write.lean ====
section
/-! DEFINITION. The bus writes (spec/41_bus_write.md R66 to R73). -/

namespace Sys2Proof.Machine

/-- WR_RAM (R66). -/
def execWrRam (i : Fin 0x800) (v : Byte) (s : State) : Host.Outcome State Fault Refusal :=
  writeTxn (fun e => { e with ram := e.ram.write i.val v }) s

/-- WR_SHIM (R67): discarded. -/
def execWrShim (_i : Fin 0x80) (_v : Byte) (s : State) : Host.Outcome State Fault Refusal :=
  writeTxn (fun e => e) s

/-- The shadow of an APU register (R13). -/
def Engine.setApu (n : Fin 0x18) (v : Byte) (e : Engine) : Engine := { e with apuRegs := e.apuRegs.set n v }

/-- WR_APU (R68): shadowed, and the sink is called with the bus address and the byte. -/
def execWrApu (n : Fin 0x18) (v : Byte) (s : State) : Host.Outcome State Fault Refusal :=
  writeTxn (fun e => (e.setApu n v).emit (.apuWrite (apuAddr n) v)) s

/-- WR_APU_STROBE (R69): shadowed, not forwarded. -/
def execWrApuStrobe (v : Byte) (s : State) : Host.Outcome State Fault Refusal :=
  writeTxn (Engine.setApu 0x16 v) s

/-- What WR_BANKREG does to a live engine: a changed value is stored, then the bank is loaded (R70, D26). -/
def Engine.writeBankreg (k : Fin 8) (v : Byte) (e : Engine) : Engine :=
  if v = e.bankRegs[k] then e
  else Engine.loadBank k.val v { e with bankRegs := e.bankRegs.set k v }

/-- WR_BANKREG (R70). -/
def execWrBankreg (k : Fin 8) (v : Byte) (s : State) : Host.Outcome State Fault Refusal :=
  writeTxn (Engine.writeBankreg k v) s

/-- WR_ROM (R71): discarded, no diagnostic, no touch. -/
def execWrRom (_k : Fin 8) (_off : Fin 0x1000) (_v : Byte) (s : State) : Host.Outcome State Fault Refusal :=
  writeTxn (fun e => e) s

/-- WR_VEC (R72): discarded. -/
def execWrVec (_i : Fin 6) (_v : Byte) (s : State) : Host.Outcome State Fault Refusal :=
  writeTxn (fun e => e) s

/-- WR_OPEN (R73): discarded. -/
def execWrOpen (_a : Addr) (_v : Byte) (s : State) : Host.Outcome State Fault Refusal :=
  writeTxn (fun e => e) s

end Sys2Proof.Machine
end

