-- ==== Sys2Proof/Machine/Dispatch.lean ====
section
/-! DEFINITION. One arm per transaction class (spec/30_encoding.md R51). -/

namespace Sys2Proof.Machine

def exec (i : Instr) (s : State) : Host.Outcome State Fault Refusal :=
  match i with
  | .rdRam x => Sys2Proof.Machine.execRdRam x s
  | .rdShim x => Sys2Proof.Machine.execRdShim x s
  | .rdApu n => Sys2Proof.Machine.execRdApu n s
  | .rdBankreg k => Sys2Proof.Machine.execRdBankreg k s
  | .rdRom k off => Sys2Proof.Machine.execRdRom k off s
  | .rdVec x => Sys2Proof.Machine.execRdVec x s
  | .rdOpen a => Sys2Proof.Machine.execRdOpen a s
  | .wrRam x v => Sys2Proof.Machine.execWrRam x v s
  | .wrShim x v => Sys2Proof.Machine.execWrShim x v s
  | .wrApu n v => Sys2Proof.Machine.execWrApu n v s
  | .wrApuStrobe v => Sys2Proof.Machine.execWrApuStrobe v s
  | .wrBankreg k v => Sys2Proof.Machine.execWrBankreg k v s
  | .wrRom k off v => Sys2Proof.Machine.execWrRom k off v s
  | .wrVec x v => Sys2Proof.Machine.execWrVec x v s
  | .wrOpen a v => Sys2Proof.Machine.execWrOpen a v s

end Sys2Proof.Machine
end

