-- ==== Sys2Proof/Machine/Header.lean ====
section
/-! DEFINITION. The NSF header parser (spec/30_encoding.md R58, spec/43_host_ops.md R87). -/

namespace Sys2Proof.Machine

/-- A byte of the 128 header bytes. -/
def headerByte (h : List Byte) (i : Nat) : Byte := h.getD i 0#8

/-- A 16-bit field, little-endian (R38, R58). -/
def headerWord (h : List Byte) (i : Nat) : Addr := le16 (headerByte h i) (headerByte h (i + 1))

/-- A text field: the first 31 bytes, then a forced NUL (R87). -/
def headerText (h : List Byte) (i : Nat) : List Byte := (h.drop i).take 31 ++ [0]

/-- The starting song, 1-based in the file, 0-based here; for a byte 0 the source gives no value (R87; log 9). -/
def zeroBasedSong (b : Byte) : Byte := if b = 0#8 then Config.startingSongOfZero else b - 1

/-- The fields of the header at the offsets of R58. -/
def parseHeader (h : List Byte) : Header where
  version := headerByte h 5
  totalSongs := headerByte h 6
  startingSong := zeroBasedSong (headerByte h 7)
  loadAddress := headerWord h 8
  initAddress := headerWord h 10
  playAddress := headerWord h 12
  name := headerText h 14
  artist := headerText h 46
  copyright := headerText h 78
  speedNtsc := headerWord h 110
  bankswitch := Vector.ofFn fun k : Fin 8 => headerByte h (112 + k.val)
  speedPal := headerWord h 120
  regionFlags := headerByte h 122
  extraChips := headerByte h 123
  reserved := (h.drop 124).take 4

/-- The five magic bytes (R58). -/
def headerMagic : List Byte := [0x4E, 0x45, 0x53, 0x4D, 0x1A]

/-- The diagnostic of reserved flag bits, accepted (R87, C13). -/
def reservedDiags (h : List Byte) : List Diag :=
  if headerByte h 122 &&& 0xFC ≠ 0 ∨ headerByte h 123 &&& 0xC0 ≠ 0 then
    [.reservedHeaderBits (headerByte h 122) (headerByte h 123)]
  else []

/-- `read_header(P_FILE)`: the answers of P_IO left, and the header with its diagnostics or the error, the length
checked before the magic (R87, D40). -/
def readHeader (file : List Byte) (ioFail : List Bool) : List Bool × Except ErrorKind (Header × List Diag) :=
  match fileRead file ioFail 0 Config.hdrSize with
  | (io, none) => (io, .error .ioError)
  | (io, some h) =>
    (io,
      if h.length < Config.hdrSize then .error .shortHeader
      else if h.take 5 ≠ headerMagic then .error .badMagic
      else .ok (parseHeader h, reservedDiags h))

end Sys2Proof.Machine
end

