-- ==== Sys2Proof/Machine/Init.lean ====
section
/-! DEFINITION. The reset steps of `playback_init` (spec/70_reset_and_hazards.md R108 to R112), on an engine. -/

namespace Sys2Proof.Machine

/-- The shim image, offsets `0x00` to `0x10` (spec/30_encoding.md R56). -/
def shimImage (song region : Byte) (h : Header) : List Byte :=
  [0xA9, song, 0xA2, region, 0x20, loByte h.initAddress, hiByte h.initAddress,
    0x20, loByte h.playAddress, hiByte h.playAddress, 0x4C, 0x07, 0x10, 0xEA, 0xEA, 0xEA, 0xEA]

/-- The vectors: the reset vector is `$1000`, the others are the open parameters (R17, R109). -/
def resetVectors : Vector Byte 6 :=
  #v[loByte Config.vecNmi, hiByte Config.vecNmi, loByte Config.shimBase, hiByte Config.shimBase,
    loByte Config.vecIrq, hiByte Config.vecIrq]

/-- `InitCommon(song, region, sink)`; no store is a bus transaction, so no sink call and no load (R109, D24). -/
def Engine.initCommon (song region : Byte) (sink : Nat) (e : Engine) : Engine :=
  { e with
    initialised := false
    ram := []
    apuRegs := (Vector.replicate 0x18 0#8).set 0x17 Config.apu17Reset
    bankRegs := Vector.replicate 8 0#8
    sink := some sink
    shim := Memory.ofBytes 0 (shimImage song region e.header)
    intVecs := resetVectors }

/-- The window indices in rising order. -/
def windowIxs : List (Fin 8) := [0, 1, 2, 3, 4, 5, 6, 7]

/-- The stores of `InitBanked()` before its loads: "zero the cache, reset LRU" (R111, D12). -/
def Engine.clearCache (e : Engine) : Engine :=
  { e with
    cache := Vector.replicate 10 []
    slotLoaded := Vector.replicate 10 false
    slotBankId := Vector.replicate 10 0#8
    lru := Vector.replicate 10 none
    win := Vector.replicate 8 .unmapped
    winBank := Vector.replicate 8 0#8
    flat := none
    romMode := .banked }

/-- One load of `InitBanked()`; none runs after a fault (R97). -/
def Engine.initLoad (e : Engine) (k : Fin 8) : Engine :=
  if e.faulted then e else e.loadBank k.val e.header.bankswitch[k]

/-- `InitBanked()`: `load_bank(i, bankswitch_init[i])` for `i = 0..7` on the cleared cache (R111). -/
def Engine.initBanked (e : Engine) : Engine := windowIxs.foldl Engine.initLoad e.clearCache

/-- `InitContig()`: the flat buffer from the file, every window on it; the cache is kept (R112, D10, D11). -/
def Engine.initContig (e : Engine) : Attempt Unit :=
  let base := e.header.loadAddress.toNat - 0x8000
  let n := 0xFFFF - e.header.loadAddress.toNat
  (Engine.readFile .contigRead Config.bodyOff n { e with flat := some [] }).andThen fun e bytes =>
    .ok
      { (Engine.noteShort .contig bytes.length n { e with flat := some (Memory.ofBytes base bytes) }) with
        win := Vector.replicate 8 .flat
        winBank := Vector.replicate 8 0#8
        romMode := .contiguous } ()

/-- The reset steps, R108 to R112, on an engine without a fault; its `fault` says whether a step raised one. -/
def Engine.initSteps (song region : Byte) (sink : Nat) (e : Engine) : Engine :=
  if e.header.loadAddress.toNat < 0x8000 then
    e.raiseFault .badLoadAddress (.loadAddress e.header.loadAddress)
  else if e.header.banked then (e.initCommon song region sink).initBanked
  else
    match (e.initCommon song region sink).initContig with
    | .ok e _ => e
    | .raise e kind info => e.raiseFault kind info

end Sys2Proof.Machine
end

