-- ==== Sys2Proof/Machine/Host.lean ====
section
/-! DEFINITION. The host operations (spec/43_host_ops.md R86 to R91, spec/70_reset_and_hazards.md R107, R113, R114). A
call that runs the CPU opens a run; the CPU's transactions and returns are then inputs of their own (log 17). -/

namespace Sys2Proof.Machine

/-- The result of a host operation. -/
def State.returning (r : HostResult) (s : State) : State := { s with out := .hostReturn r }

/-- The engine a reference names, if it exists (R91, R106). -/
def State.engineAt (s : State) : EngineRef → Option Engine
  | .current => if s.status = .absent then none else some s.eng
  | .failed k => s.failed[k]?

/-- A new engine at its "at open" values, with its header, its file and the parser's diagnostics as first events (R88,
R31). -/
def Engine.atOpen (h : Header) (diags : List Diag) (file : List Byte) (ioFail : List Bool) : Engine :=
  { Engine.blank with header := h, file := file, ioFail := ioFail, events := diags.map .diag }

/-- `read_header` used alone: its result, with the diagnostics beside it; nothing is written (R87). -/
def callReadHeader (file : List Byte) (ioFail : List Bool) (s : State) : State :=
  match (readHeader file ioFail).2 with
  | .error kind => s.returning (.err kind)
  | .ok (h, diags) => s.returning (.header h diags)

/-- `open(P_FILE)`: `AlreadyOpen` before the file is read (D41), else a new active engine. An engine that only waits for
its `close` moves to `failed` (R88, R114). -/
def callOpen (file : List Byte) (ioFail : List Bool) (s : State) : State :=
  if s.status = .active then s.returning (.err .alreadyOpen)
  else
    match readHeader file ioFail with
    | (_, .error kind) => s.returning (.err kind)
    | (io, .ok (h, diags)) =>
      { s with
        eng := Engine.atOpen h diags file io
        status := .active
        failed := if s.status = .detached then s.failed ++ [s.eng] else s.failed
        out := .hostReturn .ok }

/-- The end of a `playback_init` in which a step raised a fault: no longer the active engine, not initialised, all else
as the steps left it (R114, D29). -/
def State.failInit (kind : ErrorKind) (e : Engine) (s : State) : State :=
  { s with eng := { e with initialised := false }, status := .detached, run := .idle, out := .hostReturn (.err kind) }

/-- `playback_init` up to its CPU run; `whole` says whether the run follows (R107) or the call is the trace line `INIT`,
which ends here (R55). -/
def callInit (whole : Bool) (song region : Byte) (sink : Nat) (s : State) : State :=
  match s.eng.faultKind with
  | some kind => s.returning (.err kind)
  | none =>
    match (s.eng.initSteps song region sink).faultKind with
    | some kind => s.failInit kind (s.eng.initSteps song region sink)
    | none =>
      if whole then { s with eng := s.eng.initSteps song region sink, run := .initRun, out := .nothing }
      else { s with eng := s.eng.initSteps song region sink, out := .hostReturn .ok }

/-- `playback_frame` up to its CPU run, with its checks in the order of R98 (R90). -/
def callFrame (s : State) : State :=
  match s.eng.faultKind with
  | some kind => s.returning (.err kind)
  | none =>
    if s.eng.initialised = false then s.returning (.err .invalidState)
    else if s.cpuPc ≠ Config.idlePc then s.returning (.err .invalidState)
    else { s with run := .frameRun, out := .nothing }

/-- `playback_init` or `playback_frame` on an engine that `open` has replaced: it is faulted, so the call returns the
recorded kind with no effect (D42). -/
def callOnFailed (k : Nat) (s : State) : Host.Outcome State Fault Refusal :=
  match (s.failed[k]?).bind (·.faultKind) with
  | some kind => .next (s.returning (.err kind))
  | none => .fault .noSuchEngine

/-- `close(E)`: the engine is gone; it stops being the active one (R91). -/
def callClose (s : State) : EngineRef → Host.Outcome State Fault Refusal
  | .current =>
    if s.status = .absent then .fault .noSuchEngine
    else .next { s with eng := Engine.blank, status := .absent, out := .hostReturn .ok }
  | .failed k =>
    if k < s.failed.length then .next { s with failed := s.failed.eraseIdx k, out := .hostReturn .ok }
    else .fault .noSuchEngine

/-- The trace line `LOADBANK`: a direct `load_bank(r, b)`; a faulted engine does not act (R55, R74, R97; log 12). -/
def callLoadBank (r : Nat) (b : Byte) (s : State) : State :=
  match s.eng.faultKind with
  | some kind => s.returning (.err kind)
  | none =>
    match (s.eng.loadBank r b).faultKind with
    | some kind => { s with eng := s.eng.loadBank r b, out := .hostReturn (.err kind) }
    | none => { s with eng := s.eng.loadBank r b, out := .hostReturn .ok }

/-- An operation on the current engine, which must exist (R91). -/
def State.onCurrent (s : State) (f : State → State) : Host.Outcome State Fault Refusal :=
  if s.status = .absent then .fault .noSuchEngine else .next (f s)

/-- A host call (R86); none runs while another is in progress. -/
def hostCall (op : HostOp) (s : State) : Host.Outcome State Fault Refusal :=
  if s.run ≠ .idle then .fault .hostCallInProgress
  else
    match op with
    | .readHeader file io => .next (callReadHeader file io s)
    | .openFile file io => .next (callOpen file io s)
    | .getHeader r =>
      match s.engineAt r with
      | some e => .next (s.returning (.header e.header []))
      | none => .fault .noSuchEngine
    | .logHeader r => if (s.engineAt r).isSome then .next (s.returning .ok) else .fault .noSuchEngine
    | .playbackInit .current song region sink => s.onCurrent (callInit true song region sink)
    | .playbackInit (.failed k) _ _ _ => callOnFailed k s
    | .playbackFrame .current => s.onCurrent callFrame
    | .playbackFrame (.failed k) => callOnFailed k s
    | .close r => callClose s r
    | .traceInit song region sink => s.onCurrent (callInit false song region sink)
    | .traceLoadBank r b => s.onCurrent (callLoadBank r b)

/-- The CPU's `reset()` or `step()` has returned and `pc()` reads `pc` (R92). In a run: a fault ends it with its kind;
else `pc = $1007` ends it well; else the next step follows (R113, R90; log 11). Outside a run only `pc()` changes. -/
def cpuReturned (pc : Addr) (s : State) : State :=
  match s.run, s.eng.faultKind with
  | .idle, _ => { s with cpuPc := pc, out := .nothing }
  | .initRun, some kind => ({ s with cpuPc := pc }).failInit kind s.eng
  | .initRun, none =>
    if pc = Config.idlePc then
      { s with cpuPc := pc, eng := { s.eng with initialised := true }, run := .idle, out := .hostReturn .ok }
    else { s with cpuPc := pc, out := .nothing }
  | .frameRun, some kind => { s with cpuPc := pc, run := .idle, out := .hostReturn (.err kind) }
  | .frameRun, none =>
    if pc = Config.idlePc then { s with cpuPc := pc, run := .idle, out := .hostReturn .ok }
    else { s with cpuPc := pc, out := .nothing }

end Sys2Proof.Machine
end

