-- ==== Sys2Proof/Machine/Bus.lean ====
section
/-! DEFINITION. What one input does: the bus hooks on the active engine (spec/43_host_ops.md R94), the CPU's returns and
the host's calls. -/

namespace Sys2Proof.Machine

/-- The next input in the order the outside world acts (spec/20_memory.md R42), and the state without it. -/
def State.nextInput (s : State) : Option (Input × State) :=
  match s.inputs with
  | [] => none
  | i :: rest => some (i, { s with inputs := rest })

/-- A bus transaction: decoded and run on the active engine; the hooks reach no other (R94). -/
def busTransaction (t : TxnWord) (s : State) : Host.Outcome State Fault Refusal :=
  if s.status = .active then exec (decode t) s else .fault .noActiveEngine

/-- One input. -/
def perform (i : Input) (s : State) : Host.Outcome State Fault Refusal :=
  match i with
  | .bus t => busTransaction t s
  | .cpuReturn pc => .next (cpuReturned pc s)
  | .host op => hostCall op s

end Sys2Proof.Machine
end

