-- ==== Sys2Proof/Machine/Step.lean ====
section
/-! DEFINITION. One step: the next input. With none waiting nothing happens: the block performs no step unprompted
(spec/00_scope.md R5; log 1). -/

namespace Sys2Proof.Machine

def step (s : State) : Host.Outcome State Fault Refusal :=
  match s.nextInput with
  | none => .next s
  | some (i, s') => perform i s'

/-- The word whose bits are `w` as the next input, and an active engine for it to reach (R94; log 1, log 16): all that
the very next step needs to run it. -/
def State.withFetchWord (s : State) (nbits w : Nat) : State :=
  { s with status := .active, inputs := .bus (BitVec.ofNat 25 (w % 2 ^ nbits)) :: s.inputs }

end Sys2Proof.Machine
end

