-- ==== Sys2Proof/Machine/Errors.lean ====
section
/-! DEFINITION. The numeric codes of errors and diagnostics (spec/60_exceptions.md R95, R96; D16). -/

namespace Sys2Proof.Machine

/-- The code of an error kind (R95). -/
def ErrorKind.code : ErrorKind → Nat
  | .invalidArg => 1
  | .badMagic => 2
  | .shortHeader => 3
  | .badLoadAddress => 4
  | .ioError => 5
  | .alreadyOpen => 6
  | .invalidState => 7
  | .internalError => 8

/-- The code a host operation returns: `Ok` is 0 (R95). -/
def HostResult.code : HostResult → Nat
  | .ok | .header _ _ => 0
  | .err kind => kind.code

/-- The code of a diagnostic (R96). -/
def Diag.code : Diag → Nat
  | .shortRomRead _ _ _ => 1
  | .unmappedRomRead _ => 2
  | .reservedHeaderBits _ _ => 3

end Sys2Proof.Machine
end

