-- ==== Sys2Proof/Machine/Trace.lean ====
section
/-! DEFINITION. The trace syntax (spec/30_encoding.md R55): its lines as inputs of the machine, and how a trace runs, line
by line, with the value each line gives. -/

namespace Sys2Proof.Machine

/-! ## The lines -/

/-- What P_CPU does in one `cpu.step()`: the transactions it issues, in order, and what `pc()` then returns
(spec/43_host_ops.md R92, D28). -/
structure CpuStep where
  txns : List TxnWord
  pc : Addr
  deriving DecidableEq, Repr

/-- A line of a trace, pseudo-instructions and comments among them. A line that R55 leaves to an open parameter carries it:
`INIT` the sink it registers (log 19), `FRAME` the steps P_CPU takes in it (log 23). `expect` is the `=> $vv` of a read. -/
inductive TraceLine where
  | rd (a : Addr) (expect : Option Byte)
  | wr (a : Addr) (v : Byte)
  | loadBank (k : Nat) (b : Byte)
  | init (song region : Byte) (sink : Nat)
  | frame (cpu : List CpuStep)
  | switch (k : Fin 8) (b : Byte)
  | rdw (a : Addr) (expect : Option Addr)
  | apuw (n : Fin 0x18) (v : Byte)
  | comment
  deriving DecidableEq, Repr

/-- The word of a write. -/
def wrWord (a : Addr) (v : Byte) : TxnWord := packTxn true a v

/-- The word of a read, its datum 0. -/
def rdWord (a : Addr) : TxnWord := packTxn false a 0

/-- A step of the CPU as inputs: its transactions, then its return. -/
def CpuStep.inputs (c : CpuStep) : List Input := c.txns.map .bus ++ [.cpuReturn c.pc]

/-- What a line stands for. `RDW` reads the low byte, then the byte at the next address, which wraps (log 14). The steps of
a `FRAME` follow its call; `runLine` leaves out those that come after its end. -/
def TraceLine.inputs : TraceLine → List Input
  | .rd a _ => [.bus (rdWord a)]
  | .wr a v => [.bus (wrWord a v)]
  | .loadBank k b => [.host (.traceLoadBank k b)]
  | .init song region sink => [.host (.traceInit song region sink)]
  | .frame cpu => .host (.playbackFrame .current) :: cpu.flatMap CpuStep.inputs
  | .switch k b => [.bus (wrWord (BitVec.ofNat 16 (0x5FF8 + k.val)) b)]
  | .rdw a _ => [.bus (rdWord a), .bus (rdWord (a + 1))]
  | .apuw n v => [.bus (wrWord (BitVec.ofNat 16 (0x4000 + n.val)) v)]
  | .comment => []

/-- A trace as inputs, one after the other. -/
def traceInputs (lines : List TraceLine) : List Input := lines.flatMap TraceLine.inputs

/-! ## Running a trace -/

/-- What a line gives: what its last input gave back, or the value of an `RDW`. -/
inductive LineResult where
  | out (o : Output)
  | word (v : Addr)
  deriving DecidableEq, Repr

/-- The result of a line from what its inputs gave back; the value of `RDW` is `lo | (hi << 8)` (R55, R38). -/
def TraceLine.result : TraceLine → List Output → LineResult
  | .rdw _ _, [.readData lo, .readData hi] => .word (le16 lo hi)
  | _, os => .out (os.getLastD .nothing)

/-- Whether a line gives what it says it gives; a line that says nothing is met by any result (R55). -/
def TraceLine.met : TraceLine → LineResult → Bool
  | .rd _ (some v), r => decide (r = .out (.readData v))
  | .rdw _ (some v), r => decide (r = .word v)
  | _, _ => true

/-- Go on from a next state; a stop stays a stop. -/
def andNext {α β : Type} (x : Host.Outcome α Fault Refusal) (f : α → Host.Outcome β Fault Refusal) :
    Host.Outcome β Fault Refusal :=
  match x with
  | .next a => f a
  | .fault r => .fault r
  | .refused r => .refused r

/-- Do `f` for each of a list in order, each on the state the one before left. -/
def inOrder {α β : Type} (f : α → State → Host.Outcome (β × State) Fault Refusal) :
    List α → State → Host.Outcome (List β × State) Fault Refusal
  | [], s => .next ([], s)
  | a :: as, s => andNext (f a s) fun p => andNext (inOrder f as p.2) fun q => .next (p.1 :: q.1, q.2)

/-- One step of the machine on a given input, and what it gives back. -/
def giveInput (i : Input) (s : State) : Host.Outcome (Output × State) Fault Refusal :=
  andNext (step { s with inputs := i :: s.inputs }) fun t => .next (t.out, t)

/-- A step of the CPU inside a run; once the operation has ended the CPU takes none (R90, VH6 of spec/95_test_vectors.md). -/
def takeCpuStep (c : CpuStep) (s : State) : Host.Outcome (Output × State) Fault Refusal :=
  if s.run = .idle then .next (s.out, s)
  else andNext (inOrder giveInput c.inputs s) fun p => .next (p.2.out, p.2)

/-- One line (R55). -/
def runLine (l : TraceLine) (s : State) : Host.Outcome (LineResult × State) Fault Refusal :=
  match l with
  | .frame cpu =>
    andNext (giveInput (.host (.playbackFrame .current)) s) fun p =>
      andNext (inOrder takeCpuStep cpu p.2) fun q => .next (.out q.2.out, q.2)
  | l => andNext (inOrder giveInput l.inputs s) fun p => .next (l.result p.1, p.2)

/-- A trace, line by line, with the result of each line. -/
def runTrace (lines : List TraceLine) (s : State) : Host.Outcome (List LineResult × State) Fault Refusal :=
  inOrder runLine lines s

end Sys2Proof.Machine
end

