-- ==== Sys2Proof/Safety.lean ====
section
/-! DEFINITION. What a sound state is: the invariants of spec/42_bank_cache.md R82, the content property of R83, the
canonical form of every memory, and the life of an engine (spec/60_exceptions.md R106). -/

namespace Sys2Proof.Machine

/-! ## The engine -/

/-- Every memory of the engine is in canonical form and inside its buffer (R11, R12, R18, R20). -/
structure Engine.MemWf (e : Engine) : Prop where
  ram : Memory.wf 0x800 e.ram = true
  shim : Memory.wf 0x80 e.shim = true
  flat : ∀ m, e.flat = some m → Memory.wf 0x8000 m = true
  cache : ∀ i : Fin 10, Memory.wf 0x1000 e.cache[i] = true

/-- The invariants R82 lists for the time between two operations, item by item (item 5 speaks of the moment after a
read and is no property of a state alone). -/
structure Engine.CacheInv (e : Engine) : Prop where
  /-- item 1: a loaded slot's bank is in `lru` -/
  listed : ∀ i : Fin 10, e.slotLoaded[i] = true → ∃ j : Fin 10, e.lru[j] = some e.slotBankId[i]
  /-- item 1: and only once -/
  once : ∀ (j j' : Fin 10) (b : Byte), e.lru[j] = some b → e.lru[j'] = some b → j = j'
  /-- item 2: an unloaded slot has bank id 0 (no entry is attributed to it, by item 3) -/
  unloaded : ∀ i : Fin 10, e.slotLoaded[i] = false → e.slotBankId[i] = 0#8
  /-- item 3: an entry is the bank of a loaded slot; of exactly one, by item 7 -/
  held : ∀ (j : Fin 10) (b : Byte), e.lru[j] = some b → ∃ i : Fin 10, e.slotLoaded[i] = true ∧ e.slotBankId[i] = b
  /-- item 4: a window on a slot shows a loaded one and `win_bank` is its bank -/
  shown : ∀ (k : Fin 8) (i : Fin 10), e.win[k] = .cache i → e.slotLoaded[i] = true ∧ e.winBank[k] = e.slotBankId[i]
  /-- item 4: any other window has `win_bank` 0 -/
  noBank : ∀ k : Fin 8, e.win[k] = .unmapped ∨ e.win[k] = .flat → e.winBank[k] = 0#8
  /-- item 6: the entries are a prefix as long as the number of loaded slots -/
  leading : ∀ j : Fin 10, e.lru[j].isSome = true ↔ j.val < e.loadedCount
  /-- item 7: the banks of loaded slots are distinct -/
  distinct : ∀ i i' : Fin 10, e.slotLoaded[i] = true → e.slotLoaded[i'] = true → e.slotBankId[i] = e.slotBankId[i'] → i = i'
  /-- item 8: a flat window only in contiguous mode, whose buffer is there -/
  flatMode : ∀ k : Fin 8, e.win[k] = .flat → e.romMode = .contiguous ∧ e.flat.isSome = true

/-- The byte of bank `b` at in-bank offset `off`: the file's byte at the place `BankLocation` gives it, 0 outside that
place and past the end of the file (R83). -/
def bankByte (file : List Byte) (load : Addr) (b : Byte) (off : Nat) : Byte :=
  let loc := bankLocation load b
  if loc.inBank ≤ off ∧ off < loc.inBank + loc.len then file.getD (loc.offset + (off - loc.inBank)) 0#8 else 0#8

/-- A loaded slot holds its bank's bytes (R83, R85). -/
def Engine.ContentInv (e : Engine) : Prop :=
  ∀ (i : Fin 10) (off : Nat), e.slotLoaded[i] = true → off < 0x1000 →
    e.cache[i].read off = bankByte e.file e.header.loadAddress e.slotBankId[i] off

/-- No recorded fault is an `InternalError` (R82, D23: unreachable). -/
def Engine.NoInternal (e : Engine) : Prop := ∀ r, e.fault = some r → r.kind ≠ .internalError

/-- The shim is blank, or the image of some `song` and `region` (R12, R56). -/
def Engine.ShimBuilt (e : Engine) : Prop :=
  e.shim = [] ∨ ∃ song region, e.shim = Memory.ofBytes 0 (shimImage song region e.header)

/-- An engine between two operations. -/
structure Engine.Inv (e : Engine) : Prop where
  mem : e.MemWf
  bank : e.CacheInv
  content : e.ContentInv
  noInternal : e.NoInternal
  shim : e.ShimBuilt
  /-- the reset vector is `$1000`, the others the open parameters (R17, R36) -/
  vectors : e.intVecs = resetVectors
  /-- an initialised engine has a ROM mode and a legal load address (R26, R108, R110) -/
  ready : e.initialised = true → e.romMode ≠ .unset ∧ 0x8000 ≤ e.header.loadAddress.toNat

/-! ## Terms the statements use -/

/-- The bus address a transaction stores its datum at: RAM, an APU shadow, a bank register. The other writes are
discarded and a read stores nothing (spec/20_memory.md R33). -/
def storeAddr (i : Instr) : Option Addr :=
  match i with
  | .wrRam _ _ | .wrApu _ _ | .wrApuStrobe _ | .wrBankreg _ _ => some i.addr
  | .rdRam _ | .rdShim _ | .rdApu _ | .rdBankreg _ | .rdRom _ _ | .rdVec _ | .rdOpen _ => none
  | .wrShim _ _ | .wrRom _ _ _ | .wrVec _ _ | .wrOpen _ _ => none

/-- The address lies in the ROM windows, below the vectors (R33). -/
def romWindowAddr (a : Addr) : Prop := 0x8000 ≤ a.toNat ∧ a.toNat ≤ 0xFFF9

/-- The calls of the sink in an event history, oldest first (R27). -/
def sinkCalls (events : List Event) : List (Addr × Byte) :=
  events.filterMap fun ev =>
    match ev with
    | .apuWrite a v => some (a, v)
    | .diag _ | .bankLoad _ _ _ => none

/-- The outcomes of the bank loads in an event history, oldest first (R27). -/
def loadOutcomes (events : List Event) : List LoadOutcome :=
  events.filterMap fun ev =>
    match ev with
    | .bankLoad _ _ o => some o
    | .apuWrite _ _ | .diag _ => none

/-- Direct bank loads in sequence, with no reads between (R84). -/
def Engine.loadAll (loads : List (Fin 8 × Byte)) (e : Engine) : Engine :=
  loads.foldl (fun e p => e.loadBank p.1.val p.2) e

/-- Banks by their last load, latest first (R31, the row of `lru`). -/
def recency (banks : List Byte) : List Byte := banks.foldl (fun l b => b :: l.erase b) []

/-! ## The process -/

/-- The process between two steps: sound engines, and the life cycle of R106, R113 and R114. -/
structure State.Inv (s : State) : Prop where
  eng : s.eng.Inv
  /-- an engine that `open` replaced is faulted and not initialised (R114) -/
  failed : ∀ e ∈ s.failed, e.Inv ∧ e.faulted = true ∧ e.initialised = false
  /-- so is one that only waits for its `close` (R114) -/
  detached : s.status = .detached → s.eng.faulted = true ∧ s.eng.initialised = false
  /-- no engine, no state of one (R91) -/
  absent : s.status = .absent → s.eng = Engine.blank
  /-- the CPU runs only inside an operation on the active engine (R93) -/
  running : s.run ≠ .idle → s.status = .active
  /-- the reset steps are done and the engine is not initialised yet (R107, R113) -/
  initRun : s.run = .initRun →
    s.eng.initialised = false ∧ s.eng.romMode ≠ .unset ∧ 0x8000 ≤ s.eng.header.loadAddress.toNat
  /-- R90 -/
  frameRun : s.run = .frameRun → s.eng.initialised = true

end Sys2Proof.Machine
end

