-- ==== Sys2Proof/Certificates/Slice0/Obligations.lean ====
section
/-! DEFINITION. The statements for the provers, in the order of OBLIGATIONS.json: reset, encoding, the step, the bus
transactions, the bank cache, the whole machine, the hazards, the host operations. Each docstring names the rule of
spec/ it formalises; where a clause is the model's choice it names the log entry. -/

open Sys2Proof Sys2Proof.Machine

/-! ## Reset -/

/-- The model's state after reset: the process before any `open`, the engine fields at the "at open" column of
spec/10_state.md section 7, which is the spec's own choice (D13). That reset is this moment is the model's choice
(log 2). -/
def Obligations.ResetHoldsTheAtOpenValues : Prop :=
  State.reset.status = .absent ∧ State.reset.failed = [] ∧ State.reset.run = .idle ∧ State.reset.inputs = [] ∧
  (∀ j, State.reset.eng.ram.read j = 0#8) ∧
  (∀ j, State.reset.eng.shim.read j = 0#8) ∧
  (∀ n : Fin 0x18, State.reset.eng.apuRegs[n] = 0#8) ∧
  (∀ k : Fin 8, State.reset.eng.bankRegs[k] = 0#8) ∧
  (∀ k : Fin 8, State.reset.eng.win[k] = .unmapped ∧ State.reset.eng.winBank[k] = 0#8) ∧
  State.reset.eng.intVecs[0] = loByte Config.vecNmi ∧ State.reset.eng.intVecs[1] = hiByte Config.vecNmi ∧
  State.reset.eng.intVecs[2] = 0x00#8 ∧ State.reset.eng.intVecs[3] = 0x10#8 ∧
  State.reset.eng.intVecs[4] = loByte Config.vecIrq ∧ State.reset.eng.intVecs[5] = hiByte Config.vecIrq ∧
  State.reset.eng.flat = none ∧ State.reset.eng.romMode = .unset ∧
  (∀ (i : Fin 10) (j : Nat), State.reset.eng.cache[i].read j = 0#8) ∧
  (∀ i : Fin 10, State.reset.eng.slotLoaded[i] = false ∧ State.reset.eng.slotBankId[i] = 0#8 ∧
    State.reset.eng.lru[i] = none) ∧
  State.reset.eng.fault = none ∧ State.reset.eng.initialised = false ∧ State.reset.eng.sink = none ∧
  State.reset.eng.events = []

/-- The invariant of the process holds at reset. The invariant gathers R82, R83, R17, R26, R106 and R114, and the
canonical form of the model's memories; its choice is the model's. -/
def Obligations.ResetSatisfiesTheInvariant : Prop := State.reset.Inv

/-! ## Encoding -/

/-- R49: `t = (W << 24) | (A << 8) | D`; the three fields are read back; a read ignores `D`, whose canonical value is 0;
the rule's two examples. -/
def Obligations.TransactionWordPacksItsFields : Prop :=
  (∀ (w : Bool) (a : Addr) (d : Byte),
    (packTxn w a d).toNat = (if w then 2 ^ 24 else 0) + a.toNat * 2 ^ 8 + d.toNat ∧
    (packTxn w a d).w = w ∧ (packTxn w a d).a = a ∧ (packTxn w a d).d = d) ∧
  (∀ (a : Addr) (d d' : Byte), decode (packTxn false a d) = decode (packTxn false a d')) ∧
  (∀ i : Instr, i.isWrite = false → (encode i).d = 0#8) ∧
  packTxn true 0x4015 0x0F = 0x140150F ∧ packTxn false 0x8000 0x00 = 0x0800000

/-- The words spec/95_test_vectors.md writes out at the row boundaries decode as it says. -/
def Obligations.BoundaryWordsDecode : Prop :=
  decode 0x007FF00 = .rdRam 0x7FF ∧ decode 0x0080000 = .rdOpen 0x0800 ∧ decode 0x107FF5A = .wrRam 0x7FF 0x5A ∧
  decode 0x0107F00 = .rdShim 0x7F ∧ decode 0x0108000 = .rdOpen 0x1080 ∧ decode 0x1107F5A = .wrShim 0x7F 0x5A ∧
  decode 0x0401700 = .rdApu 0x17 ∧ decode 0x140155A = .wrApu 0x15 0x5A ∧ decode 0x140165A = .wrApuStrobe 0x5A ∧
  decode 0x140175A = .wrApu 0x17 0x5A ∧ decode 0x140185A = .wrOpen 0x4018 0x5A ∧
  decode 0x05FF700 = .rdOpen 0x5FF7 ∧ decode 0x05FF800 = .rdBankreg 0 ∧ decode 0x15FFF5A = .wrBankreg 7 0x5A ∧
  decode 0x17FFF5A = .wrOpen 0x7FFF 0x5A ∧ decode 0x0800000 = .rdRom 0 0 ∧ decode 0x0FFF900 = .rdRom 7 0xFF9 ∧
  decode 0x1FFF95A = .wrRom 7 0xFF9 0x5A ∧ decode 0x0FFFA00 = .rdVec 0 ∧ decode 0x1FFFF5A = .wrVec 5 0x5A

/-- R51 and R52: the class of a word is the one its direction and address range give, `D` takes no part, and exactly one
of the 93 rows (45 read rows, 48 write rows) hits the word, a row of that class. The blocks are maximal: no two rows of a
class are the halves of a block twice their size. The APU ranges are cut as R51 says. -/
def Obligations.DecodeMapIsTheOpcodeTable : Prop :=
  (∀ (w : Bool) (a : Addr) (d : Byte),
    (decode (packTxn w a d)).cls =
      if a.toNat ≤ 0x07FF then (if w then .WR_RAM else .RD_RAM)
      else if 0x1000 ≤ a.toNat ∧ a.toNat ≤ 0x107F then (if w then .WR_SHIM else .RD_SHIM)
      else if a.toNat = 0x4016 then (if w then .WR_APU_STROBE else .RD_APU)
      else if 0x4000 ≤ a.toNat ∧ a.toNat ≤ 0x4017 then (if w then .WR_APU else .RD_APU)
      else if 0x5FF8 ≤ a.toNat ∧ a.toNat ≤ 0x5FFF then (if w then .WR_BANKREG else .RD_BANKREG)
      else if 0x8000 ≤ a.toNat ∧ a.toNat ≤ 0xFFF9 then (if w then .WR_ROM else .RD_ROM)
      else if 0xFFFA ≤ a.toNat then (if w then .WR_VEC else .RD_VEC)
      else (if w then .WR_OPEN else .RD_OPEN)) ∧
  (∀ t : TxnWord, ∃ r : Row, opcodeRows.filter (·.hits t) = [r] ∧ r.cls = (decode t).cls) ∧
  (∀ t : TxnWord, decodeTableWord 25 t.toNat = some (decode t)) ∧
  opcodeRows.length = 93 ∧
  opcodeRows.Pairwise (fun r r' => r.cls = r'.cls → r.maskBits = r'.maskBits →
    r.matchBits &&& r.maskBits.shiftLeft 1 ≠ r'.matchBits &&& r.maskBits.shiftLeft 1) ∧
  (opcodeRows.filter fun r => r.matchBits.getLsbD 24 == false).length = 45 ∧
  (opcodeRows.filter fun r => r.matchBits.getLsbD 24).length = 48 ∧
  rowsWrApu.map (fun r => (r.matchBits, r.maskBits)) =
    [(0x1400000, 0x1FFF000), (0x1401000, 0x1FFFC00), (0x1401400, 0x1FFFE00), (0x1401700, 0x1FFFF00)] ∧
  rowsRdApu.map (fun r => (r.matchBits, r.maskBits)) = [(0x0400000, 0x1FFF000), (0x0401000, 0x1FFF800)]

/-- R50: how each class takes its operands from `A` and `D`, with the sink address of WR_APU; the ranges are the operand
types'. -/
def Obligations.OperandsAreTheAddressFields : Prop :=
  (∀ (a : Addr) (d : Byte),
    match decode (packTxn false a d) with
    | .rdRam i => i.val = a.toNat ∧ i.val = (a.extractLsb' 0 11).toNat
    | .rdShim i => i.val + 0x1000 = a.toNat ∧ i.val = (a.extractLsb' 0 7).toNat
    | .rdApu n => n.val + 0x4000 = a.toNat ∧ n.val = (a.extractLsb' 0 5).toNat
    | .rdBankreg k => k.val + 0x5FF8 = a.toNat ∧ k.val = (a.extractLsb' 0 3).toNat
    | .rdRom k off => k.val = (a.extractLsb' 12 3).toNat ∧ off.val = (a.extractLsb' 0 12).toNat
    | .rdVec i => i.val + 0xFFFA = a.toNat
    | .rdOpen b => b = a
    | _ => False) ∧
  (∀ (a : Addr) (d : Byte),
    match decode (packTxn true a d) with
    | .wrRam i v => i.val = a.toNat ∧ i.val = (a.extractLsb' 0 11).toNat ∧ v = d
    | .wrShim i v => i.val + 0x1000 = a.toNat ∧ i.val = (a.extractLsb' 0 7).toNat ∧ v = d
    | .wrApu n v => n.val + 0x4000 = a.toNat ∧ n.val = (a.extractLsb' 0 5).toNat ∧ apuAddr n = a ∧ v = d
    | .wrApuStrobe v => a = 0x4016 ∧ v = d
    | .wrBankreg k v => k.val + 0x5FF8 = a.toNat ∧ k.val = (a.extractLsb' 0 3).toNat ∧ v = d
    | .wrRom k off v => k.val = (a.extractLsb' 12 3).toNat ∧ off.val = (a.extractLsb' 0 12).toNat ∧ v = d
    | .wrVec i v => i.val + 0xFFFA = a.toNat ∧ v = d
    | .wrOpen b v => b = a ∧ v = d
    | _ => False)

/-- Decoding the encoding of a well-formed transaction gives it back, with every operand. -/
def Obligations.DecodeOfEncodeIsIdentity : Prop := ∀ i : Instr, i.wf = true → decode (encode i) = i

/-- Every word decodes to a well-formed transaction, whose encoding is the word with a read's ignored `D` at 0. -/
def Obligations.EncodeOfDecodeIsCanonical : Prop :=
  ∀ t : TxnWord, (decode t).wf = true ∧ encode (decode t) = packTxn t.w t.a (if t.w then t.d else 0#8)

/-! ## The step -/

/-- What a step does. A bus word at the head of the inputs is decoded and run on the active engine, on the state without
that input (R42, R94); no input, no step (R5); a host call (R86) and a return of the CPU (R92) are taken whole; a bus word
with no active engine stops. The queue of inputs and that stop are the model's choice (log 1, log 6, log 7). -/
def Obligations.StepRunsTheDecodedTransaction : Prop :=
  (∀ (s : State) (t : TxnWord) (rest : List Input), s.status = .active → s.inputs = .bus t :: rest →
    step s = exec (decode t) { s with inputs := rest }) ∧
  (∀ (s : State) (i : Instr) (rest : List Input), s.status = .active → i.wf = true → s.inputs = .bus (encode i) :: rest →
    step s = exec i { s with inputs := rest }) ∧
  (∀ s : State, s.inputs = [] → step s = .next s) ∧
  (∀ (s : State) (op : HostOp) (rest : List Input), s.inputs = .host op :: rest →
    step s = hostCall op { s with inputs := rest }) ∧
  (∀ (s : State) (pc : Addr) (rest : List Input), s.inputs = .cpuReturn pc :: rest →
    step s = .next (cpuReturned pc { s with inputs := rest })) ∧
  (∀ (s : State) (t : TxnWord) (rest : List Input), s.status ≠ .active → s.inputs = .bus t :: rest →
    step s = .fault .noActiveEngine)

/-! ## Bus transactions: all of them -/

/-- Every transaction completes in every state, a read with a byte, a write with none, and touches nothing of the process
around the engine (R39, R40, R52). -/
def Obligations.EveryTransactionCompletes : Prop :=
  ∀ (i : Instr) (s : State), ∃ (e : Engine) (o : Output),
    exec i s = .next { s with eng := e, out := o } ∧ (if i.isWrite then o = .writeDone else ∃ v, o = .readData v)

/-- No transaction writes the shim, the vectors, the flat buffer, the ROM mode, the header, the file, `initialised` or the
sink (R12, R17, R18, R19, R24, R26, R47). -/
def Obligations.TransactionsKeepTheConfiguration : Prop :=
  ∀ (i : Instr) (s t : State), exec i s = .next t →
    t.eng.shim = s.eng.shim ∧ t.eng.intVecs = s.eng.intVecs ∧ t.eng.flat = s.eng.flat ∧ t.eng.romMode = s.eng.romMode ∧
    t.eng.header = s.eng.header ∧ t.eng.file = s.eng.file ∧ t.eng.initialised = s.eng.initialised ∧
    t.eng.sink = s.eng.sink

/-- A faulted engine answers every read with 0 and ignores every write; no state or event changes (R97, D37). -/
def Obligations.FaultedEngineIgnoresTransactions : Prop :=
  ∀ (i : Instr) (s : State), s.eng.fault.isSome = true →
    exec i s = .next { s with out := if i.isWrite then .writeDone else .readData 0#8 }

/-- On a sound live engine a read at any address answers the byte the bus shows there, raises no fault, and leaves every
byte of the bus space as it was (R33, R41). -/
def Obligations.ReadsAnswerTheBusByte : Prop :=
  ∀ (s : State) (a : Addr) (d : Byte), s.eng.CacheInv → s.eng.fault = none →
    ∃ e, exec (decode (packTxn false a d)) s = .next { s with eng := e, out := .readData (s.eng.busByte a) } ∧
      e.fault = none ∧ ∀ b : Addr, e.busByte b = s.eng.busByte b

/-- A write stores its datum at the address `storeAddr` computes and nowhere else: every other byte of the bus space
reads as before, but for the ROM windows after a bank-register write. The discarded writes store nothing (R33). -/
def Obligations.WritesReachOnlyTheirAddress : Prop :=
  ∀ (i : Instr) (s t : State), s.eng.MemWf → s.eng.fault = none → exec i s = .next t →
    (∀ a : Addr, storeAddr i = some a → t.eng.busByte a = i.datum) ∧
    (∀ b : Addr, storeAddr i ≠ some b → ¬(i.cls = .WR_BANKREG ∧ romWindowAddr b) → t.eng.busByte b = s.eng.busByte b)

/-- R41: on a sound live engine (its memories in canonical form, R82) repeating a transaction at once leaves the same engine,
history included, for every class but RD_ROM on an unmapped window and WR_APU, each of which appends its one event
again. -/
def Obligations.RepeatedTransactionsAreIdempotent : Prop :=
  ∀ (i : Instr) (s t u : State), s.eng.MemWf → s.eng.CacheInv → s.eng.fault = none → exec i s = .next t → exec i t = .next u →
    match i with
    | .rdRom k off =>
      if s.eng.win[k] = .unmapped then
        u.eng = { t.eng with events := t.eng.events ++ [.diag (.unmappedRomRead (romAddr k off))] }
      else u.eng = t.eng
    | .wrApu n v => u.eng = { t.eng with events := t.eng.events ++ [.apuWrite (apuAddr n) v] }
    | _ => u.eng = t.eng

/-- No transaction reads the event history, and it only grows: the new events and all else are the same whatever the
history was (R27, R96). -/
def Obligations.EventHistoryOnlyGrows : Prop :=
  ∀ (i : Instr) (s t : State), exec i s = .next t →
    ∃ new : List Event, t.eng.events = s.eng.events ++ new ∧
      ∀ evs : List Event, exec i { s with eng := { s.eng with events := evs } } =
        .next { t with eng := { t.eng with events := evs ++ new } }

/-- The sink is called once for a WR_APU on a live engine, with the bus address and the byte, and for nothing else (R68, R69,
R93). So no word makes it hear `$4016`, which decodes to WR_APU_STROBE; at the ill-formed term `wrApu 0x16`, which no word
encodes, `exec` has the effect of the class WR_APU (the model's choice, log 15). A call is the event of it, appended even
with no sink registered, which R93 excludes (the model's choice, log 19). -/
def Obligations.SinkHearsExactlyTheApuWrites : Prop :=
  ∀ (i : Instr) (s t : State), exec i s = .next t →
    sinkCalls t.eng.events = sinkCalls s.eng.events ++
      (match i with
       | .wrApu n v => if s.eng.fault = none then [(BitVec.ofNat 16 (0x4000 + n.val), v)] else []
       | _ => [])

/-! ## Bus reads -/

/-- R59: the row, the byte held, the corner cases: `$0800` is not RAM, every byte reads 0 after the reset steps, and a byte
written is read back. -/
def Obligations.ReadRamReturnsItsByte : Prop :=
  rowsRdRam.map (fun r => (r.matchBits, r.maskBits)) = [(0x0000000, 0x1F80000)] ∧
  (∀ (n : Fin 0x800) (d : Byte), decode (packTxn false (BitVec.ofNat 16 n.val) d) = .rdRam n) ∧
  (∀ (n : Fin 0x800) (s : State), exec (.rdRam n) s =
    .next { s with out := .readData (if s.eng.fault = none then s.eng.ram.read n.val else 0#8) }) ∧
  (∀ d : Byte, decode (packTxn false 0x0800 d) = .rdOpen 0x0800) ∧
  (∀ (song region : Byte) (sink : Nat) (e : Engine) (j : Nat), 0x8000 ≤ e.header.loadAddress.toNat →
    (e.initSteps song region sink).ram.read j = 0#8) ∧
  (∀ (n : Fin 0x800) (v : Byte) (s : State), s.eng.MemWf → s.eng.fault = none →
    ∃ t : State, exec (.wrRam n v) s = .next t ∧ exec (.rdRam n) t = .next { t with out := .readData v } ∧
      exec (.rdOpen 0x0800) t = .next { t with out := .readData 0#8 })

/-- R60: the row, the byte held, the corner cases: `$1080` is not the shim, the reset steps build the shim from `$A9` and the
song, with 0 past the image, and a write does not reach it. -/
def Obligations.ReadShimReturnsItsByte : Prop :=
  rowsRdShim.map (fun r => (r.matchBits, r.maskBits)) = [(0x0100000, 0x1FF8000)] ∧
  (∀ (n : Fin 0x80) (d : Byte), decode (packTxn false (BitVec.ofNat 16 (0x1000 + n.val)) d) = .rdShim n) ∧
  (∀ (n : Fin 0x80) (s : State), exec (.rdShim n) s =
    .next { s with out := .readData (if s.eng.fault = none then s.eng.shim.read n.val else 0#8) }) ∧
  (∀ d : Byte, decode (packTxn false 0x1080 d) = .rdOpen 0x1080) ∧
  (∀ (song region : Byte) (sink : Nat) (e : Engine) (j : Nat), 0x8000 ≤ e.header.loadAddress.toNat →
    (e.initSteps song region sink).shim.read 0 = 0xA9#8 ∧ (e.initSteps song region sink).shim.read 1 = song ∧
      (0x11 ≤ j → (e.initSteps song region sink).shim.read j = 0#8)) ∧
  (∀ (n : Fin 0x80) (v : Byte) (s : State), exec (.wrShim n v) s = .next { s with out := .writeDone })

/-- R61: the rows, the byte held, the corner cases: the last byte written is read, `$4015` and the unforwarded `$4016`
included; `$4017` reads 0x40 after the reset steps; `$4018` is not an APU register. -/
def Obligations.ReadApuReturnsTheShadow : Prop :=
  rowsRdApu.map (fun r => (r.matchBits, r.maskBits)) = [(0x0400000, 0x1FFF000), (0x0401000, 0x1FFF800)] ∧
  (∀ (n : Fin 0x18) (d : Byte), decode (packTxn false (BitVec.ofNat 16 (0x4000 + n.val)) d) = .rdApu n) ∧
  (∀ (n : Fin 0x18) (s : State), exec (.rdApu n) s =
    .next { s with out := .readData (if s.eng.fault = none then s.eng.apuRegs[n] else 0#8) }) ∧
  (∀ d : Byte, decode (packTxn false 0x4018 d) = .rdOpen 0x4018) ∧
  (∀ (song region : Byte) (sink : Nat) (e : Engine), 0x8000 ≤ e.header.loadAddress.toNat →
    (e.initSteps song region sink).apuRegs[0x17] = 0x40#8) ∧
  (∀ (n : Fin 0x18) (v : Byte) (s : State), s.eng.fault = none →
    ∃ t : State, exec (decode (packTxn true (BitVec.ofNat 16 (0x4000 + n.val)) v)) s = .next t ∧
      exec (.rdApu n) t = .next { t with out := .readData v })

/-- R62: the row, the byte held, the corner cases: the value stored by the last WR_BANKREG, 0 after the reset steps in either
mode; `$5FF7` and `$6000` are not bank registers. -/
def Obligations.ReadBankRegisterReturnsItsValue : Prop :=
  rowsRdBankreg.map (fun r => (r.matchBits, r.maskBits)) = [(0x05FF800, 0x1FFF800)] ∧
  (∀ (k : Fin 8) (d : Byte), decode (packTxn false (BitVec.ofNat 16 (0x5FF8 + k.val)) d) = .rdBankreg k) ∧
  (∀ (k : Fin 8) (s : State), exec (.rdBankreg k) s =
    .next { s with out := .readData (if s.eng.fault = none then s.eng.bankRegs[k] else 0#8) }) ∧
  (∀ d : Byte, decode (packTxn false 0x5FF7 d) = .rdOpen 0x5FF7 ∧ decode (packTxn false 0x6000 d) = .rdOpen 0x6000) ∧
  (∀ (song region : Byte) (sink : Nat) (e : Engine) (k : Fin 8), 0x8000 ≤ e.header.loadAddress.toNat →
    (e.initSteps song region sink).bankRegs[k] = 0#8) ∧
  (∀ (k : Fin 8) (v : Byte) (s t : State), s.eng.fault = none → exec (.wrBankreg k v) s = .next t → t.eng.fault = none →
    exec (.rdBankreg k) t = .next { t with out := .readData v })

/-- R63: the three targets of the window, with the two `InternalError` paths; the bounds of the range; and, in a sound
engine, no fault, the window's bank at the head of `lru`, no change if it was there, and 0 in the padding of bank 0. -/
def Obligations.ReadRomGoesThroughTheWindow : Prop :=
  (∀ (n : Fin 0x7FFA) (d : Byte), decode (packTxn false (BitVec.ofNat 16 (0x8000 + n.val)) d) =
    .rdRom (Fin.ofNat 8 (n.val / 0x1000)) (Fin.ofNat 0x1000 n.val)) ∧
  (∀ (k : Fin 8) (off : Fin 0x1000) (s : State) (i : Fin 10) (l : Vector (Option Byte) 10), s.eng.fault = none →
    s.eng.win[k] = .cache i → s.eng.slotLoaded[i] = true → lruTouch s.eng.slotBankId[i] s.eng.lru = some l →
    exec (.rdRom k off) s =
      .next { s with eng := { s.eng with lru := l }, out := .readData (s.eng.cache[i].read off.val) }) ∧
  (∀ (k : Fin 8) (off : Fin 0x1000) (s : State) (i : Fin 10), s.eng.fault = none →
    s.eng.win[k] = .cache i → s.eng.slotLoaded[i] = true → lruTouch s.eng.slotBankId[i] s.eng.lru = none →
    exec (.rdRom k off) s =
      .next { s with
        eng := { s.eng with fault := some ⟨.internalError, .lruFull s.eng.slotBankId[i]⟩ }, out := .readData 0#8 }) ∧
  (∀ (k : Fin 8) (off : Fin 0x1000) (s : State) (i : Fin 10), s.eng.fault = none →
    s.eng.win[k] = .cache i → s.eng.slotLoaded[i] = false →
    exec (.rdRom k off) s =
      .next { s with
        eng := { s.eng with fault := some ⟨.internalError, .windowUnloaded k i⟩ }, out := .readData 0#8 }) ∧
  (∀ (k : Fin 8) (off : Fin 0x1000) (s : State) (m : Memory), s.eng.fault = none →
    s.eng.win[k] = .flat → s.eng.flat = some m →
    exec (.rdRom k off) s = .next { s with out := .readData (m.read (0x1000 * k.val + off.val)) }) ∧
  (∀ (k : Fin 8) (off : Fin 0x1000) (s : State), s.eng.fault = none → s.eng.win[k] = .unmapped →
    exec (.rdRom k off) s =
      .next { s with
        eng := { s.eng with events := s.eng.events ++
          [.diag (.unmappedRomRead (BitVec.ofNat 16 (0x8000 + 0x1000 * k.val + off.val)))] }
        out := .readData 0#8 }) ∧
  (∀ d : Byte, decode (packTxn false 0x7FFF d) = .rdOpen 0x7FFF ∧ decode (packTxn false 0xFFFA d) = .rdVec 0) ∧
  rowsRdRom.length = 13 ∧
  (∀ (k : Fin 8) (off : Fin 0x1000) (s : State) (i : Fin 10), s.eng.Inv → s.eng.fault = none → s.eng.win[k] = .cache i →
    s.eng.winBank[k] = s.eng.slotBankId[i] ∧
    (s.eng.slotBankId[i] = 0#8 → off.val < (s.eng.header.loadAddress &&& 0x0FFF).toNat →
      s.eng.cache[i].read off.val = 0#8) ∧
    ∃ l : Vector (Option Byte) 10, l[0] = some s.eng.slotBankId[i] ∧
      (s.eng.lru[0] = some s.eng.slotBankId[i] → l = s.eng.lru) ∧
      exec (.rdRom k off) s =
        .next { s with eng := { s.eng with lru := l }, out := .readData (s.eng.cache[i].read off.val) })

/-- On a sound live engine RD_ROM completes with no fault; through a `Cache` window the bank shown is then the head of
`lru` and only `lru` has changed (R63, R82 item 5). -/
def Obligations.ReadRomTouchesTheBank : Prop :=
  ∀ (k : Fin 8) (off : Fin 0x1000) (s : State), s.eng.CacheInv → s.eng.fault = none →
    ∃ (l : Vector (Option Byte) 10) (evs : List Event),
      exec (.rdRom k off) s =
        .next { s with eng := { s.eng with lru := l, events := evs }, out := .readData (s.eng.romByte k off) } ∧
      (∀ i : Fin 10, s.eng.win[k] = .cache i → l[0] = some s.eng.slotBankId[i] ∧ evs = s.eng.events) ∧
      (s.eng.win[k] = .flat → l = s.eng.lru ∧ evs = s.eng.events) ∧
      (s.eng.win[k] = .unmapped → l = s.eng.lru)

/-- R64: the rows, the vector bytes whatever window 7 shows, with the reset vector `$1000` after the reset steps and the two
open parameters, low byte first. -/
def Obligations.ReadVectorReturnsItsByte : Prop :=
  rowsRdVec.map (fun r => (r.matchBits, r.maskBits)) = [(0x0FFFA00, 0x1FFFE00), (0x0FFFC00, 0x1FFFC00)] ∧
  (∀ (n : Fin 6) (d : Byte), decode (packTxn false (BitVec.ofNat 16 (0xFFFA + n.val)) d) = .rdVec n) ∧
  (∀ (n : Fin 6) (s : State), exec (.rdVec n) s =
    .next { s with out := .readData (if s.eng.fault = none then s.eng.intVecs[n] else 0#8) }) ∧
  (∀ (song region : Byte) (sink : Nat) (e : Engine), 0x8000 ≤ e.header.loadAddress.toNat →
    (e.initSteps song region sink).intVecs =
      #v[loByte Config.vecNmi, hiByte Config.vecNmi, 0x00, 0x10, loByte Config.vecIrq, hiByte Config.vecIrq]) ∧
  (∀ a : Addr, (loByte a).toNat + 256 * (hiByte a).toNat = a.toNat)

/-- R65: an unmapped address reads 0, with no diagnostic. -/
def Obligations.ReadOpenReturnsZero : Prop :=
  (∀ (n : Fin 0x800) (d : Byte), decode (packTxn false (BitVec.ofNat 16 (0x0800 + n.val)) d) =
    .rdOpen (BitVec.ofNat 16 (0x0800 + n.val))) ∧
  (∀ (n : Fin 0x2F80) (d : Byte), decode (packTxn false (BitVec.ofNat 16 (0x1080 + n.val)) d) =
    .rdOpen (BitVec.ofNat 16 (0x1080 + n.val))) ∧
  (∀ (n : Fin 0x1FE0) (d : Byte), decode (packTxn false (BitVec.ofNat 16 (0x4018 + n.val)) d) =
    .rdOpen (BitVec.ofNat 16 (0x4018 + n.val))) ∧
  (∀ (n : Fin 0x2000) (d : Byte), decode (packTxn false (BitVec.ofNat 16 (0x6000 + n.val)) d) =
    .rdOpen (BitVec.ofNat 16 (0x6000 + n.val))) ∧
  (∀ (a : Addr) (s : State), exec (.rdOpen a) s = .next { s with out := .readData 0#8 })

/-! ## Bus writes -/

/-- R66: the row; the byte is stored as written, every other byte stays, nothing else changes; the next read returns it;
`$0800` is not RAM. -/
def Obligations.WriteRamStoresTheByte : Prop :=
  rowsWrRam.map (fun r => (r.matchBits, r.maskBits)) = [(0x1000000, 0x1F80000)] ∧
  (∀ (n : Fin 0x800) (v : Byte), decode (packTxn true (BitVec.ofNat 16 n.val) v) = .wrRam n v) ∧
  (∀ v : Byte, decode (packTxn true 0x0800 v) = .wrOpen 0x0800 v) ∧
  (∀ (n : Fin 0x800) (v : Byte) (s : State), s.eng.MemWf → s.eng.fault = none →
    ∃ m : Memory, exec (.wrRam n v) s = .next { s with eng := { s.eng with ram := m }, out := .writeDone } ∧
      (∀ j : Nat, m.read j = if j = n.val then v else s.eng.ram.read j) ∧ Memory.wf 0x800 m = true) ∧
  (∀ (n : Fin 0x800) (v : Byte) (s t : State), s.eng.MemWf → s.eng.fault = none → exec (.wrRam n v) s = .next t →
    exec (.rdRam n) t = .next { t with out := .readData v })

/-- R67, R71, R72, R73: the writes that are discarded: no state, no event, no touch. -/
def Obligations.ReadOnlyWritesAreDiscarded : Prop :=
  rowsWrShim.map (fun r => (r.matchBits, r.maskBits)) = [(0x1100000, 0x1FF8000)] ∧
  rowsWrVec.map (fun r => (r.matchBits, r.maskBits)) = [(0x1FFFA00, 0x1FFFE00), (0x1FFFC00, 0x1FFFC00)] ∧
  rowsWrRom.length = 13 ∧
  (∀ (n : Fin 0x80) (v : Byte), decode (packTxn true (BitVec.ofNat 16 (0x1000 + n.val)) v) = .wrShim n v) ∧
  (∀ (n : Fin 0x80) (v : Byte) (s : State), exec (.wrShim n v) s = .next { s with out := .writeDone }) ∧
  (∀ (n : Fin 0x7FFA) (v : Byte), decode (packTxn true (BitVec.ofNat 16 (0x8000 + n.val)) v) =
    .wrRom (Fin.ofNat 8 (n.val / 0x1000)) (Fin.ofNat 0x1000 n.val) v) ∧
  (∀ (k : Fin 8) (off : Fin 0x1000) (v : Byte) (s : State), exec (.wrRom k off v) s = .next { s with out := .writeDone }) ∧
  (∀ (n : Fin 6) (v : Byte), decode (packTxn true (BitVec.ofNat 16 (0xFFFA + n.val)) v) = .wrVec n v) ∧
  (∀ (n : Fin 6) (v : Byte) (s : State), exec (.wrVec n v) s = .next { s with out := .writeDone }) ∧
  (∀ (n : Fin 0x800) (v : Byte), decode (packTxn true (BitVec.ofNat 16 (0x0800 + n.val)) v) =
    .wrOpen (BitVec.ofNat 16 (0x0800 + n.val)) v) ∧
  (∀ (n : Fin 0x2F80) (v : Byte), decode (packTxn true (BitVec.ofNat 16 (0x1080 + n.val)) v) =
    .wrOpen (BitVec.ofNat 16 (0x1080 + n.val)) v) ∧
  (∀ (n : Fin 0x1FE0) (v : Byte), decode (packTxn true (BitVec.ofNat 16 (0x4018 + n.val)) v) =
    .wrOpen (BitVec.ofNat 16 (0x4018 + n.val)) v) ∧
  (∀ (n : Fin 0x2000) (v : Byte), decode (packTxn true (BitVec.ofNat 16 (0x6000 + n.val)) v) =
    .wrOpen (BitVec.ofNat 16 (0x6000 + n.val)) v) ∧
  (∀ (a : Addr) (v : Byte) (s : State), exec (.wrOpen a v) s = .next { s with out := .writeDone })

/-- R68: the rows; the shadow takes the byte and the sink is called once with the bus address and the byte, even where the byte was
there already; nothing else changes. -/
def Obligations.WriteApuShadowsAndForwards : Prop :=
  rowsWrApu.map (fun r => (r.matchBits, r.maskBits)) =
    [(0x1400000, 0x1FFF000), (0x1401000, 0x1FFFC00), (0x1401400, 0x1FFFE00), (0x1401700, 0x1FFFF00)] ∧
  (∀ (n : Fin 0x18) (v : Byte), n.val ≠ 0x16 →
    decode (packTxn true (BitVec.ofNat 16 (0x4000 + n.val)) v) = .wrApu n v) ∧
  (∀ (n : Fin 0x18) (v : Byte) (s : State), s.eng.fault = none →
    exec (.wrApu n v) s = .next { s with
      eng := { s.eng with
        apuRegs := s.eng.apuRegs.set n v
        events := s.eng.events ++ [.apuWrite (BitVec.ofNat 16 (0x4000 + n.val)) v] }
      out := .writeDone })

/-- R69: the row; `$4016` is shadowed, not forwarded, and read back. -/
def Obligations.WriteStrobeShadowsOnly : Prop :=
  rowsWrApuStrobe.map (fun r => (r.matchBits, r.maskBits)) = [(0x1401600, 0x1FFFF00)] ∧
  (∀ v : Byte, decode (packTxn true 0x4016 v) = .wrApuStrobe v) ∧
  (∀ (v : Byte) (s : State), s.eng.fault = none →
    exec (.wrApuStrobe v) s =
      .next { s with eng := { s.eng with apuRegs := s.eng.apuRegs.set 0x16 v }, out := .writeDone }) ∧
  (∀ (v : Byte) (s t : State), s.eng.fault = none → exec (.wrApuStrobe v) s = .next t →
    exec (.rdApu 0x16) t = .next { t with out := .readData v })

/-- R70: the row; a value equal to the register's does nothing at all; another is stored before the bank is loaded, in any
mode, and the register keeps it however the load ends; a write repeated at once does nothing; nor does a first write of 0
after the reset steps. -/
def Obligations.WriteBankRegisterLoadsOnChange : Prop :=
  rowsWrBankreg.map (fun r => (r.matchBits, r.maskBits)) = [(0x15FF800, 0x1FFF800)] ∧
  (∀ (k : Fin 8) (v : Byte), decode (packTxn true (BitVec.ofNat 16 (0x5FF8 + k.val)) v) = .wrBankreg k v) ∧
  (∀ (k : Fin 8) (v : Byte) (s : State), s.eng.fault = none → v = s.eng.bankRegs[k] →
    exec (.wrBankreg k v) s = .next { s with out := .writeDone }) ∧
  (∀ (k : Fin 8) (v : Byte) (s : State), s.eng.fault = none → v ≠ s.eng.bankRegs[k] →
    exec (.wrBankreg k v) s = .next { s with
      eng := Engine.loadBank k.val v { s.eng with bankRegs := s.eng.bankRegs.set k v }, out := .writeDone } ∧
    (Engine.loadBank k.val v { s.eng with bankRegs := s.eng.bankRegs.set k v }).bankRegs = s.eng.bankRegs.set k v) ∧
  (∀ (k : Fin 8) (v : Byte) (s t : State), exec (.wrBankreg k v) s = .next t → exec (.wrBankreg k v) t = .next t) ∧
  (∀ (song region : Byte) (sink : Nat) (e : Engine) (k : Fin 8) (s : State), 0x8000 ≤ e.header.loadAddress.toNat →
    s.eng = e.initSteps song region sink → exec (.wrBankreg k 0#8) s = .next { s with out := .writeDone })

/-- A bank switch completes: where the value differs and the bank is resident or its file read does not fail, the window
shows a slot with the bank, at the head of `lru`, with one `BankLoad` event: a hit on the slot that held it, whose bytes stay,
or a fill. Every other slot stays as it was; every other window stays, or showed that slot before its bank was evicted and is
unmapped; everything outside the cache, the windows and P_IO is as it was but for the register (R70, R74, R75, R77, R80). -/
def Obligations.BankSwitchCompletes : Prop :=
  ∀ (k : Fin 8) (v : Byte) (s : State), s.eng.CacheInv → s.eng.fault = none → v ≠ s.eng.bankRegs[k] →
    ((∃ i : Fin 10, s.eng.slotLoaded[i] = true ∧ s.eng.slotBankId[i] = v) ∨ s.eng.ioFail.headD false = false) →
    ∃ (e : Engine) (i : Fin 10),
      exec (.wrBankreg k v) s = .next { s with eng := e, out := .writeDone } ∧
      e.fault = none ∧ e.CacheInv ∧ e.bankRegs = s.eng.bankRegs.set k v ∧
      e.win[k] = .cache i ∧ e.winBank[k] = v ∧ e.slotLoaded[i] = true ∧ e.slotBankId[i] = v ∧ e.lru[0] = some v ∧
      (∃ o : LoadOutcome, loadOutcomes e.events = loadOutcomes s.eng.events ++ [o] ∧
        ((o = .hit i ∧ s.eng.slotLoaded[i] = true ∧ s.eng.slotBankId[i] = v ∧ e.cache = s.eng.cache) ∨
          (o = .fill i ∧ ∀ j : Fin 10, s.eng.slotLoaded[j] = true → s.eng.slotBankId[j] ≠ v))) ∧
      (∀ j : Fin 10, j ≠ i → e.slotLoaded[j] = s.eng.slotLoaded[j] ∧ e.slotBankId[j] = s.eng.slotBankId[j] ∧
        e.cache[j] = s.eng.cache[j]) ∧
      (∀ j : Fin 8, j ≠ k → (e.win[j] = s.eng.win[j] ∧ e.winBank[j] = s.eng.winBank[j]) ∨
        (s.eng.win[j] = .cache i ∧ e.win[j] = .unmapped ∧ e.winBank[j] = 0#8)) ∧
      e.ram = s.eng.ram ∧ e.apuRegs = s.eng.apuRegs ∧ e.shim = s.eng.shim ∧ e.intVecs = s.eng.intVecs ∧
      e.flat = s.eng.flat ∧ e.romMode = s.eng.romMode ∧ e.header = s.eng.header ∧ e.file = s.eng.file ∧
      e.initialised = s.eng.initialised ∧ e.sink = s.eng.sink

/-- A bank-register write whose file read fails (R70, R79, R97; spec/95_test_vectors.md VX1): the register keeps the new
value, an eviction has happened, the victim slot is zeroed and not loaded, the event precedes the fault, and the write
returns. -/
def Obligations.FailedBankReadIsAFault : Prop :=
  ∀ (k : Fin 8) (v : Byte) (s : State), s.eng.CacheInv → s.eng.fault = none → v ≠ s.eng.bankRegs[k] →
    (∀ i : Fin 10, s.eng.slotLoaded[i] = true → s.eng.slotBankId[i] ≠ v) → s.eng.ioFail.headD false = true →
    ∃ (e : Engine) (w : Fin 10), s.eng.chooseVictim = .ok e w ∧ e.slotLoaded[w] = false ∧
      exec (.wrBankreg k v) s = .next { s with
        eng := { e with
          bankRegs := s.eng.bankRegs.set k v
          cache := s.eng.cache.set w []
          ioFail := s.eng.ioFail.tail
          events := s.eng.events ++ [.bankLoad k.val v (.fault .ioError)]
          fault := some ⟨.ioError, .bankRead v⟩ }
        out := .writeDone }

/-! ## The bank cache -/

/-- R75: the hit path, whole. `b` is in `lru`, so the touch moves it to the head; the same call again leaves all state equal
but for a second event (R84). -/
def Obligations.LoadBankHitShowsTheSlot : Prop :=
  ∀ (e : Engine) (r : Fin 8) (b : Byte) (i : Fin 10), e.CacheInv → e.slotLoaded[i] = true → e.slotBankId[i] = b →
    ∃ l : Vector (Option Byte) 10, lruTouch b e.lru = some l ∧ l[0] = some b ∧
      e.loadBank r.val b = { e with
        win := e.win.set r (.cache i)
        winBank := e.winBank.set r b
        lru := l
        events := e.events ++ [.bankLoad r.val b (.hit i)] } ∧
      (e.loadBank r.val b).loadBank r.val b =
        { (e.loadBank r.val b) with events := (e.loadBank r.val b).events ++ [.bankLoad r.val b (.hit i)] }

/-- R76: the lowest free slot; else the slot of the tail's bank, evicted; the two `InternalError` paths. -/
def Obligations.VictimIsLowestFreeOrTail : Prop :=
  (∀ (e : Engine) (v : Fin 10), e.slotLoaded[v] = false → (∀ i : Fin 10, i < v → e.slotLoaded[i] = true) →
    e.chooseVictim = .ok e v) ∧
  (∀ e : Engine, (∀ i : Fin 10, e.slotLoaded[i] = true) → e.lru[9] = none →
    e.chooseVictim = .raise e .internalError .lruTailEmpty) ∧
  (∀ (e : Engine) (b : Byte), (∀ i : Fin 10, e.slotLoaded[i] = true) → e.lru[9] = some b →
    (∀ i : Fin 10, e.slotBankId[i] ≠ b) → e.chooseVictim = .raise e .internalError (.victimNotFound b)) ∧
  (∀ (e : Engine) (b : Byte) (v : Fin 10), (∀ i : Fin 10, e.slotLoaded[i] = true) → e.lru[9] = some b →
    (∀ i : Fin 10, e.slotBankId[i] = b ↔ i = v) → e.chooseVictim = .ok (e.evict v) v)

/-- R77: what eviction does to each array; a `Flat` window is never unmapped, the slot's bytes stay. -/
def Obligations.EvictionUnloadsAndUnmaps : Prop :=
  ∀ (e : Engine) (v : Fin 10),
    e.evict v = { e with
      lru := (e.evict v).lru, slotLoaded := (e.evict v).slotLoaded, slotBankId := (e.evict v).slotBankId
      win := (e.evict v).win, winBank := (e.evict v).winBank } ∧
    (∀ j : Fin 10, (e.evict v).lru[j] = if j = 9 then none else e.lru[j]) ∧
    (∀ i : Fin 10, (e.evict v).slotLoaded[i] = if i = v then false else e.slotLoaded[i]) ∧
    (∀ i : Fin 10, (e.evict v).slotBankId[i] = if i = v then 0#8 else e.slotBankId[i]) ∧
    (∀ k : Fin 8, (e.evict v).win[k] = if e.win[k] = .cache v then .unmapped else e.win[k]) ∧
    (∀ k : Fin 8, (e.evict v).winBank[k] = if e.win[k] = .cache v then 0#8 else e.winBank[k])

/-- R78: where a bank lies, with padding and without, the largest offset (20 bits, R8), and that each bank begins where
the one before it ends. -/
def Obligations.BankLocationLaysOutTheFile : Prop :=
  (∀ load : Addr, bankLocation load 0#8 =
    ⟨0x80, (load &&& 0x0FFF).toNat, 4096 - (load &&& 0x0FFF).toNat⟩) ∧
  (∀ (load : Addr) (b : Byte), b ≠ 0#8 → bankLocation load b =
    ⟨0x80 + (4096 - (load &&& 0x0FFF).toNat) + 4096 * (b.toNat - 1), 0, 4096⟩) ∧
  (∀ (load : Addr) (b : Byte), load &&& 0x0FFF = 0 → (bankLocation load b).offset = 0x80 + 4096 * b.toNat) ∧
  (∀ (load : Addr) (b : Byte), (bankLocation load b).offset ≤ 0xFF080) ∧
  (∀ (load : Addr) (b : Byte), b.toNat < 255 →
    (bankLocation load (b + 1)).offset = (bankLocation load b).offset + (bankLocation load b).len) ∧
  bankLocation 0x8123 0 = ⟨0x80, 0x123, 0xEDD⟩ ∧ bankLocation 0x8123 1 = ⟨0xF5D, 0, 0x1000⟩ ∧
  bankLocation 0x8123 2 = ⟨0x1F5D, 0, 0x1000⟩

/-- R79: the slot after a fill, byte by byte; a short read is a diagnostic; a failed read raises `IoError` with the slot
zeroed, and the `load_bank` around it ends there: the slot not loaded, an eviction done, the windows as the eviction left
them. That P_IO's answers are the list `ioFail` and that a read drops its head is the model's choice (log 4). -/
def Obligations.FillReadsTheBank : Prop :=
  (∀ (e : Engine) (v : Fin 10) (b : Byte), e.ioFail.headD false = true →
    e.fill v b = .raise { e with cache := e.cache.set v [], ioFail := e.ioFail.tail } .ioError (.bankRead b)) ∧
  (∀ (e : Engine) (v : Fin 10) (b : Byte), e.ioFail.headD false = false →
    ∃ m : Memory,
      e.fill v b = .ok { e with
        cache := e.cache.set v m
        ioFail := e.ioFail.tail
        events := e.events ++
          (if e.file.length < (bankLocation e.header.loadAddress b).offset + (bankLocation e.header.loadAddress b).len then
            [.diag (.shortRomRead (.bank b) (e.file.length - (bankLocation e.header.loadAddress b).offset)
              (bankLocation e.header.loadAddress b).len)]
          else []) } () ∧
      ∀ off : Nat, m.read off =
        if (bankLocation e.header.loadAddress b).inBank ≤ off ∧
            off < (bankLocation e.header.loadAddress b).inBank + (bankLocation e.header.loadAddress b).len then
          e.file.getD ((bankLocation e.header.loadAddress b).offset + (off - (bankLocation e.header.loadAddress b).inBank)) 0#8
        else 0#8) ∧
  (∀ (e e1 : Engine) (r : Fin 8) (b : Byte) (v : Fin 10),
    (∀ i : Fin 10, e.slotLoaded[i] = true → e.slotBankId[i] ≠ b) → e.chooseVictim = .ok e1 v →
    e.ioFail.headD false = true →
    e1.slotLoaded[v] = false ∧
    e.loadBank r.val b = { e1 with
      cache := e.cache.set v []
      ioFail := e.ioFail.tail
      events := e.events ++ [.bankLoad r.val b (.fault .ioError)]
      fault := some ⟨.ioError, .bankRead b⟩ })

/-- R80, with the victim and the fill before it (R74): the miss path, whole. The bank is inserted at the head of `lru`,
whose last entry is then empty. -/
def Obligations.LoadBankMissInstallsTheVictim : Prop :=
  ∀ (e e1 e2 : Engine) (r : Fin 8) (b : Byte) (v : Fin 10), e.CacheInv →
    (∀ i : Fin 10, e.slotLoaded[i] = true → e.slotBankId[i] ≠ b) →
    e.chooseVictim = .ok e1 v → e1.fill v b = .ok e2 () →
    e2.lru[9] = none ∧
    e.loadBank r.val b = { e2 with
      slotLoaded := e2.slotLoaded.set v true
      slotBankId := e2.slotBankId.set v b
      win := e2.win.set r (.cache v)
      winBank := e2.winBank.set r b
      lru := lruShift 9 b e2.lru
      events := e2.events ++ [.bankLoad r.val b (.fill v)] }

/-- R81: the four cases of the touch, entry by entry, the fault on a full list, and §8 P3: a touch preserves the multiset of
resident bank ids, a move permuting the entries and an insertion replacing the empty last one by the new bank. -/
def Obligations.LruTouchMovesToTheFront : Prop :=
  (∀ (b : Byte) (l : Vector (Option Byte) 10), l[0] = some b → lruTouch b l = some l) ∧
  (∀ (b : Byte) (l : Vector (Option Byte) 10) (j : Fin 10), l[j] = some b → (∀ t : Fin 10, t < j → l[t] ≠ some b) →
    ∃ l', lruTouch b l = some l' ∧ l'[0] = some b ∧ (∀ t : Fin 10, t ≠ 0 → t ≤ j → l'[t] = l[t.val - 1]) ∧
      (∀ t : Fin 10, j < t → l'[t] = l[t])) ∧
  (∀ (b : Byte) (l : Vector (Option Byte) 10), (∀ t : Fin 10, l[t] ≠ some b) → l[9] = none →
    ∃ l', lruTouch b l = some l' ∧ l'[0] = some b ∧ (∀ t : Fin 10, t ≠ 0 → l'[t] = l[t.val - 1])) ∧
  (∀ (b : Byte) (l : Vector (Option Byte) 10), (∀ t : Fin 10, l[t] ≠ some b) → l[9] ≠ none → lruTouch b l = none) ∧
  (∀ (b : Byte) (e : Engine), e.touch b =
    match lruTouch b e.lru with
    | some l => .ok { e with lru := l } ()
    | none => .raise e .internalError (.lruFull b)) ∧
  (∀ (b : Byte) (l l' : Vector (Option Byte) 10), lruTouch b l = some l' →
    ((∃ t : Fin 10, l[t] = some b) → l'.toList.Perm l.toList) ∧
    ((∀ t : Fin 10, l[t] ≠ some b) → l[9] = none ∧ (l'.toList ++ [none]).Perm (some b :: l.toList)))

/-- R83: what RD_ROM returns through a window on a loaded slot is the file's byte at the place `BankLocation` gives, 0
outside that place and past the end of the file. -/
def Obligations.RomReadsShowTheFile : Prop :=
  ∀ (s : State) (k : Fin 8) (off : Fin 0x1000) (i : Fin 10), s.eng.Inv → s.eng.fault = none →
    s.eng.win[k] = .cache i →
    ∃ (e : Engine) (v : Byte), exec (.rdRom k off) s = .next { s with eng := e, out := .readData v } ∧ v =
      if (bankLocation s.eng.header.loadAddress s.eng.slotBankId[i]).inBank ≤ off.val ∧
          off.val < (bankLocation s.eng.header.loadAddress s.eng.slotBankId[i]).inBank +
            (bankLocation s.eng.header.loadAddress s.eng.slotBankId[i]).len then
        s.eng.file.getD ((bankLocation s.eng.header.loadAddress s.eng.slotBankId[i]).offset +
          (off.val - (bankLocation s.eng.header.loadAddress s.eng.slotBankId[i]).inBank)) 0#8
      else 0#8

/-- R84: eleven distinct banks loaded in sequence into an empty cache, with no reads between: the first ten fill the slots
in order, the eleventh evicts the first one loaded and takes its slot, and `lru` holds the last ten, latest first. -/
def Obligations.EleventhBankEvictsTheFirst : Prop :=
  ∀ (e : Engine) (loads : List (Fin 8 × Byte)), e.CacheInv → (∀ i : Fin 10, e.slotLoaded[i] = false) →
    (∀ x ∈ e.ioFail, x = false) → loads.length = 11 → (loads.map (·.2)).Nodup →
    (e.loadAll loads).fault = e.fault ∧
    loadOutcomes (e.loadAll loads).events = loadOutcomes e.events ++
      [.fill 0, .fill 1, .fill 2, .fill 3, .fill 4, .fill 5, .fill 6, .fill 7, .fill 8, .fill 9, .fill 0] ∧
    (∀ b : Byte, (loads.map (·.2)).head? = some b → (e.loadAll loads).slotHolding b = none) ∧
    (∀ b ∈ (loads.map (·.2)).tail, ((e.loadAll loads).slotHolding b).isSome = true) ∧
    (e.loadAll loads).lru.toList = ((loads.map (·.2)).tail.reverse).map some

/-! ## The whole machine -/

/-- Every step keeps the invariant: R82 and R83 on every engine, the canonical form of every memory, no `InternalError`
(D23), the reset vector, and the life cycle of R106, R113 and R114. -/
def Obligations.EveryStepKeepsTheInvariant : Prop :=
  ∀ s t : State, s.Inv → step s = .next t → t.Inv

/-- R97, R99: no step clears or changes a recorded fault. The current engine keeps it, unless the host closes that engine or
opens another where it is no longer active; an `open` after a failed `playback_init` keeps the faulted engine whole, as the
current one if the `open` fails and in `failed` if it succeeds (R114; log 8); an engine in `failed` stays there whole until
the host closes it. -/
def Obligations.FaultsAreSticky : Prop :=
  (∀ (s t : State) (r : FaultRecord), s.eng.fault = some r → step s = .next t →
    (∀ rest, s.inputs ≠ .host (.close .current) :: rest) →
    (∀ file io rest, s.inputs = .host (.openFile file io) :: rest → s.status = .active) →
    t.eng.fault = some r) ∧
  (∀ (s t : State) (file : List Byte) (io : List Bool) (rest : List Input), s.status = .detached →
    s.inputs = .host (.openFile file io) :: rest → step s = .next t → t.eng = s.eng ∨ s.eng ∈ t.failed) ∧
  (∀ (s t : State) (e : Engine), e ∈ s.failed → step s = .next t →
    (∀ (k : Nat) (rest : List Input), s.inputs = .host (.close (.failed k)) :: rest → s.failed[k]? ≠ some e) →
    e ∈ t.failed)

/-- Whole-machine rule on `initialised` (R26, R106): it becomes true only when the CPU run of `playback_init` reaches `$1007` on
an engine without a fault. -/
def Obligations.OnlyTheInitRunInitialises : Prop :=
  ∀ s t : State, s.eng.initialised = false → step s = .next t → t.eng.initialised = true →
    s.run = .initRun ∧ s.eng.fault = none ∧ ∃ rest, s.inputs = .cpuReturn 0x1007 :: rest

/-! ## Hazards -/

/-- R116: right after a bank-register write that changes the register and loads its bank, a read in that window sees the
new bank. -/
def Obligations.BankSwitchIsSeenByTheNextRead : Prop :=
  ∀ (s : State) (k : Fin 8) (v : Byte) (off : Fin 0x1000), s.eng.Inv → s.eng.fault = none → v ≠ s.eng.bankRegs[k] →
    ((∃ i : Fin 10, s.eng.slotLoaded[i] = true ∧ s.eng.slotBankId[i] = v) ∨ s.eng.ioFail.headD false = false) →
    ∃ t u : State, exec (.wrBankreg k v) s = .next t ∧ exec (.rdRom k off) t = .next u ∧
      u.out = .readData (bankByte s.eng.file s.eng.header.loadAddress v off.val)

/-- R117: after a banked `playback_init` the registers read 0 while the windows show the initial banks; a first write of 0
does nothing; a write of the initial bank, if not 0, is a hit. -/
def Obligations.BankRegistersHideTheInitialBanks : Prop :=
  ∀ (e : Engine) (song region : Byte) (sink : Nat) (k : Fin 8) (s : State),
    e.header.banked = true → 0x8000 ≤ e.header.loadAddress.toNat → s.eng = e.initSteps song region sink →
    s.eng.fault = none →
    s.eng.winBank[k] = e.header.bankswitch[k] ∧
    (∃ i : Fin 10, s.eng.win[k] = .cache i ∧ s.eng.slotLoaded[i] = true ∧ s.eng.slotBankId[i] = e.header.bankswitch[k]) ∧
    exec (.rdBankreg k) s = .next { s with out := .readData 0#8 } ∧
    exec (.wrBankreg k 0#8) s = .next { s with out := .writeDone } ∧
    (e.header.bankswitch[k] ≠ 0#8 → ∃ (t : State) (i : Fin 10), exec (.wrBankreg k e.header.bankswitch[k]) s = .next t ∧
      t.eng.events = s.eng.events ++ [.bankLoad k.val e.header.bankswitch[k] (.hit i)])

/-- R118: an eviction unmaps every window that shows the slot; an unmapped window reads 0, each read with a diagnostic, and a
write of the register's current value does not map it; no transaction but a bank-register write of another value to that
window's register does. -/
def Obligations.UnmappedWindowsStayUnmapped : Prop :=
  (∀ (e : Engine) (v : Fin 10) (k : Fin 8), e.win[k] = .cache v → (e.evict v).win[k] = .unmapped) ∧
  (∀ (s : State) (k : Fin 8) (off : Fin 0x1000), s.eng.fault = none → s.eng.win[k] = .unmapped →
    exec (.rdRom k off) s = .next { s with
      eng := { s.eng with events := s.eng.events ++ [.diag (.unmappedRomRead (romAddr k off))] }, out := .readData 0#8 }) ∧
  (∀ (s t : State) (i : Instr) (k : Fin 8), s.eng.win[k] = .unmapped → exec i s = .next t →
    (∀ v : Byte, i = .wrBankreg k v → v = s.eng.bankRegs[k]) → t.eng.win[k] = .unmapped)

/-- R120: in any mode a changed bank register replaces the window's `Flat` target by the slot of the bank of the banked
layout; the other `Flat` windows stay; and no transaction makes a window `Flat` again. -/
def Obligations.BankSwitchReplacesFlat : Prop :=
  (∀ (s : State) (k : Fin 8) (v : Byte), s.eng.Inv → s.eng.fault = none → s.eng.win[k] = .flat → v ≠ s.eng.bankRegs[k] →
    ((∃ i : Fin 10, s.eng.slotLoaded[i] = true ∧ s.eng.slotBankId[i] = v) ∨ s.eng.ioFail.headD false = false) →
    ∃ (t : State) (i : Fin 10), exec (.wrBankreg k v) s = .next t ∧ t.eng.win[k] = .cache i ∧
      (∀ off : Fin 0x1000, t.eng.cache[i].read off.val = bankByte s.eng.file s.eng.header.loadAddress v off.val) ∧
      (∀ j : Fin 8, j ≠ k → s.eng.win[j] = .flat → t.eng.win[j] = .flat)) ∧
  (∀ (i : Instr) (s t : State) (k : Fin 8), exec i s = .next t → t.eng.win[k] = .flat → s.eng.win[k] = .flat)

/-! ## Host operations -/

/-- `read_header` (R58, R87): `IoError`, `ShortHeader`, `BadMagic` in this order, else the header of the first 128 bytes with
the diagnostic of reserved bits; no state of the block is written. The fields lie at the offsets of R58, 16-bit fields
little-endian; the starting song is 0-based where its byte is not 0; the text fields end in a NUL. -/
def Obligations.ReadHeaderParsesTheFields : Prop :=
  (∀ (file : List Byte) (io : List Bool) (s : State), s.run = .idle →
    ∃ r : HostResult, hostCall (.readHeader file io) s = .next { s with out := .hostReturn r } ∧ r =
      if io.headD false = true then .err .ioError
      else if file.length < 128 then .err .shortHeader
      else if file.take 5 ≠ [0x4E, 0x45, 0x53, 0x4D, 0x1A] then .err .badMagic
      else .header (parseHeader (file.take 128))
        (if file.getD 122 0#8 &&& 0xFC#8 ≠ 0#8 ∨ file.getD 123 0#8 &&& 0xC0#8 ≠ 0#8 then
          [.reservedHeaderBits (file.getD 122 0#8) (file.getD 123 0#8)] else [])) ∧
  (∀ h : List Byte, h.length = 128 →
    (parseHeader h).version = h.getD 5 0#8 ∧ (parseHeader h).totalSongs = h.getD 6 0#8 ∧
    (h.getD 7 0#8 ≠ 0#8 → (parseHeader h).startingSong = h.getD 7 0#8 - 1) ∧
    (parseHeader h).loadAddress.toNat = (h.getD 8 0#8).toNat + 256 * (h.getD 9 0#8).toNat ∧
    (parseHeader h).initAddress.toNat = (h.getD 10 0#8).toNat + 256 * (h.getD 11 0#8).toNat ∧
    (parseHeader h).playAddress.toNat = (h.getD 12 0#8).toNat + 256 * (h.getD 13 0#8).toNat ∧
    (parseHeader h).name = (h.drop 14).take 31 ++ [0#8] ∧ (parseHeader h).name.length = 32 ∧
    (parseHeader h).artist = (h.drop 46).take 31 ++ [0#8] ∧ (parseHeader h).artist.length = 32 ∧
    (parseHeader h).copyright = (h.drop 78).take 31 ++ [0#8] ∧ (parseHeader h).copyright.length = 32 ∧
    (parseHeader h).speedNtsc.toNat = (h.getD 110 0#8).toNat + 256 * (h.getD 111 0#8).toNat ∧
    (∀ k : Fin 8, (parseHeader h).bankswitch[k] = h.getD (112 + k.val) 0#8) ∧
    (parseHeader h).speedPal.toNat = (h.getD 120 0#8).toNat + 256 * (h.getD 121 0#8).toNat ∧
    (parseHeader h).regionFlags = h.getD 122 0#8 ∧ (parseHeader h).extraChips = h.getD 123 0#8 ∧
    (parseHeader h).reserved = h.drop 124)

/-- R88: `AlreadyOpen` before the file is read; the errors of `read_header`, on which nothing changes; else a new active
engine at its "at open" values with its header and first event. -/
def Obligations.OpenCreatesTheEngine : Prop :=
  (∀ (file : List Byte) (io : List Bool) (s : State), s.run = .idle → s.status = .active →
    hostCall (.openFile file io) s = .next { s with out := .hostReturn (.err .alreadyOpen) }) ∧
  (∀ (file : List Byte) (io : List Bool) (s : State) (kind : ErrorKind), s.run = .idle → s.status ≠ .active →
    (readHeader file io).2 = .error kind →
    hostCall (.openFile file io) s = .next { s with out := .hostReturn (.err kind) }) ∧
  (∀ (file : List Byte) (io : List Bool) (s : State) (h : Header) (diags : List Diag), s.run = .idle → s.status ≠ .active →
    (readHeader file io).2 = .ok (h, diags) →
    ∃ t : State, hostCall (.openFile file io) s = .next t ∧ t.status = .active ∧ t.out = .hostReturn .ok ∧
      t.run = .idle ∧ t.cpuPc = s.cpuPc ∧ t.inputs = s.inputs ∧
      t.failed = s.failed ++ (if s.status = .detached then [s.eng] else []) ∧
      t.eng = { State.reset.eng with header := h, file := file, ioFail := io.tail, events := diags.map .diag })

/-- `playback_init` up to its CPU run (R107, R108, R114): the recorded fault, on an engine that a later `open` replaced too
(R97, D42; log 8); a fault of the reset steps, after which the engine is no longer active and waits for its `close`; else the
run begins. A low load address is found before any state is written. -/
def Obligations.PlaybackInitRunsTheResetSteps : Prop :=
  (∀ (s : State) (k : Nat) (e : Engine) (song region : Byte) (sink : Nat) (r : FaultRecord), s.run = .idle →
    s.failed[k]? = some e → e.fault = some r →
    hostCall (.playbackInit (.failed k) song region sink) s = .next { s with out := .hostReturn (.err r.kind) }) ∧
  (∀ (s : State) (song region : Byte) (sink : Nat) (r : FaultRecord), s.run = .idle → s.status ≠ .absent →
    s.eng.fault = some r →
    hostCall (.playbackInit .current song region sink) s = .next { s with out := .hostReturn (.err r.kind) }) ∧
  (∀ (s : State) (song region : Byte) (sink : Nat), s.run = .idle → s.status ≠ .absent → s.eng.fault = none →
    s.eng.header.loadAddress.toNat < 0x8000 →
    hostCall (.playbackInit .current song region sink) s = .next { s with
      eng := { s.eng with
        fault := some ⟨.badLoadAddress, .loadAddress s.eng.header.loadAddress⟩, initialised := false }
      status := .detached, out := .hostReturn (.err .badLoadAddress) }) ∧
  (∀ (s : State) (song region : Byte) (sink : Nat) (r : FaultRecord), s.run = .idle → s.status ≠ .absent →
    s.eng.fault = none → (s.eng.initSteps song region sink).fault = some r →
    hostCall (.playbackInit .current song region sink) s = .next { s with
      eng := { (s.eng.initSteps song region sink) with initialised := false }
      status := .detached, out := .hostReturn (.err r.kind) }) ∧
  (∀ (s : State) (song region : Byte) (sink : Nat), s.run = .idle → s.status ≠ .absent →
    s.eng.fault = none → (s.eng.initSteps song region sink).fault = none →
    hostCall (.playbackInit .current song region sink) s = .next { s with
      eng := s.eng.initSteps song region sink, run := .initRun, out := .nothing })

/-- The CPU run of `playback_init` (R113, R114): a fault ends it with its kind, the engine no longer active and not
initialised, all else as it is, so that a new `open` may follow; `$1007` ends it with Ok and makes the engine initialised;
else it goes on. That a fault is looked for after `cpu.reset()` too is the model's reading (log 11). -/
def Obligations.InitRunEndsAtTheIdleLoop : Prop :=
  (∀ (s : State) (pc : Addr) (r : FaultRecord), s.run = .initRun → s.eng.fault = some r →
    cpuReturned pc s = { s with
      eng := { s.eng with initialised := false }
      status := .detached, run := .idle, cpuPc := pc, out := .hostReturn (.err r.kind) }) ∧
  (∀ s : State, s.run = .initRun → s.eng.fault = none →
    cpuReturned 0x1007 s = { s with
      eng := { s.eng with initialised := true }, run := .idle, cpuPc := 0x1007, out := .hostReturn .ok }) ∧
  (∀ (s : State) (pc : Addr), s.run = .initRun → s.eng.fault = none → pc ≠ 0x1007 →
    cpuReturned pc s = { s with cpuPc := pc, out := .nothing }) ∧
  (∀ (s : State) (pc : Addr) (r : FaultRecord) (file : List Byte) (io : List Bool) (hd : Header × List Diag),
    s.run = .initRun → s.eng.fault = some r → (readHeader file io).2 = .ok hd →
    ∃ t : State, hostCall (.openFile file io) (cpuReturned pc s) = .next t ∧ t.status = .active ∧ t.out = .hostReturn .ok)

/-- R109: the stores common to both modes, and that nothing else changes: no event, no cache or window state. -/
def Obligations.InitCommonResetsTheRegions : Prop :=
  ∀ (e : Engine) (song region : Byte) (sink : Nat),
    e.initCommon song region sink = { e with
      initialised := false, sink := some sink
      ram := (e.initCommon song region sink).ram, shim := (e.initCommon song region sink).shim
      apuRegs := (e.initCommon song region sink).apuRegs, bankRegs := (e.initCommon song region sink).bankRegs
      intVecs := #v[loByte Config.vecNmi, hiByte Config.vecNmi, 0x00, 0x10, loByte Config.vecIrq, hiByte Config.vecIrq] } ∧
    (∀ j : Nat, (e.initCommon song region sink).ram.read j = 0#8) ∧
    (∀ n : Fin 0x18, (e.initCommon song region sink).apuRegs[n] = if n = 0x17 then 0x40#8 else 0#8) ∧
    (∀ k : Fin 8, (e.initCommon song region sink).bankRegs[k] = 0#8) ∧
    (∀ j : Nat, (e.initCommon song region sink).shim.read j =
      [0xA9#8, song, 0xA2#8, region, 0x20#8, loByte e.header.initAddress, hiByte e.header.initAddress,
        0x20#8, loByte e.header.playAddress, hiByte e.header.playAddress, 0x4C#8, 0x07#8, 0x10#8,
        0xEA#8, 0xEA#8, 0xEA#8, 0xEA#8].getD j 0#8)

/-- R110, R111 and the banked column of R31: with some initial bank not 0 and no failing read, the reset steps end in
banked mode with every window on its initial bank, `lru` the distinct banks by their last load, latest first, no flat
buffer and no fault. -/
def Obligations.BankedInitLoadsTheWindows : Prop :=
  ∀ (e : Engine) (song region : Byte) (sink : Nat), (∃ k : Fin 8, e.header.bankswitch[k] ≠ 0#8) →
    0x8000 ≤ e.header.loadAddress.toNat → e.fault = none → (∀ x ∈ e.ioFail, x = false) →
    (e.initSteps song region sink).fault = none ∧
    (e.initSteps song region sink).romMode = .banked ∧
    (e.initSteps song region sink).flat = none ∧
    (e.initSteps song region sink).initialised = false ∧
    (e.initSteps song region sink).ContentInv ∧
    (∀ k : Fin 8, (e.initSteps song region sink).winBank[k] = e.header.bankswitch[k] ∧
      ∃ i : Fin 10, (e.initSteps song region sink).win[k] = .cache i ∧
        (e.initSteps song region sink).slotLoaded[i] = true ∧
        (e.initSteps song region sink).slotBankId[i] = e.header.bankswitch[k]) ∧
    (e.initSteps song region sink).lru.toList =
      (recency e.header.bankswitch.toList).map some ++
        List.replicate (10 - (recency e.header.bankswitch.toList).length) none

/-- R110, R112: with all initial banks 0, the flat buffer holds the body from the load address on and 0 elsewhere, its
last byte 0, every window is `Flat`, the cache is kept; a failing read raises `IoError` before the windows change. That
P_IO's answers are the list `ioFail` and that the read drops its head is the model's choice (log 4). -/
def Obligations.ContiguousInitFillsTheFlatBuffer : Prop :=
  (∀ (e : Engine) (song region : Byte) (sink : Nat), (∀ k : Fin 8, e.header.bankswitch[k] = 0#8) →
    0x8000 ≤ e.header.loadAddress.toNat → e.ioFail.headD false = false →
    ∃ m : Memory,
      e.initSteps song region sink = { (e.initCommon song region sink) with
        flat := some m
        ioFail := e.ioFail.tail
        win := Vector.replicate 8 .flat
        winBank := Vector.replicate 8 0#8
        romMode := .contiguous
        events := e.events ++
          (if e.file.length - 0x80 < 0xFFFF - e.header.loadAddress.toNat then
            [.diag (.shortRomRead .contig (e.file.length - 0x80) (0xFFFF - e.header.loadAddress.toNat))] else []) } ∧
      (∀ j : Nat, m.read j =
        if e.header.loadAddress.toNat - 0x8000 ≤ j ∧ j < 0x7FFF then
          e.file.getD (0x80 + (j - (e.header.loadAddress.toNat - 0x8000))) 0#8
        else 0#8)) ∧
  (∀ (e : Engine) (song region : Byte) (sink : Nat), (∀ k : Fin 8, e.header.bankswitch[k] = 0#8) →
    0x8000 ≤ e.header.loadAddress.toNat → e.ioFail.headD false = true →
    e.initSteps song region sink = { (e.initCommon song region sink) with
      flat := some [], ioFail := e.ioFail.tail, fault := some ⟨.ioError, .contigRead⟩ })

/-- `playback_frame` (R90, with the order of R98): the recorded fault, on an engine that a later `open` replaced too (R97, D42;
log 8), then `InvalidState` for an engine that is not
initialised or a pc off the idle loop, each leaving all state unchanged; else a run of at least one CPU step, which ends
with the kind of a fault, with Ok at `$1007`, and otherwise goes on. -/
def Obligations.FrameRunsToTheIdleLoop : Prop :=
  (∀ (s : State) (k : Nat) (e : Engine) (r : FaultRecord), s.run = .idle → s.failed[k]? = some e → e.fault = some r →
    hostCall (.playbackFrame (.failed k)) s = .next { s with out := .hostReturn (.err r.kind) }) ∧
  (∀ (s : State) (r : FaultRecord), s.run = .idle → s.status ≠ .absent → s.eng.fault = some r →
    hostCall (.playbackFrame .current) s = .next { s with out := .hostReturn (.err r.kind) }) ∧
  (∀ s : State, s.run = .idle → s.status ≠ .absent → s.eng.fault = none →
    s.eng.initialised = false ∨ s.cpuPc ≠ 0x1007 →
    hostCall (.playbackFrame .current) s = .next { s with out := .hostReturn (.err .invalidState) }) ∧
  (∀ s : State, s.run = .idle → s.status ≠ .absent → s.eng.fault = none → s.eng.initialised = true → s.cpuPc = 0x1007 →
    hostCall (.playbackFrame .current) s = .next { s with run := .frameRun, out := .nothing }) ∧
  (∀ (s : State) (pc : Addr) (r : FaultRecord), s.run = .frameRun → s.eng.fault = some r →
    cpuReturned pc s = { s with run := .idle, cpuPc := pc, out := .hostReturn (.err r.kind) }) ∧
  (∀ s : State, s.run = .frameRun → s.eng.fault = none →
    cpuReturned 0x1007 s = { s with run := .idle, cpuPc := 0x1007, out := .hostReturn .ok }) ∧
  (∀ (s : State) (pc : Addr), s.run = .frameRun → s.eng.fault = none → pc ≠ 0x1007 →
    cpuReturned pc s = { s with cpuPc := pc, out := .nothing })

/-- R89 and R91: `get_header` and `log_header` write nothing; `close` disposes of the engine and clears `active_engine`; all
three succeed on an engine in any state, a faulted one too, and on one that `open` replaced, without touching the current
one. -/
def Obligations.HeaderCallsAndCloseAlwaysSucceed : Prop :=
  (∀ s : State, s.run = .idle → s.status ≠ .absent →
    hostCall (.getHeader .current) s = .next { s with out := .hostReturn (.header s.eng.header []) } ∧
    hostCall (.logHeader .current) s = .next { s with out := .hostReturn .ok }) ∧
  (∀ (s : State) (k : Nat) (e : Engine), s.run = .idle → s.failed[k]? = some e →
    hostCall (.getHeader (.failed k)) s = .next { s with out := .hostReturn (.header e.header []) } ∧
    hostCall (.logHeader (.failed k)) s = .next { s with out := .hostReturn .ok }) ∧
  (∀ s : State, s.run = .idle → s.status ≠ .absent →
    hostCall (.close .current) s =
      .next { s with eng := State.reset.eng, status := .absent, out := .hostReturn .ok }) ∧
  (∀ (s : State) (k : Nat), s.run = .idle → k < s.failed.length →
    hostCall (.close (.failed k)) s = .next { s with failed := s.failed.eraseIdx k, out := .hostReturn .ok })

/-- The trace lines no bus word encodes (spec/30_encoding.md section 3): `LOADBANK` is a direct `load_bank`, with a register
out of range checked first (D32), `INIT` the reset steps without the CPU run; `SWITCH` is a bank-register write. What the
first two return is the model's reading (log 12). -/
def Obligations.TraceLinesRunTheirOperation : Prop :=
  (∀ (s : State) (r : Nat) (b : Byte), s.run = .idle → s.status ≠ .absent → s.eng.fault = none →
    (s.eng.loadBank r b).fault = none →
    hostCall (.traceLoadBank r b) s = .next { s with eng := s.eng.loadBank r b, out := .hostReturn .ok }) ∧
  (∀ (s : State) (r : Nat) (b : Byte) (f : FaultRecord), s.run = .idle → s.status ≠ .absent → s.eng.fault = none →
    (s.eng.loadBank r b).fault = some f →
    hostCall (.traceLoadBank r b) s = .next { s with eng := s.eng.loadBank r b, out := .hostReturn (.err f.kind) }) ∧
  (∀ (s : State) (r : Nat) (b : Byte), s.run = .idle → s.status ≠ .absent → s.eng.fault = none → 8 ≤ r →
    hostCall (.traceLoadBank r b) s = .next { s with
      eng := { s.eng with
        events := s.eng.events ++ [.bankLoad r b (.fault .invalidArg)]
        fault := some ⟨.invalidArg, .badRegister r⟩ }
      out := .hostReturn (.err .invalidArg) }) ∧
  (∀ (s : State) (song region : Byte) (sink : Nat), s.run = .idle → s.status ≠ .absent → s.eng.fault = none →
    (s.eng.initSteps song region sink).fault = none →
    hostCall (.traceInit song region sink) s =
      .next { s with eng := s.eng.initSteps song region sink, out := .hostReturn .ok }) ∧
  (∀ (k : Fin 8) (v : Byte), ∃ t : TxnWord, (TraceLine.switch k v).inputs = [.bus t] ∧ decode t = .wrBankreg k v)

/-- The values of the reading lines (spec/30_encoding.md section 3, R38): `RD` gives the byte of the bus, `RDW` the
little-endian word `lo | (hi << 8)` of two reads, neither changes what the bus shows, and a stated result is compared with
the one given; at `$FFFC` it is the reset vector `$1000`. That `RDW $FFFF` reads `$0000` next is the model's choice (log 14). -/
def Obligations.TraceReadsGiveTheirValue : Prop :=
  (∀ (s : State) (a : Addr) (x : Option Byte), s.status = .active → s.eng.CacheInv → s.eng.fault = none →
    ∃ t : State, runLine (.rd a x) s = .next (.out (.readData (s.eng.busByte a)), t) ∧ t.status = .active ∧
      t.eng.fault = none ∧ (∀ b : Addr, t.eng.busByte b = s.eng.busByte b) ∧
      ((TraceLine.rd a x).met (.out (.readData (s.eng.busByte a))) = true ↔ ∀ v ∈ x, v = s.eng.busByte a)) ∧
  (∀ (s : State) (a : Addr) (x : Option Addr), s.status = .active → s.eng.CacheInv → s.eng.fault = none →
    ∃ (t : State) (w : Addr), runLine (.rdw a x) s = .next (.word w, t) ∧
      w.toNat = (s.eng.busByte a).toNat + 256 * (s.eng.busByte (a + 1)).toNat ∧ t.status = .active ∧
      t.eng.fault = none ∧ (∀ b : Addr, t.eng.busByte b = s.eng.busByte b) ∧
      ((TraceLine.rdw a x).met (.word w) = true ↔ ∀ v ∈ x, v = w)) ∧
  (∀ (s : State) (x : Option Addr), s.status = .active → s.eng.Inv → s.eng.fault = none →
    ∃ t : State, runLine (.rdw 0xFFFC x) s = .next (.word 0x1000, t))

/-- A `FRAME` line is one `playback_frame`, from its call to its return (R55, R90). Where the call fails, nothing else runs.
Else the steps that P_CPU takes, the last of them reaching `$1007`, run until the frame ends, with the kind of a fault or Ok,
and none after that; with no fault and no earlier `$1007` all of their transactions have run. So FRAME lines follow one
another, each finding the one before it ended. That the line carries the steps of P_CPU is the model's choice (log 23). -/
def Obligations.FrameLineRunsOneFrame : Prop :=
  (∀ (s : State) (cpu : List CpuStep), s.run = .idle → s.status ≠ .absent →
    s.eng.fault ≠ none ∨ s.eng.initialised = false ∨ s.cpuPc ≠ 0x1007 →
    runLine (.frame cpu) s =
      .next (.out (.hostReturn (.err (match s.eng.fault with | some r => r.kind | none => .invalidState))),
        { s with out := .hostReturn (.err (match s.eng.fault with | some r => r.kind | none => .invalidState)) })) ∧
  (∀ (s : State) (pre : List CpuStep) (c : CpuStep), s.run = .idle → s.status = .active → s.eng.fault = none →
    s.eng.initialised = true → s.cpuPc = 0x1007 → c.pc = 0x1007 →
    ∃ t : State, runLine (.frame (pre ++ [c])) s =
        .next (.out (.hostReturn (match t.eng.fault with | some r => .err r.kind | none => .ok)), t) ∧
      t.run = .idle ∧ t.status = .active ∧ t.eng.initialised = true ∧ t.inputs = s.inputs ∧
      (t.eng.fault = none → t.cpuPc = 0x1007) ∧
      (t.eng.fault = none → (∀ d ∈ pre, d.pc ≠ 0x1007) →
        ∃ os : List Output, inOrder giveInput (TraceLine.frame (pre ++ [c])).inputs s = .next (os, t))) ∧
  (∀ (s : State) (frames : List (List CpuStep)), s.run = .idle → s.status = .active →
    (∀ cpu ∈ frames, ∃ c, cpu.getLast? = some c ∧ c.pc = 0x1007) →
    ∃ (rs : List LineResult) (t : State), runTrace (frames.map .frame) s = .next (rs, t) ∧ t.run = .idle ∧
      t.status = .active ∧ rs.length = frames.length ∧ ∀ r ∈ rs, ∃ h : HostResult, r = .out (.hostReturn h))
end

