-- ==== Sys2Proof/Laws/Memory.lean ====
section
/-! SUPPORT. The laws of `Memory`: reading after writing, the canonical form is kept, and what a buffer written from a
list of bytes holds. -/

namespace Sys2Proof.Machine

@[simp] theorem Memory.read_nil (a : Nat) : Memory.read [] a = 0#8 := rfl

theorem Memory.read_cons (b : Nat) (v : Byte) (m : Memory) (a : Nat) :
    Memory.read ((b, v) :: m) a = if a = b then v else Memory.read m a := rfl

/-- Below the lowest index a rising memory reads 0. -/
theorem Memory.read_of_lt {lo : Nat} {m : Memory} (h : Memory.wfFrom lo m = true) {a : Nat} (ha : a < lo) :
    m.read a = 0#8 := by
  induction m generalizing lo with
  | nil => rfl
  | cons c m ih =>
    obtain ⟨b, v⟩ := c
    simp only [Memory.wfFrom, Bool.and_eq_true, decide_eq_true_eq] at h
    rw [Memory.read_cons, if_neg (by omega)]
    exact ih h.2 (by omega)

theorem Memory.wfFrom_mono {lo lo' : Nat} {m : Memory} (h : Memory.wfFrom lo m = true) (hl : lo' ≤ lo) :
    Memory.wfFrom lo' m = true := by
  cases m with
  | nil => rfl
  | cons c m =>
    obtain ⟨b, v⟩ := c
    simp only [Memory.wfFrom, Bool.and_eq_true, decide_eq_true_eq] at h ⊢
    exact ⟨⟨by omega, h.1.2⟩, h.2⟩

/-- A write is read back, and every other byte is left alone. -/
theorem Memory.read_write {lo : Nat} {m : Memory} (h : Memory.wfFrom lo m = true) (a : Nat) (v : Byte) (x : Nat) :
    (m.write a v).read x = if x = a then v else m.read x := by
  induction m generalizing lo with
  | nil =>
    by_cases hv : v = 0#8 <;> simp [Memory.write, Memory.read, hv]
  | cons c m ih =>
    obtain ⟨b, w⟩ := c
    have h' := h
    simp only [Memory.wfFrom, Bool.and_eq_true, decide_eq_true_eq] at h
    have hb : ∀ y, y < b → Memory.read ((b, w) :: m) y = 0#8 := fun y hy =>
      Memory.read_of_lt (lo := b) (by simpa [Memory.wfFrom, h.2] using h.1.2) hy
    have hm : ∀ y, y ≤ b → Memory.read m y = 0#8 := fun y hy => Memory.read_of_lt h.2 (by omega)
    unfold Memory.write
    by_cases h1 : a < b
    · by_cases hv : v = 0#8
      · rw [if_pos h1, if_pos hv]
        split
        · next hx => subst hx; rw [hv]; exact hb x h1
        · rfl
      · rw [if_pos h1, if_neg hv, Memory.read_cons]
    · rw [if_neg h1]
      by_cases h2 : a = b
      · subst h2
        rw [if_pos rfl]
        by_cases hv : v = 0#8
        · rw [if_pos hv, Memory.read_cons]
          by_cases hx : x = a
          · rw [if_pos hx, hv, hx]; exact hm a (le_refl a)
          · rw [if_neg hx, if_neg hx]
        · rw [if_neg hv, Memory.read_cons, Memory.read_cons]
          by_cases hx : x = a
          · rw [if_pos hx, if_pos hx]
          · rw [if_neg hx, if_neg hx, if_neg hx]
      · rw [if_neg h2, Memory.read_cons, ih h.2, Memory.read_cons]
        by_cases hx : x = b
        · rw [if_pos hx, if_pos hx, if_neg (by omega)]
        · rw [if_neg hx, if_neg hx]

theorem Memory.wfFrom_write {lo : Nat} {m : Memory} (h : Memory.wfFrom lo m = true) {a : Nat} (ha : lo ≤ a) (v : Byte) :
    Memory.wfFrom lo (m.write a v) = true := by
  induction m generalizing lo with
  | nil => by_cases hv : v = 0#8 <;> simp [Memory.write, Memory.wfFrom, hv, ha]
  | cons c m ih =>
    obtain ⟨b, w⟩ := c
    have h0 := h
    simp only [Memory.wfFrom, Bool.and_eq_true, decide_eq_true_eq, bne_iff_ne, ne_eq] at h
    unfold Memory.write
    by_cases h1 : a < b
    · by_cases hv : v = 0#8
      · simp [h1, hv, Memory.wfFrom, h.1.1, h.1.2, h.2]
      · simp [h1, hv, Memory.wfFrom, ha, h.1.2, h.2]
    · by_cases h2 : a = b
      · by_cases hv : v = 0#8
        · simp only [if_neg h1, if_pos h2, if_pos hv]
          exact Memory.wfFrom_mono h.2 (by omega)
        · simp only [if_neg h1, if_pos h2, if_neg hv, Memory.wfFrom, Bool.and_eq_true, decide_eq_true_eq, bne_iff_ne]
          exact ⟨⟨ha, hv⟩, by rw [h2]; exact h.2⟩
      · simp only [if_neg h1, if_neg h2, Memory.wfFrom, Bool.and_eq_true, decide_eq_true_eq, bne_iff_ne]
        exact ⟨⟨h.1.1, h.1.2⟩, ih h.2 (by omega)⟩

theorem Memory.below_write {n : Nat} {m : Memory} (h : (m.all fun c => decide (c.1 < n)) = true) {a : Nat} (ha : a < n)
    (v : Byte) : ((m.write a v).all fun c => decide (c.1 < n)) = true := by
  induction m with
  | nil => by_cases hv : v = 0#8 <;> simp [Memory.write, hv, ha]
  | cons c m ih =>
    obtain ⟨b, w⟩ := c
    simp only [List.all_cons, Bool.and_eq_true, decide_eq_true_eq] at h
    unfold Memory.write
    split
    · split <;> simp [h.1, ha] <;> simpa using h.2
    · split
      · split <;> simp [ha] <;> simpa using h.2
      · simp only [List.all_cons, Bool.and_eq_true, decide_eq_true_eq]
        exact ⟨h.1, ih h.2⟩

/-- A write inside the buffer keeps the canonical form. -/
theorem Memory.wf_write {n : Nat} {m : Memory} (h : Memory.wf n m = true) {a : Nat} (ha : a < n) (v : Byte) :
    Memory.wf n (m.write a v) = true := by
  simp only [Memory.wf, Bool.and_eq_true] at h ⊢
  exact ⟨Memory.wfFrom_write h.1 (Nat.zero_le a) v, Memory.below_write h.2 ha v⟩

theorem Memory.wfFrom_of_wf {n : Nat} {m : Memory} (h : Memory.wf n m = true) : Memory.wfFrom 0 m = true := by
  simp only [Memory.wf, Bool.and_eq_true] at h
  exact h.1

@[simp] theorem Memory.wf_nil (n : Nat) : Memory.wf n [] = true := rfl

theorem Memory.wfFrom_ofBytes (base : Nat) (bytes : List Byte) : Memory.wfFrom base (Memory.ofBytes base bytes) = true := by
  induction bytes generalizing base with
  | nil => rfl
  | cons v vs ih =>
    by_cases hv : v = 0#8
    · simp only [Memory.ofBytes, if_pos hv]
      exact Memory.wfFrom_mono (ih (base + 1)) (by omega)
    · simp [Memory.ofBytes, hv, Memory.wfFrom, ih (base + 1)]

/-- What a buffer holds that was zeroed and then written from `base` on. -/
theorem Memory.read_ofBytes (base : Nat) (bytes : List Byte) (x : Nat) :
    (Memory.ofBytes base bytes).read x = if base ≤ x then bytes.getD (x - base) 0#8 else 0#8 := by
  induction bytes generalizing base with
  | nil => simp [Memory.ofBytes]
  | cons v vs ih =>
    have step : (if base + 1 ≤ x then vs.getD (x - (base + 1)) 0#8 else 0#8) =
        if x = base then 0#8 else if base ≤ x then (v :: vs).getD (x - base) 0#8 else 0#8 := by
      by_cases h1 : x = base
      · rw [if_pos h1, if_neg (by omega)]
      · by_cases h2 : base ≤ x
        · have : x - base = (x - (base + 1)) + 1 := by omega
          rw [if_pos (by omega), if_neg h1, if_pos h2, this, List.getD_cons_succ]
        · rw [if_neg (by omega), if_neg h1, if_neg h2]
    by_cases hv : v = 0#8
    · simp only [Memory.ofBytes, if_pos hv]
      rw [ih, step]
      by_cases h1 : x = base
      · subst h1; simp [hv]
      · rw [if_neg h1]
    · simp only [Memory.ofBytes, if_neg hv]
      rw [Memory.read_cons, ih, step]
      by_cases h1 : x = base
      · subst h1; simp
      · rw [if_neg h1, if_neg h1]

theorem Memory.below_ofBytes (base : Nat) (bytes : List Byte) {n : Nat} (h : base + bytes.length ≤ n) :
    ((Memory.ofBytes base bytes).all fun c => decide (c.1 < n)) = true := by
  induction bytes generalizing base with
  | nil => rfl
  | cons v vs ih =>
    simp only [List.length_cons] at h
    by_cases hv : v = 0#8
    · simp only [Memory.ofBytes, if_pos hv]
      exact ih (base + 1) (by omega)
    · simp only [Memory.ofBytes, if_neg hv, List.all_cons, Bool.and_eq_true, decide_eq_true_eq]
      exact ⟨by omega, ih (base + 1) (by omega)⟩

/-- A buffer written from a list of bytes that fits has the canonical form. -/
theorem Memory.wf_ofBytes (base : Nat) (bytes : List Byte) {n : Nat} (h : base + bytes.length ≤ n) :
    Memory.wf n (Memory.ofBytes base bytes) = true := by
  simp only [Memory.wf, Bool.and_eq_true]
  exact ⟨Memory.wfFrom_mono (Memory.wfFrom_ofBytes base bytes) (Nat.zero_le _), Memory.below_ofBytes base bytes h⟩

/-- Two memories in canonical form that read alike are equal. -/
theorem Memory.ext_read {lo : Nat} {m m' : Memory} (h : Memory.wfFrom lo m = true) (h' : Memory.wfFrom lo m' = true)
    (hr : ∀ a, m.read a = m'.read a) : m = m' := by
  induction m generalizing lo m' with
  | nil =>
    cases m' with
    | nil => rfl
    | cons c t =>
      obtain ⟨b, v⟩ := c
      simp only [Memory.wfFrom, Bool.and_eq_true, bne_iff_ne] at h'
      have := hr b
      simp [Memory.read] at this
      exact absurd this.symm h'.1.2
  | cons c t ih =>
    obtain ⟨b, v⟩ := c
    cases m' with
    | nil =>
      simp only [Memory.wfFrom, Bool.and_eq_true, bne_iff_ne] at h
      have := hr b
      simp [Memory.read] at this
      exact absurd this h.1.2
    | cons c' t' =>
      obtain ⟨b', v'⟩ := c'
      simp only [Memory.wfFrom, Bool.and_eq_true, decide_eq_true_eq, bne_iff_ne] at h h'
      have hbb : b = b' := by
        rcases Nat.lt_trichotomy b b' with hlt | heq | hgt
        · have h1 := hr b
          rw [Memory.read_cons, if_pos rfl, Memory.read_cons, if_neg (by omega), Memory.read_of_lt h'.2 (by omega)] at h1
          exact absurd h1 h.1.2
        · exact heq
        · have h1 := hr b'
          rw [Memory.read_cons, if_neg (by omega), Memory.read_of_lt h.2 (by omega), Memory.read_cons, if_pos rfl] at h1
          exact absurd h1.symm h'.1.2
      subst hbb
      have hv : v = v' := by simpa [Memory.read] using hr b
      subst hv
      refine congrArg _ (ih h.2 h'.2 fun a => ?_)
      by_cases hab : a = b
      · subst hab
        rw [Memory.read_of_lt h.2 (by omega), Memory.read_of_lt h'.2 (by omega)]
      · have h1 := hr a
        rwa [Memory.read_cons, if_neg hab, Memory.read_cons, if_neg hab] at h1

end Sys2Proof.Machine
end

