-- ==== Sys2Proof/Laws/State.lean ====
section
/-! SUPPORT. One lemma per field per named update of the state, each true by unfolding the record update. -/

namespace Sys2Proof.Machine

/-! ### e.emit ev -/

@[simp] theorem Engine.emit_ram (ev : Event) (e : Engine) : (e.emit ev).ram = e.ram := rfl
@[simp] theorem Engine.emit_shim (ev : Event) (e : Engine) : (e.emit ev).shim = e.shim := rfl
@[simp] theorem Engine.emit_apuRegs (ev : Event) (e : Engine) : (e.emit ev).apuRegs = e.apuRegs := rfl
@[simp] theorem Engine.emit_bankRegs (ev : Event) (e : Engine) : (e.emit ev).bankRegs = e.bankRegs := rfl
@[simp] theorem Engine.emit_win (ev : Event) (e : Engine) : (e.emit ev).win = e.win := rfl
@[simp] theorem Engine.emit_winBank (ev : Event) (e : Engine) : (e.emit ev).winBank = e.winBank := rfl
@[simp] theorem Engine.emit_intVecs (ev : Event) (e : Engine) : (e.emit ev).intVecs = e.intVecs := rfl
@[simp] theorem Engine.emit_flat (ev : Event) (e : Engine) : (e.emit ev).flat = e.flat := rfl
@[simp] theorem Engine.emit_romMode (ev : Event) (e : Engine) : (e.emit ev).romMode = e.romMode := rfl
@[simp] theorem Engine.emit_cache (ev : Event) (e : Engine) : (e.emit ev).cache = e.cache := rfl
@[simp] theorem Engine.emit_slotBankId (ev : Event) (e : Engine) : (e.emit ev).slotBankId = e.slotBankId := rfl
@[simp] theorem Engine.emit_slotLoaded (ev : Event) (e : Engine) : (e.emit ev).slotLoaded = e.slotLoaded := rfl
@[simp] theorem Engine.emit_lru (ev : Event) (e : Engine) : (e.emit ev).lru = e.lru := rfl
@[simp] theorem Engine.emit_header (ev : Event) (e : Engine) : (e.emit ev).header = e.header := rfl
@[simp] theorem Engine.emit_file (ev : Event) (e : Engine) : (e.emit ev).file = e.file := rfl
@[simp] theorem Engine.emit_ioFail (ev : Event) (e : Engine) : (e.emit ev).ioFail = e.ioFail := rfl
@[simp] theorem Engine.emit_fault (ev : Event) (e : Engine) : (e.emit ev).fault = e.fault := rfl
@[simp] theorem Engine.emit_initialised (ev : Event) (e : Engine) : (e.emit ev).initialised = e.initialised := rfl
@[simp] theorem Engine.emit_sink (ev : Event) (e : Engine) : (e.emit ev).sink = e.sink := rfl
@[simp] theorem Engine.emit_events (ev : Event) (e : Engine) : (e.emit ev).events = e.events ++ [ev] := rfl

/-! ### e.raiseFault kind info -/

@[simp] theorem Engine.raiseFault_ram (kind : ErrorKind) (info : FaultInfo) (e : Engine) : (e.raiseFault kind info).ram = e.ram := rfl
@[simp] theorem Engine.raiseFault_shim (kind : ErrorKind) (info : FaultInfo) (e : Engine) : (e.raiseFault kind info).shim = e.shim := rfl
@[simp] theorem Engine.raiseFault_apuRegs (kind : ErrorKind) (info : FaultInfo) (e : Engine) : (e.raiseFault kind info).apuRegs = e.apuRegs := rfl
@[simp] theorem Engine.raiseFault_bankRegs (kind : ErrorKind) (info : FaultInfo) (e : Engine) : (e.raiseFault kind info).bankRegs = e.bankRegs := rfl
@[simp] theorem Engine.raiseFault_win (kind : ErrorKind) (info : FaultInfo) (e : Engine) : (e.raiseFault kind info).win = e.win := rfl
@[simp] theorem Engine.raiseFault_winBank (kind : ErrorKind) (info : FaultInfo) (e : Engine) : (e.raiseFault kind info).winBank = e.winBank := rfl
@[simp] theorem Engine.raiseFault_intVecs (kind : ErrorKind) (info : FaultInfo) (e : Engine) : (e.raiseFault kind info).intVecs = e.intVecs := rfl
@[simp] theorem Engine.raiseFault_flat (kind : ErrorKind) (info : FaultInfo) (e : Engine) : (e.raiseFault kind info).flat = e.flat := rfl
@[simp] theorem Engine.raiseFault_romMode (kind : ErrorKind) (info : FaultInfo) (e : Engine) : (e.raiseFault kind info).romMode = e.romMode := rfl
@[simp] theorem Engine.raiseFault_cache (kind : ErrorKind) (info : FaultInfo) (e : Engine) : (e.raiseFault kind info).cache = e.cache := rfl
@[simp] theorem Engine.raiseFault_slotBankId (kind : ErrorKind) (info : FaultInfo) (e : Engine) : (e.raiseFault kind info).slotBankId = e.slotBankId := rfl
@[simp] theorem Engine.raiseFault_slotLoaded (kind : ErrorKind) (info : FaultInfo) (e : Engine) : (e.raiseFault kind info).slotLoaded = e.slotLoaded := rfl
@[simp] theorem Engine.raiseFault_lru (kind : ErrorKind) (info : FaultInfo) (e : Engine) : (e.raiseFault kind info).lru = e.lru := rfl
@[simp] theorem Engine.raiseFault_header (kind : ErrorKind) (info : FaultInfo) (e : Engine) : (e.raiseFault kind info).header = e.header := rfl
@[simp] theorem Engine.raiseFault_file (kind : ErrorKind) (info : FaultInfo) (e : Engine) : (e.raiseFault kind info).file = e.file := rfl
@[simp] theorem Engine.raiseFault_ioFail (kind : ErrorKind) (info : FaultInfo) (e : Engine) : (e.raiseFault kind info).ioFail = e.ioFail := rfl
@[simp] theorem Engine.raiseFault_fault (kind : ErrorKind) (info : FaultInfo) (e : Engine) : (e.raiseFault kind info).fault = some ⟨kind, info⟩ := rfl
@[simp] theorem Engine.raiseFault_initialised (kind : ErrorKind) (info : FaultInfo) (e : Engine) : (e.raiseFault kind info).initialised = e.initialised := rfl
@[simp] theorem Engine.raiseFault_sink (kind : ErrorKind) (info : FaultInfo) (e : Engine) : (e.raiseFault kind info).sink = e.sink := rfl
@[simp] theorem Engine.raiseFault_events (kind : ErrorKind) (info : FaultInfo) (e : Engine) : (e.raiseFault kind info).events = e.events := rfl

/-! ### e.setApu n v -/

@[simp] theorem Engine.setApu_ram (n : Fin 0x18) (v : Byte) (e : Engine) : (e.setApu n v).ram = e.ram := rfl
@[simp] theorem Engine.setApu_shim (n : Fin 0x18) (v : Byte) (e : Engine) : (e.setApu n v).shim = e.shim := rfl
@[simp] theorem Engine.setApu_apuRegs (n : Fin 0x18) (v : Byte) (e : Engine) : (e.setApu n v).apuRegs = e.apuRegs.set n v := rfl
@[simp] theorem Engine.setApu_bankRegs (n : Fin 0x18) (v : Byte) (e : Engine) : (e.setApu n v).bankRegs = e.bankRegs := rfl
@[simp] theorem Engine.setApu_win (n : Fin 0x18) (v : Byte) (e : Engine) : (e.setApu n v).win = e.win := rfl
@[simp] theorem Engine.setApu_winBank (n : Fin 0x18) (v : Byte) (e : Engine) : (e.setApu n v).winBank = e.winBank := rfl
@[simp] theorem Engine.setApu_intVecs (n : Fin 0x18) (v : Byte) (e : Engine) : (e.setApu n v).intVecs = e.intVecs := rfl
@[simp] theorem Engine.setApu_flat (n : Fin 0x18) (v : Byte) (e : Engine) : (e.setApu n v).flat = e.flat := rfl
@[simp] theorem Engine.setApu_romMode (n : Fin 0x18) (v : Byte) (e : Engine) : (e.setApu n v).romMode = e.romMode := rfl
@[simp] theorem Engine.setApu_cache (n : Fin 0x18) (v : Byte) (e : Engine) : (e.setApu n v).cache = e.cache := rfl
@[simp] theorem Engine.setApu_slotBankId (n : Fin 0x18) (v : Byte) (e : Engine) : (e.setApu n v).slotBankId = e.slotBankId := rfl
@[simp] theorem Engine.setApu_slotLoaded (n : Fin 0x18) (v : Byte) (e : Engine) : (e.setApu n v).slotLoaded = e.slotLoaded := rfl
@[simp] theorem Engine.setApu_lru (n : Fin 0x18) (v : Byte) (e : Engine) : (e.setApu n v).lru = e.lru := rfl
@[simp] theorem Engine.setApu_header (n : Fin 0x18) (v : Byte) (e : Engine) : (e.setApu n v).header = e.header := rfl
@[simp] theorem Engine.setApu_file (n : Fin 0x18) (v : Byte) (e : Engine) : (e.setApu n v).file = e.file := rfl
@[simp] theorem Engine.setApu_ioFail (n : Fin 0x18) (v : Byte) (e : Engine) : (e.setApu n v).ioFail = e.ioFail := rfl
@[simp] theorem Engine.setApu_fault (n : Fin 0x18) (v : Byte) (e : Engine) : (e.setApu n v).fault = e.fault := rfl
@[simp] theorem Engine.setApu_initialised (n : Fin 0x18) (v : Byte) (e : Engine) : (e.setApu n v).initialised = e.initialised := rfl
@[simp] theorem Engine.setApu_sink (n : Fin 0x18) (v : Byte) (e : Engine) : (e.setApu n v).sink = e.sink := rfl
@[simp] theorem Engine.setApu_events (n : Fin 0x18) (v : Byte) (e : Engine) : (e.setApu n v).events = e.events := rfl

/-! ### e.evict v -/

@[simp] theorem Engine.evict_ram (v : Fin 10) (e : Engine) : (e.evict v).ram = e.ram := rfl
@[simp] theorem Engine.evict_shim (v : Fin 10) (e : Engine) : (e.evict v).shim = e.shim := rfl
@[simp] theorem Engine.evict_apuRegs (v : Fin 10) (e : Engine) : (e.evict v).apuRegs = e.apuRegs := rfl
@[simp] theorem Engine.evict_bankRegs (v : Fin 10) (e : Engine) : (e.evict v).bankRegs = e.bankRegs := rfl
@[simp] theorem Engine.evict_win (v : Fin 10) (e : Engine) : (e.evict v).win = Vector.ofFn fun k : Fin 8 => if e.win[k] = .cache v then .unmapped else e.win[k] := rfl
@[simp] theorem Engine.evict_winBank (v : Fin 10) (e : Engine) : (e.evict v).winBank = Vector.ofFn fun k : Fin 8 => if e.win[k] = .cache v then 0#8 else e.winBank[k] := rfl
@[simp] theorem Engine.evict_intVecs (v : Fin 10) (e : Engine) : (e.evict v).intVecs = e.intVecs := rfl
@[simp] theorem Engine.evict_flat (v : Fin 10) (e : Engine) : (e.evict v).flat = e.flat := rfl
@[simp] theorem Engine.evict_romMode (v : Fin 10) (e : Engine) : (e.evict v).romMode = e.romMode := rfl
@[simp] theorem Engine.evict_cache (v : Fin 10) (e : Engine) : (e.evict v).cache = e.cache := rfl
@[simp] theorem Engine.evict_slotBankId (v : Fin 10) (e : Engine) : (e.evict v).slotBankId = e.slotBankId.set v 0#8 := rfl
@[simp] theorem Engine.evict_slotLoaded (v : Fin 10) (e : Engine) : (e.evict v).slotLoaded = e.slotLoaded.set v false := rfl
@[simp] theorem Engine.evict_lru (v : Fin 10) (e : Engine) : (e.evict v).lru = e.lru.set 9 none := rfl
@[simp] theorem Engine.evict_header (v : Fin 10) (e : Engine) : (e.evict v).header = e.header := rfl
@[simp] theorem Engine.evict_file (v : Fin 10) (e : Engine) : (e.evict v).file = e.file := rfl
@[simp] theorem Engine.evict_ioFail (v : Fin 10) (e : Engine) : (e.evict v).ioFail = e.ioFail := rfl
@[simp] theorem Engine.evict_fault (v : Fin 10) (e : Engine) : (e.evict v).fault = e.fault := rfl
@[simp] theorem Engine.evict_initialised (v : Fin 10) (e : Engine) : (e.evict v).initialised = e.initialised := rfl
@[simp] theorem Engine.evict_sink (v : Fin 10) (e : Engine) : (e.evict v).sink = e.sink := rfl
@[simp] theorem Engine.evict_events (v : Fin 10) (e : Engine) : (e.evict v).events = e.events := rfl

/-! ### e.initCommon song region sink -/

@[simp] theorem Engine.initCommon_ram (song region : Byte) (sink : Nat) (e : Engine) : (e.initCommon song region sink).ram = [] := rfl
@[simp] theorem Engine.initCommon_shim (song region : Byte) (sink : Nat) (e : Engine) : (e.initCommon song region sink).shim = Memory.ofBytes 0 (shimImage song region e.header) := rfl
@[simp] theorem Engine.initCommon_apuRegs (song region : Byte) (sink : Nat) (e : Engine) : (e.initCommon song region sink).apuRegs = (Vector.replicate 0x18 0#8).set 0x17 Config.apu17Reset := rfl
@[simp] theorem Engine.initCommon_bankRegs (song region : Byte) (sink : Nat) (e : Engine) : (e.initCommon song region sink).bankRegs = Vector.replicate 8 0#8 := rfl
@[simp] theorem Engine.initCommon_win (song region : Byte) (sink : Nat) (e : Engine) : (e.initCommon song region sink).win = e.win := rfl
@[simp] theorem Engine.initCommon_winBank (song region : Byte) (sink : Nat) (e : Engine) : (e.initCommon song region sink).winBank = e.winBank := rfl
@[simp] theorem Engine.initCommon_intVecs (song region : Byte) (sink : Nat) (e : Engine) : (e.initCommon song region sink).intVecs = resetVectors := rfl
@[simp] theorem Engine.initCommon_flat (song region : Byte) (sink : Nat) (e : Engine) : (e.initCommon song region sink).flat = e.flat := rfl
@[simp] theorem Engine.initCommon_romMode (song region : Byte) (sink : Nat) (e : Engine) : (e.initCommon song region sink).romMode = e.romMode := rfl
@[simp] theorem Engine.initCommon_cache (song region : Byte) (sink : Nat) (e : Engine) : (e.initCommon song region sink).cache = e.cache := rfl
@[simp] theorem Engine.initCommon_slotBankId (song region : Byte) (sink : Nat) (e : Engine) : (e.initCommon song region sink).slotBankId = e.slotBankId := rfl
@[simp] theorem Engine.initCommon_slotLoaded (song region : Byte) (sink : Nat) (e : Engine) : (e.initCommon song region sink).slotLoaded = e.slotLoaded := rfl
@[simp] theorem Engine.initCommon_lru (song region : Byte) (sink : Nat) (e : Engine) : (e.initCommon song region sink).lru = e.lru := rfl
@[simp] theorem Engine.initCommon_header (song region : Byte) (sink : Nat) (e : Engine) : (e.initCommon song region sink).header = e.header := rfl
@[simp] theorem Engine.initCommon_file (song region : Byte) (sink : Nat) (e : Engine) : (e.initCommon song region sink).file = e.file := rfl
@[simp] theorem Engine.initCommon_ioFail (song region : Byte) (sink : Nat) (e : Engine) : (e.initCommon song region sink).ioFail = e.ioFail := rfl
@[simp] theorem Engine.initCommon_fault (song region : Byte) (sink : Nat) (e : Engine) : (e.initCommon song region sink).fault = e.fault := rfl
@[simp] theorem Engine.initCommon_initialised (song region : Byte) (sink : Nat) (e : Engine) : (e.initCommon song region sink).initialised = false := rfl
@[simp] theorem Engine.initCommon_sink (song region : Byte) (sink : Nat) (e : Engine) : (e.initCommon song region sink).sink = some sink := rfl
@[simp] theorem Engine.initCommon_events (song region : Byte) (sink : Nat) (e : Engine) : (e.initCommon song region sink).events = e.events := rfl

/-! ### e.clearCache -/

@[simp] theorem Engine.clearCache_ram (e : Engine) : (e.clearCache).ram = e.ram := rfl
@[simp] theorem Engine.clearCache_shim (e : Engine) : (e.clearCache).shim = e.shim := rfl
@[simp] theorem Engine.clearCache_apuRegs (e : Engine) : (e.clearCache).apuRegs = e.apuRegs := rfl
@[simp] theorem Engine.clearCache_bankRegs (e : Engine) : (e.clearCache).bankRegs = e.bankRegs := rfl
@[simp] theorem Engine.clearCache_win (e : Engine) : (e.clearCache).win = Vector.replicate 8 .unmapped := rfl
@[simp] theorem Engine.clearCache_winBank (e : Engine) : (e.clearCache).winBank = Vector.replicate 8 0#8 := rfl
@[simp] theorem Engine.clearCache_intVecs (e : Engine) : (e.clearCache).intVecs = e.intVecs := rfl
@[simp] theorem Engine.clearCache_flat (e : Engine) : (e.clearCache).flat = none := rfl
@[simp] theorem Engine.clearCache_romMode (e : Engine) : (e.clearCache).romMode = .banked := rfl
@[simp] theorem Engine.clearCache_cache (e : Engine) : (e.clearCache).cache = Vector.replicate 10 [] := rfl
@[simp] theorem Engine.clearCache_slotBankId (e : Engine) : (e.clearCache).slotBankId = Vector.replicate 10 0#8 := rfl
@[simp] theorem Engine.clearCache_slotLoaded (e : Engine) : (e.clearCache).slotLoaded = Vector.replicate 10 false := rfl
@[simp] theorem Engine.clearCache_lru (e : Engine) : (e.clearCache).lru = Vector.replicate 10 none := rfl
@[simp] theorem Engine.clearCache_header (e : Engine) : (e.clearCache).header = e.header := rfl
@[simp] theorem Engine.clearCache_file (e : Engine) : (e.clearCache).file = e.file := rfl
@[simp] theorem Engine.clearCache_ioFail (e : Engine) : (e.clearCache).ioFail = e.ioFail := rfl
@[simp] theorem Engine.clearCache_fault (e : Engine) : (e.clearCache).fault = e.fault := rfl
@[simp] theorem Engine.clearCache_initialised (e : Engine) : (e.clearCache).initialised = e.initialised := rfl
@[simp] theorem Engine.clearCache_sink (e : Engine) : (e.clearCache).sink = e.sink := rfl
@[simp] theorem Engine.clearCache_events (e : Engine) : (e.clearCache).events = e.events := rfl

/-! ### State.returning and State.failInit -/

@[simp] theorem State.returning_eng (r : HostResult) (s : State) : (s.returning r).eng = s.eng := rfl
@[simp] theorem State.returning_status (r : HostResult) (s : State) : (s.returning r).status = s.status := rfl
@[simp] theorem State.returning_failed (r : HostResult) (s : State) : (s.returning r).failed = s.failed := rfl
@[simp] theorem State.returning_run (r : HostResult) (s : State) : (s.returning r).run = s.run := rfl
@[simp] theorem State.returning_cpuPc (r : HostResult) (s : State) : (s.returning r).cpuPc = s.cpuPc := rfl
@[simp] theorem State.returning_inputs (r : HostResult) (s : State) : (s.returning r).inputs = s.inputs := rfl
@[simp] theorem State.returning_out (r : HostResult) (s : State) : (s.returning r).out = .hostReturn r := rfl

@[simp] theorem State.failInit_eng (kind : ErrorKind) (e : Engine) (s : State) : (s.failInit kind e).eng = { e with initialised := false } := rfl
@[simp] theorem State.failInit_status (kind : ErrorKind) (e : Engine) (s : State) : (s.failInit kind e).status = .detached := rfl
@[simp] theorem State.failInit_failed (kind : ErrorKind) (e : Engine) (s : State) : (s.failInit kind e).failed = s.failed := rfl
@[simp] theorem State.failInit_run (kind : ErrorKind) (e : Engine) (s : State) : (s.failInit kind e).run = .idle := rfl
@[simp] theorem State.failInit_cpuPc (kind : ErrorKind) (e : Engine) (s : State) : (s.failInit kind e).cpuPc = s.cpuPc := rfl
@[simp] theorem State.failInit_inputs (kind : ErrorKind) (e : Engine) (s : State) : (s.failInit kind e).inputs = s.inputs := rfl
@[simp] theorem State.failInit_out (kind : ErrorKind) (e : Engine) (s : State) : (s.failInit kind e).out = .hostReturn (.err kind) := rfl

/-! ### Fault tests -/

@[simp] theorem Engine.faulted_emit (ev : Event) (e : Engine) : (e.emit ev).faulted = e.faulted := rfl
@[simp] theorem Engine.faulted_raiseFault (kind : ErrorKind) (info : FaultInfo) (e : Engine) : (e.raiseFault kind info).faulted = true := rfl
@[simp] theorem Engine.faultKind_emit (ev : Event) (e : Engine) : (e.emit ev).faultKind = e.faultKind := rfl
@[simp] theorem Engine.faultKind_raiseFault (kind : ErrorKind) (info : FaultInfo) (e : Engine) :
    (e.raiseFault kind info).faultKind = some kind := rfl

theorem Engine.faulted_iff (e : Engine) : e.faulted = true ↔ ∃ r, e.fault = some r := by
  simp [Engine.faulted, Option.isSome_iff_exists]

theorem Engine.not_faulted_iff (e : Engine) : e.faulted = false ↔ e.fault = none := by
  simp [Engine.faulted]

theorem Engine.faultKind_eq_none (e : Engine) : e.faultKind = none ↔ e.fault = none := by
  simp [Engine.faultKind]

theorem Engine.faultKind_eq_some (e : Engine) (kind : ErrorKind) :
    e.faultKind = some kind ↔ ∃ info, e.fault = some ⟨kind, info⟩ := by
  constructor
  · intro h
    simp only [Engine.faultKind, Option.map_eq_some_iff] at h
    obtain ⟨⟨k, i⟩, hf, rfl⟩ := h
    exact ⟨i, hf⟩
  · rintro ⟨i, hi⟩
    simp [Engine.faultKind, hi]

end Sys2Proof.Machine
end

