-- ==== Sys2Proof/Laws/Ops.lean ====
section
/-! SUPPORT. What each shared operation of Machine/Ops.lean and Machine/Flags.lean can do, said once. -/

namespace Sys2Proof.Machine

/-! ## Searches over slots and entries -/

theorem mem_slotIxs (i : Fin 10) : i ∈ slotIxs := by
  fin_cases i <;> decide

theorem slotIxs_sorted : slotIxs.Pairwise (· < ·) := by decide

theorem mem_lruTailIxs (j : Fin 10) : j ∈ lruTailIxs ↔ j ≠ 0 := by
  fin_cases j <;> decide

theorem lruTailIxs_sorted : lruTailIxs.Pairwise (· < ·) := by decide

/-- A search in a rising list finds the least index of the list that passes. -/
theorem find_rising {n : Nat} {l : List (Fin n)} (hl : l.Pairwise (· < ·)) {p : Fin n → Bool} {i : Fin n} :
    l.find? p = some i ↔ i ∈ l ∧ p i = true ∧ ∀ t ∈ l, t < i → p t = false := by
  induction l with
  | nil => simp
  | cons a l ih =>
    rw [List.pairwise_cons] at hl
    rw [List.find?_cons]
    by_cases ha : p a = true
    · simp only [ha, Option.some.injEq, List.mem_cons]
      constructor
      · rintro rfl
        refine ⟨Or.inl rfl, ha, fun t ht hlt => ?_⟩
        rcases ht with rfl | ht
        · exact absurd hlt (lt_irrefl _)
        · exact absurd (hl.1 t ht) (by omega)
      · rintro ⟨hi | hi, hp, hmin⟩
        · exact hi.symm
        · exact absurd (hmin a (Or.inl rfl) (hl.1 i hi)) (by simp [ha])
    · simp only [ha, List.mem_cons]
      rw [ih hl.2]
      constructor
      · rintro ⟨hi, hp, hmin⟩
        refine ⟨Or.inr hi, hp, fun t ht hlt => ?_⟩
        rcases ht with rfl | ht
        · simpa using ha
        · exact hmin t ht hlt
      · rintro ⟨hi | hi, hp, hmin⟩
        · subst hi; exact absurd hp ha
        · exact ⟨hi, hp, fun t ht hlt => hmin t (Or.inr ht) hlt⟩

theorem Engine.freeSlot_eq_some (e : Engine) (v : Fin 10) :
    e.freeSlot = some v ↔ e.slotLoaded[v] = false ∧ ∀ i : Fin 10, i < v → e.slotLoaded[i] = true := by
  rw [Engine.freeSlot, find_rising slotIxs_sorted]
  simp [mem_slotIxs]

theorem Engine.freeSlot_eq_none (e : Engine) : e.freeSlot = none ↔ ∀ i : Fin 10, e.slotLoaded[i] = true := by
  simp [Engine.freeSlot, List.find?_eq_none, mem_slotIxs]

theorem Engine.slotHolding_eq_none (e : Engine) (b : Byte) :
    e.slotHolding b = none ↔ ∀ i : Fin 10, e.slotLoaded[i] = true → e.slotBankId[i] ≠ b := by
  simp [Engine.slotHolding, List.find?_eq_none, mem_slotIxs]

theorem Engine.slotHolding_some {e : Engine} {b : Byte} {i : Fin 10} (h : e.slotHolding b = some i) :
    e.slotLoaded[i] = true ∧ e.slotBankId[i] = b := by
  rw [Engine.slotHolding, find_rising slotIxs_sorted] at h
  simpa using h.2.1

theorem Engine.loadedCount_le (e : Engine) : e.loadedCount ≤ 10 :=
  le_trans (List.length_filter_le _ _) (by decide)

theorem Engine.loadedCount_eq_ten (e : Engine) (h : ∀ i : Fin 10, e.slotLoaded[i] = true) : e.loadedCount = 10 := by
  have : slotIxs.filter (fun i => e.slotLoaded[i]) = slotIxs := List.filter_eq_self.2 fun i _ => h i
  rw [Engine.loadedCount, this]; decide

theorem Engine.loadedCount_lt (e : Engine) {v : Fin 10} (h : e.slotLoaded[v] = false) : e.loadedCount < 10 := by
  have := List.length_filter_lt_length_iff_exists (l := slotIxs) (p := fun i => e.slotLoaded[i])
  have h10 : slotIxs.length = 10 := by decide
  rw [h10] at this
  exact this.2 ⟨v, mem_slotIxs v, by simpa using h⟩

/-- Counting the true flags of a vector. -/
theorem count_set (f : Vector Bool 10) (v : Fin 10) (x : Bool) :
    (slotIxs.filter fun i => (f.set v x)[i]).length + (if f[v] = true then 1 else 0) =
      (slotIxs.filter fun i => f[i]).length + (if x = true then 1 else 0) := by
  have key : ∀ (l : List (Fin 10)), l.Nodup →
      (l.filter fun i => (f.set v x)[i]).length + (if v ∈ l ∧ f[v] = true then 1 else 0) =
        (l.filter fun i => f[i]).length + (if v ∈ l ∧ x = true then 1 else 0) := by
    intro l hl
    induction l with
    | nil => simp
    | cons a l ih =>
      rw [List.nodup_cons] at hl
      have ih := ih hl.2
      have hget : (f.set v x)[a] = if v = a then x else f[a] := by
        simp [Vector.getElem_set, Fin.ext_iff]
      by_cases hva : v = a
      · subst hva
        simp only [hl.1, false_and, if_false, Nat.add_zero] at ih
        simp only [List.filter_cons, hget, if_true, List.mem_cons, true_or, true_and]
        cases hx : x <;> cases hf : f[v] <;> simp_all
      · simp only [List.filter_cons, hget, List.mem_cons, hva, if_false, false_or]
        cases hfa : f[a]
        · simpa using ih
        · simp only [if_true, List.length_cons]; omega
  have := key slotIxs (by decide)
  simpa [mem_slotIxs] using this

/-! ## The file -/

theorem fileBytes_length (file : List Byte) (off n : Nat) :
    (fileBytes file off n).length = min n (file.length - off) := by
  simp [fileBytes]

theorem fileBytes_getD (file : List Byte) (off n i : Nat) :
    (fileBytes file off n).getD i 0#8 = if i < n then file.getD (off + i) 0#8 else 0#8 := by
  simp only [fileBytes, List.getD_eq_getElem?_getD, List.getElem?_take, List.getElem?_drop]
  split <;> simp

/-- `FileRead` either fails or gives the bytes present, and uses up one answer of P_IO. -/
theorem Engine.readFile_eq (info : FaultInfo) (off n : Nat) (e : Engine) :
    e.readFile info off n =
      if e.ioFail.headD false = true then .raise { e with ioFail := e.ioFail.tail } .ioError info
      else .ok { e with ioFail := e.ioFail.tail } (fileBytes e.file off n) := by
  unfold Engine.readFile fileRead
  by_cases h : e.ioFail.headD false = true
  · rw [if_pos h, if_pos h]
  · rw [if_neg h, if_neg h]

@[simp] theorem Attempt.andThen_ok {α β : Type} (e : Engine) (a : α) (f : Engine → α → Attempt β) :
    (Attempt.ok e a).andThen f = f e a := rfl

@[simp] theorem Attempt.andThen_raise {α β : Type} (e : Engine) (kind : ErrorKind) (info : FaultInfo)
    (f : Engine → α → Attempt β) : (Attempt.raise e kind info : Attempt α).andThen f = .raise e kind info := rfl

/-- A short read appends at most one diagnostic. -/
theorem Engine.noteShort_eq (src : ReadSource) (m n : Nat) (e : Engine) :
    e.noteShort src m n =
      { e with events := e.events ++ (if m < n then [.diag (.shortRomRead src m n)] else []) } := by
  unfold Engine.noteShort
  split
  · rfl
  · simp

/-! ## The LRU list -/

@[simp] theorem lruShift_get (j : Fin 10) (b : Byte) (l : Vector (Option Byte) 10) (t : Fin 10) :
    (lruShift j b l)[t] = if t = 0 then some b else if t ≤ j then l[t.val - 1] else l[t] := by
  simp [lruShift]

/-- Everything `LruTouch` can do to the list (R81). -/
theorem lruTouch_cases (b : Byte) (l : Vector (Option Byte) 10) :
    (l[0] = some b ∧ lruTouch b l = some l) ∨
    (∃ j : Fin 10, j ≠ 0 ∧ l[j] = some b ∧ (∀ t : Fin 10, t < j → l[t] ≠ some b) ∧
      lruTouch b l = some (lruShift j b l)) ∨
    ((∀ t : Fin 10, l[t] ≠ some b) ∧ l[9] = none ∧ lruTouch b l = some (lruShift 9 b l)) ∨
    ((∀ t : Fin 10, l[t] ≠ some b) ∧ l[9] ≠ none ∧ lruTouch b l = none) := by
  unfold lruTouch
  by_cases h0 : l[0] = some b
  · exact Or.inl ⟨h0, by rw [if_pos h0]⟩
  · have hz : ∀ t : Fin 10, t = 0 → l[t] ≠ some b := by rintro t rfl; exact h0
    rw [if_neg h0]
    right
    cases hf : lruTailIxs.find? (fun j => l[j] == some b) with
    | some j =>
      rw [find_rising lruTailIxs_sorted] at hf
      obtain ⟨hm, hj, hmin⟩ := hf
      refine Or.inl ⟨j, (mem_lruTailIxs j).1 hm, by simpa using hj, fun t ht => ?_, rfl⟩
      by_cases ht0 : t = 0
      · exact hz t ht0
      · simpa using hmin t ((mem_lruTailIxs t).2 ht0) ht
    | none =>
      have hall : ∀ t : Fin 10, l[t] ≠ some b := by
        intro t
        by_cases ht0 : t = 0
        · exact hz t ht0
        · simpa using List.find?_eq_none.1 hf t ((mem_lruTailIxs t).2 ht0)
      by_cases h9 : l[9] = none
      · exact Or.inr (Or.inl ⟨hall, h9, by simp [h9]⟩)
      · exact Or.inr (Or.inr ⟨hall, h9, by simp [h9]⟩)

/-- A touch puts the bank at the head. -/
theorem lruTouch_head {b : Byte} {l l' : Vector (Option Byte) 10} (h : lruTouch b l = some l') : l'[0] = some b := by
  rcases lruTouch_cases b l with ⟨h0, he⟩ | ⟨j, -, -, -, he⟩ | ⟨-, -, he⟩ | ⟨-, -, he⟩ <;> rw [he] at h
  · cases h; exact h0
  · cases h; exact lruShift_get j b l 0
  · cases h; exact lruShift_get 9 b l 0
  · cases h

/-- A touch of a listed bank always completes. -/
theorem lruTouch_of_mem {b : Byte} {l : Vector (Option Byte) 10} {j : Fin 10} (h : l[j] = some b) :
    ∃ l', lruTouch b l = some l' := by
  rcases lruTouch_cases b l with ⟨-, he⟩ | ⟨_, -, -, -, he⟩ | ⟨hall, -⟩ | ⟨hall, -⟩
  · exact ⟨_, he⟩
  · exact ⟨_, he⟩
  · exact absurd h (hall j)
  · exact absurd h (hall j)

/-- So does a touch while the last entry is empty. -/
theorem lruTouch_of_room {b : Byte} {l : Vector (Option Byte) 10} (h : l[9] = none) : ∃ l', lruTouch b l = some l' := by
  rcases lruTouch_cases b l with ⟨-, he⟩ | ⟨_, -, -, -, he⟩ | ⟨-, -, he⟩ | ⟨-, h9, -⟩
  · exact ⟨_, he⟩
  · exact ⟨_, he⟩
  · exact ⟨_, he⟩
  · exact absurd h h9

/-- Where an entry after a touch comes from: the head is the bank, any other entry stood at its own place or one
earlier. -/
theorem lruTouch_source {b : Byte} {l l' : Vector (Option Byte) 10} (h : lruTouch b l = some l') (t : Fin 10) :
    (t = 0 ∧ l'[t] = some b) ∨ l'[t] = l[t] ∨ (0 < t.val ∧ l'[t] = l[t.val - 1]) := by
  rcases lruTouch_cases b l with ⟨h0, he⟩ | ⟨j, -, -, -, he⟩ | ⟨-, -, he⟩ | ⟨-, -, he⟩ <;> rw [he] at h
  · cases h; exact Or.inr (Or.inl rfl)
  · cases h
    rw [lruShift_get]
    by_cases ht : t = 0
    · exact Or.inl ⟨ht, if_pos ht⟩
    · rw [if_neg ht]
      have : 0 < t.val := Nat.pos_of_ne_zero fun h0 => ht (Fin.ext h0)
      by_cases htj : t ≤ j
      · rw [if_pos htj]; exact Or.inr (Or.inr ⟨this, rfl⟩)
      · rw [if_neg htj]; exact Or.inr (Or.inl rfl)
  · cases h
    rw [lruShift_get]
    by_cases ht : t = 0
    · exact Or.inl ⟨ht, if_pos ht⟩
    · rw [if_neg ht, if_pos (by omega)]
      exact Or.inr (Or.inr ⟨Nat.pos_of_ne_zero fun h0 => ht (Fin.ext h0), rfl⟩)
  · cases h

/-- The banks listed after a touch: the touched bank and those listed before. -/
theorem lruTouch_mem {b : Byte} {l l' : Vector (Option Byte) 10} (h : lruTouch b l = some l') (c : Byte) :
    (∃ t : Fin 10, l'[t] = some c) ↔ c = b ∨ ∃ t : Fin 10, l[t] = some c := by
  constructor
  · rintro ⟨t, ht⟩
    rcases lruTouch_source h t with ⟨-, hs⟩ | hs | ⟨hpos, hs⟩
    · left; rw [hs] at ht; exact (Option.some.inj ht).symm
    · right; exact ⟨t, hs ▸ ht⟩
    · right; exact ⟨⟨t.val - 1, by omega⟩, by rw [hs] at ht; exact ht⟩
  · rintro (rfl | ⟨t, ht⟩)
    · exact ⟨0, lruTouch_head h⟩
    · by_cases hcb : c = b
      · exact ⟨0, hcb ▸ lruTouch_head h⟩
      · rcases lruTouch_cases b l with ⟨h0, he⟩ | ⟨j, -, hj, hmin, he⟩ | ⟨-, h9, he⟩ | ⟨-, -, he⟩ <;> rw [he] at h
        · cases h; exact ⟨t, ht⟩
        · cases h
          rcases lt_trichotomy t j with hlt | heq | hgt
          · refine ⟨⟨t.val + 1, by omega⟩, ?_⟩
            rw [lruShift_get, if_neg (fun h0 => Nat.succ_ne_zero _ (congrArg Fin.val h0)), if_pos (Fin.le_def.2 (by simpa using hlt))]
            exact ht
          · subst heq
            rw [hj] at ht
            exact absurd (Option.some.inj ht).symm hcb
          · exact ⟨t, by rw [lruShift_get, if_neg (by rintro rfl; exact absurd hgt (by simp)), if_neg (by omega)]; exact ht⟩
        · cases h
          have ht9 : t.val < 9 := by
            by_contra hge
            have : t = 9 := by apply Fin.ext; change t.val = 9; omega
            subst this
            exact absurd ht (by rw [show l[(9 : Fin 10)] = l[9] from rfl, h9]; simp)
          refine ⟨⟨t.val + 1, by omega⟩, ?_⟩
          rw [lruShift_get, if_neg (fun h0 => Nat.succ_ne_zero _ (congrArg Fin.val h0)), if_pos (Fin.le_def.2 (by change t.val + 1 ≤ 9; omega))]
          exact ht
        · cases h

/-- A touch keeps the entries distinct. -/
theorem lruTouch_once {b : Byte} {l l' : Vector (Option Byte) 10} (h : lruTouch b l = some l')
    (ho : ∀ (j j' : Fin 10) (c : Byte), l[j] = some c → l[j'] = some c → j = j') :
    ∀ (j j' : Fin 10) (c : Byte), l'[j] = some c → l'[j'] = some c → j = j' := by
  rcases lruTouch_cases b l with ⟨h0, he⟩ | ⟨p, hp0, hp, hmin, he⟩ | ⟨hall, h9, he⟩ | ⟨-, -, he⟩ <;> rw [he] at h
  · cases h; exact ho
  · cases h
    intro j j' c hj hj'
    rw [lruShift_get] at hj hj'
    have pred : ∀ t : Fin 10, t ≠ 0 → ∃ u : Fin 10, u.val = t.val - 1 ∧ l[t.val - 1] = l[u] :=
      fun t _ => ⟨⟨t.val - 1, by omega⟩, rfl, rfl⟩
    have zero : ∀ t : Fin 10, ¬ t = 0 → 0 < t.val := fun t ht => Nat.pos_of_ne_zero fun h0 => ht (Fin.ext h0)
    -- the old place of an entry that is not the head
    have old : ∀ t : Fin 10, ¬ t = 0 → (if t ≤ p then l[t.val - 1] else l[t]) = some c →
        ∃ u : Fin 10, l[u] = some c ∧ u ≠ p ∧ (t ≤ p → u.val + 1 = t.val) ∧ (¬ t ≤ p → u = t) := by
      intro t ht hc
      by_cases htp : t ≤ p
      · rw [if_pos htp] at hc
        have := zero t ht
        exact ⟨⟨t.val - 1, by omega⟩, hc, by rw [Ne, Fin.ext_iff]; simp; omega, fun _ => by simp; omega, fun hn => absurd htp hn⟩
      · rw [if_neg htp] at hc
        exact ⟨t, hc, by rintro rfl; exact htp (le_refl _), fun hn => absurd hn htp, fun _ => rfl⟩
    by_cases h1 : j = 0 <;> by_cases h2 : j' = 0
    · rw [h1, h2]
    · rw [if_pos h1] at hj
      rw [if_neg h2] at hj'
      obtain ⟨u, hu, hne, -, -⟩ := old j' h2 hj'
      exact absurd (ho u p c hu (by rw [hp, hj])) hne
    · rw [if_neg h1] at hj
      rw [if_pos h2] at hj'
      obtain ⟨u, hu, hne, -, -⟩ := old j h1 hj
      exact absurd (ho u p c hu (by rw [hp, hj'])) hne
    · rw [if_neg h1] at hj
      rw [if_neg h2] at hj'
      obtain ⟨u, hu, hne, ha, hb⟩ := old j h1 hj
      obtain ⟨u', hu', hne', ha', hb'⟩ := old j' h2 hj'
      have huu := ho u u' c hu hu'
      subst huu
      apply Fin.ext
      by_cases c1 : j ≤ p <;> by_cases c2 : j' ≤ p
      · have := ha c1; have := ha' c2; omega
      · have := ha c1; have h4 := hb' c2; subst h4; have := Fin.le_def.1 c1; have : ¬ u.val ≤ p.val := c2; omega
      · have := ha' c2; have h4 := hb c1; subst h4; have := Fin.le_def.1 c2; have : ¬ u.val ≤ p.val := c1; omega
      · have h3 := hb c1; have h4 := hb' c2; rw [← h3, ← h4]
  · cases h
    intro j j' c hj hj'
    rw [lruShift_get] at hj hj'
    have old : ∀ t : Fin 10, ¬ t = 0 → (if t ≤ 9 then l[t.val - 1] else l[t]) = some c →
        ∃ u : Fin 10, l[u] = some c ∧ u.val + 1 = t.val := by
      intro t ht hc
      rw [if_pos (by omega)] at hc
      have : 0 < t.val := Nat.pos_of_ne_zero fun h0 => ht (Fin.ext h0)
      exact ⟨⟨t.val - 1, by omega⟩, hc, by simp; omega⟩
    by_cases h1 : j = 0 <;> by_cases h2 : j' = 0
    · rw [h1, h2]
    · rw [if_pos h1] at hj
      rw [if_neg h2] at hj'
      obtain ⟨u, hu, -⟩ := old j' h2 hj'
      exact absurd (by rw [hu, hj]) (hall u)
    · rw [if_neg h1] at hj
      rw [if_pos h2] at hj'
      obtain ⟨u, hu, -⟩ := old j h1 hj
      exact absurd (by rw [hu, hj']) (hall u)
    · rw [if_neg h1] at hj
      rw [if_neg h2] at hj'
      obtain ⟨u, hu, ha⟩ := old j h1 hj
      obtain ⟨u', hu', ha'⟩ := old j' h2 hj'
      have := ho u u' c hu hu'
      subst this
      exact Fin.ext (by omega)
  · cases h

/-- A touch keeps the entries a prefix: as long as before for a listed bank, one longer for a new one. -/
theorem lruTouch_leading {b : Byte} {l l' : Vector (Option Byte) 10} (h : lruTouch b l = some l') {n : Nat}
    (hn : ∀ j : Fin 10, l[j].isSome = true ↔ j.val < n) :
    ∀ j : Fin 10, l'[j].isSome = true ↔ j.val < (if ∃ t : Fin 10, l[t] = some b then n else n + 1) := by
  rcases lruTouch_cases b l with ⟨h0, he⟩ | ⟨p, hp0, hp, hmin, he⟩ | ⟨hall, h9, he⟩ | ⟨-, -, he⟩ <;> rw [he] at h
  · cases h
    rw [if_pos ⟨0, h0⟩]; exact hn
  · cases h
    rw [if_pos ⟨p, hp⟩]
    intro j
    rw [lruShift_get]
    have hpn : p.val < n := (hn p).1 (by rw [hp]; rfl)
    by_cases hj : j = 0
    · rw [if_pos hj]; subst hj; simp; omega
    · rw [if_neg hj]
      by_cases hjp : j ≤ p
      · rw [if_pos hjp]
        have h1 := hn ⟨j.val - 1, by omega⟩
        have hjp' := Fin.le_def.1 hjp
        constructor
        · intro _; omega
        · intro _; exact h1.2 (by simp; omega)
      · rw [if_neg hjp]; exact hn j
  · cases h
    rw [if_neg (by rintro ⟨t, ht⟩; exact hall t ht)]
    intro j
    rw [lruShift_get]
    by_cases hj : j = 0
    · rw [if_pos hj]; subst hj; simp
    · rw [if_neg hj, if_pos (by omega)]
      have : 0 < j.val := Nat.pos_of_ne_zero fun h0 => hj (Fin.ext h0)
      have h1 := hn ⟨j.val - 1, by omega⟩
      exact ⟨fun hs => by have := h1.1 hs; simp at this; omega, fun hs => h1.2 (by simp; omega)⟩
  · cases h

/-- The touch of an engine changes the list alone, or finds it full. -/
theorem Engine.touch_eq (b : Byte) (e : Engine) :
    (∃ l, lruTouch b e.lru = some l ∧ e.touch b = .ok { e with lru := l } ()) ∨
      (lruTouch b e.lru = none ∧ e.touch b = .raise e .internalError (.lruFull b)) := by
  unfold Engine.touch
  cases h : lruTouch b e.lru with
  | some l => exact Or.inl ⟨l, rfl, rfl⟩
  | none => exact Or.inr ⟨rfl, rfl⟩

/-! ## Bus transactions -/

theorem readTxn_live {body : Engine → Engine × Byte} {s : State} (h : s.eng.fault = none) :
    readTxn body s = .next { s with eng := (body s.eng).1, out := .readData (body s.eng).2 } := by
  simp [readTxn, Engine.faulted, h]

theorem readTxn_faulted {body : Engine → Engine × Byte} {s : State} {r : FaultRecord} (h : s.eng.fault = some r) :
    readTxn body s = .next { s with out := .readData 0#8 } := by
  simp [readTxn, Engine.faulted, h]

theorem writeTxn_live {body : Engine → Engine} {s : State} (h : s.eng.fault = none) :
    writeTxn body s = .next { s with eng := body s.eng, out := .writeDone } := by
  simp [writeTxn, Engine.faulted, h]

theorem writeTxn_faulted {body : Engine → Engine} {s : State} {r : FaultRecord} (h : s.eng.fault = some r) :
    writeTxn body s = .next { s with out := .writeDone } := by
  simp [writeTxn, Engine.faulted, h]

/-- Every read completes; the engine is as it was or as the body leaves it. -/
theorem readTxn_cases (body : Engine → Engine × Byte) (s : State) :
    ∃ e v, readTxn body s = .next { s with eng := e, out := .readData v } ∧
      ((s.eng.faulted = true ∧ e = s.eng ∧ v = 0#8) ∨ (s.eng.fault = none ∧ (e, v) = body s.eng)) := by
  cases h : s.eng.fault with
  | some r => exact ⟨s.eng, 0#8, readTxn_faulted h, Or.inl ⟨by simp [Engine.faulted, h], rfl, rfl⟩⟩
  | none => exact ⟨_, _, readTxn_live h, Or.inr ⟨rfl, rfl⟩⟩

/-- Every write completes; the engine is as it was or as the body leaves it. -/
theorem writeTxn_cases (body : Engine → Engine) (s : State) :
    ∃ e, writeTxn body s = .next { s with eng := e, out := .writeDone } ∧
      ((s.eng.faulted = true ∧ e = s.eng) ∨ (s.eng.fault = none ∧ e = body s.eng)) := by
  cases h : s.eng.fault with
  | some r => exact ⟨s.eng, writeTxn_faulted h, Or.inl ⟨by simp [Engine.faulted, h], rfl⟩⟩
  | none => exact ⟨_, writeTxn_live h, Or.inr ⟨rfl, rfl⟩⟩

end Sys2Proof.Machine
end

