-- ==== Sys2Proof/Laws/Cache.lean ====
section
/-! SUPPORT. What each operation of the bank cache can do (spec/42_bank_cache.md R74 to R81), said once, and that each
keeps the invariants of R82. -/

namespace Sys2Proof.Machine

/-! ## Reading vectors after a store -/

theorem get_set {α : Type} {n : Nat} (x : Vector α n) (i j : Fin n) (a : α) :
    (x.set i a)[j] = if i = j then a else x[j] := by
  simp [Vector.getElem_set, Fin.ext_iff]

theorem get_ofFn {α : Type} {n : Nat} (f : Fin n → α) (j : Fin n) : (Vector.ofFn f)[j] = f j := by
  simp

theorem get_replicate {α : Type} {n : Nat} (a : α) (j : Fin n) : (Vector.replicate n a)[j] = a := by
  simp

theorem set_lru_tail (l : Vector (Option Byte) 10) (j : Fin 10) :
    (l.set 9 none)[j] = if j = 9 then none else l[j] := by
  have h := get_set l 9 j none
  by_cases hj : j = 9
  · rw [if_pos hj]; exact h.trans (if_pos hj.symm)
  · rw [if_neg hj]; exact h.trans (if_neg (Ne.symm hj))

/-! ## BankLocation (R78) -/

theorem bankLocation_inBank_add_len (load : Addr) (b : Byte) :
    (bankLocation load b).inBank + (bankLocation load b).len = 0x1000 := by
  have := Nat.mod_lt load.toNat (show 0 < 0x1000 by decide)
  unfold bankLocation
  split
  · simp only [Config.bankSize]; omega
  · rfl

/-! ## The steps -/

/-- Everything `ChooseVictim` can do (R76). -/
theorem Engine.chooseVictim_cases (e : Engine) :
    (∃ v, e.freeSlot = some v ∧ e.chooseVictim = .ok e v) ∨
    (e.freeSlot = none ∧ e.lru[9] = none ∧ e.chooseVictim = .raise e .internalError .lruTailEmpty) ∨
    (∃ ob, e.freeSlot = none ∧ e.lru[9] = some ob ∧ e.slotHolding ob = none ∧
      e.chooseVictim = .raise e .internalError (.victimNotFound ob)) ∨
    (∃ ob v, e.freeSlot = none ∧ e.lru[9] = some ob ∧ e.slotHolding ob = some v ∧
      e.chooseVictim = .ok (e.evict v) v) := by
  unfold Engine.chooseVictim
  cases hf : e.freeSlot with
  | some v => exact Or.inl ⟨v, rfl, rfl⟩
  | none =>
    cases h9 : e.lru[9] with
    | none => exact Or.inr (Or.inl ⟨rfl, rfl, rfl⟩)
    | some ob =>
      cases hs : e.slotHolding ob with
      | none => exact Or.inr (Or.inr (Or.inl ⟨ob, rfl, rfl, hs, by simp [hs]⟩))
      | some v => exact Or.inr (Or.inr (Or.inr ⟨ob, v, rfl, rfl, hs, by simp [hs]⟩))

/-- Everything `Fill` can do (R79). -/
theorem Engine.fill_eq (v : Fin 10) (b : Byte) (e : Engine) :
    e.fill v b =
      if e.ioFail.headD false = true then
        .raise { e with cache := e.cache.set v [], ioFail := e.ioFail.tail } .ioError (.bankRead b)
      else
        .ok
          { e with
            cache := e.cache.set v (Memory.ofBytes (bankLocation e.header.loadAddress b).inBank
              (fileBytes e.file (bankLocation e.header.loadAddress b).offset (bankLocation e.header.loadAddress b).len))
            ioFail := e.ioFail.tail
            events := e.events ++
              (if (fileBytes e.file (bankLocation e.header.loadAddress b).offset
                  (bankLocation e.header.loadAddress b).len).length < (bankLocation e.header.loadAddress b).len then
                [.diag (.shortRomRead (.bank b)
                  (fileBytes e.file (bankLocation e.header.loadAddress b).offset
                    (bankLocation e.header.loadAddress b).len).length (bankLocation e.header.loadAddress b).len)]
              else []) } () := by
  unfold Engine.fill
  simp only [Engine.readFile_eq]
  split
  · rfl
  · rw [Attempt.andThen_ok, Engine.noteShort_eq]
    simp

/-- Everything `load_bank` can do for a register in range: what its steps did, one `BankLoad` event, and the fault if
one was raised (R74, R97). -/
theorem Engine.loadBank_eq (r : Fin 8) (b : Byte) (e : Engine) :
    e.loadBank r.val b =
      match e.loadSteps r b with
      | .ok e o => e.emit (.bankLoad r.val b o)
      | .raise e kind info => (e.emit (.bankLoad r.val b (.fault kind))).raiseFault kind info := by
  have hr : (⟨r.val, r.isLt⟩ : Fin 8) = r := rfl
  cases h : e.loadSteps r b <;> simp [Engine.loadBank, hr, h]

/-- A register out of range: the event and the fault, nothing else (R74, D32). -/
theorem Engine.loadBank_bad {r : Nat} (h : ¬ r < 8) (b : Byte) (e : Engine) :
    e.loadBank r b = (e.emit (.bankLoad r b (.fault .invalidArg))).raiseFault .invalidArg (.badRegister r) := by
  simp [Engine.loadBank, h]

/-- The fields no step of the bank cache touches. -/
structure Engine.SameBus (e e' : Engine) : Prop where
  ram : e'.ram = e.ram
  shim : e'.shim = e.shim
  apuRegs : e'.apuRegs = e.apuRegs
  bankRegs : e'.bankRegs = e.bankRegs
  intVecs : e'.intVecs = e.intVecs
  flat : e'.flat = e.flat
  romMode : e'.romMode = e.romMode
  header : e'.header = e.header
  file : e'.file = e.file
  initialised : e'.initialised = e.initialised
  sink : e'.sink = e.sink

theorem Engine.SameBus.rfl (e : Engine) : e.SameBus e := by constructor <;> exact Eq.refl _

theorem Engine.SameBus.trans {e e' e'' : Engine} (h : e.SameBus e') (h' : e'.SameBus e'') : e.SameBus e'' where
  ram := h'.ram.trans h.ram
  shim := h'.shim.trans h.shim
  apuRegs := h'.apuRegs.trans h.apuRegs
  bankRegs := h'.bankRegs.trans h.bankRegs
  intVecs := h'.intVecs.trans h.intVecs
  flat := h'.flat.trans h.flat
  romMode := h'.romMode.trans h.romMode
  header := h'.header.trans h.header
  file := h'.file.trans h.file
  initialised := h'.initialised.trans h.initialised
  sink := h'.sink.trans h.sink

/-- The engine an attempt leaves. -/
def Attempt.engine {α : Type} : Attempt α → Engine
  | .ok e _ => e
  | .raise e _ _ => e

theorem Engine.touch_sameBus (b : Byte) (e : Engine) : e.SameBus (e.touch b).engine := by
  rcases e.touch_eq b with ⟨l, -, h⟩ | ⟨-, h⟩ <;> rw [h] <;> exact ⟨rfl, rfl, rfl, rfl, rfl, rfl, rfl, rfl, rfl, rfl, rfl⟩

theorem Engine.chooseVictim_sameBus (e : Engine) : e.SameBus e.chooseVictim.engine := by
  rcases e.chooseVictim_cases with ⟨v, -, h⟩ | ⟨-, -, h⟩ | ⟨ob, -, -, -, h⟩ | ⟨ob, v, -, -, -, h⟩ <;> rw [h] <;>
    exact ⟨rfl, rfl, rfl, rfl, rfl, rfl, rfl, rfl, rfl, rfl, rfl⟩

theorem Engine.fill_sameBus (v : Fin 10) (b : Byte) (e : Engine) : e.SameBus (e.fill v b).engine := by
  rw [Engine.fill_eq]
  split <;> exact ⟨rfl, rfl, rfl, rfl, rfl, rfl, rfl, rfl, rfl, rfl, rfl⟩

theorem Engine.install_sameBus (r : Fin 8) (b : Byte) (v : Fin 10) (e : Engine) :
    e.SameBus (e.install r b v).engine :=
  Engine.SameBus.trans (e' := { e with
      slotLoaded := e.slotLoaded.set v true, slotBankId := e.slotBankId.set v b,
      win := e.win.set r (.cache v), winBank := e.winBank.set r b })
    ⟨rfl, rfl, rfl, rfl, rfl, rfl, rfl, rfl, rfl, rfl, rfl⟩ (Engine.touch_sameBus b _)

theorem Engine.showHit_sameBus (r : Fin 8) (b : Byte) (i : Fin 10) (e : Engine) :
    e.SameBus (e.showHit r b i).engine :=
  Engine.SameBus.trans (e' := { e with win := e.win.set r (.cache i), winBank := e.winBank.set r b })
    ⟨rfl, rfl, rfl, rfl, rfl, rfl, rfl, rfl, rfl, rfl, rfl⟩ (Engine.touch_sameBus b _)

theorem Attempt.andThen_sameBus {α β : Type} {e : Engine} {t : Attempt α} {f : Engine → α → Attempt β}
    (h : e.SameBus t.engine) (hf : ∀ e' a, t = .ok e' a → e'.SameBus (f e' a).engine) :
    e.SameBus (t.andThen f).engine := by
  cases t with
  | ok e' a => exact h.trans (hf e' a rfl)
  | raise e' kind info => exact h

theorem Engine.loadSteps_sameBus (r : Fin 8) (b : Byte) (e : Engine) : e.SameBus (e.loadSteps r b).engine := by
  unfold Engine.loadSteps
  split
  · exact Attempt.andThen_sameBus (e.showHit_sameBus r b _) fun e' _ _ => Engine.SameBus.rfl e'
  · refine Attempt.andThen_sameBus e.chooseVictim_sameBus fun e1 v _ => ?_
    refine Attempt.andThen_sameBus (e1.fill_sameBus v b) fun e2 _ _ => ?_
    exact Attempt.andThen_sameBus (e2.install_sameBus r b v) fun e3 _ _ => Engine.SameBus.rfl e3

/-- `load_bank` changes the bank cache, the windows, the fault, the history and P_IO's answers; no other field. -/
theorem Engine.loadBank_sameBus (r : Nat) (b : Byte) (e : Engine) : e.SameBus (e.loadBank r b) := by
  by_cases h : r < 8
  · rw [show r = (⟨r, h⟩ : Fin 8).val from rfl, Engine.loadBank_eq]
    have hs := e.loadSteps_sameBus ⟨r, h⟩ b
    cases ht : e.loadSteps ⟨r, h⟩ b with
    | ok e' o => rw [ht] at hs; exact hs.trans ⟨rfl, rfl, rfl, rfl, rfl, rfl, rfl, rfl, rfl, rfl, rfl⟩
    | raise e' kind info => rw [ht] at hs; exact hs.trans ⟨rfl, rfl, rfl, rfl, rfl, rfl, rfl, rfl, rfl, rfl, rfl⟩
  · rw [Engine.loadBank_bad h]; exact ⟨rfl, rfl, rfl, rfl, rfl, rfl, rfl, rfl, rfl, rfl, rfl⟩

/-! ## The invariants of R82 under each step -/

/-- The invariants speak of seven fields only. -/
theorem Engine.CacheInv.congr {e e' : Engine} (h : e.CacheInv) (h1 : e'.lru = e.lru) (h2 : e'.slotLoaded = e.slotLoaded)
    (h3 : e'.slotBankId = e.slotBankId) (h4 : e'.win = e.win) (h5 : e'.winBank = e.winBank) (h6 : e'.romMode = e.romMode)
    (h7 : e'.flat = e.flat) : e'.CacheInv := by
  obtain ⟨a1, a2, a3, a4, a5, a6, a7, a8, a9⟩ := h
  have hc : e'.loadedCount = e.loadedCount := by simp only [Engine.loadedCount, h2]
  constructor <;> simp only [h1, h2, h3, h4, h5, h6, h7, hc] <;> assumption

/-- Touching a listed bank completes and keeps the invariants. -/
theorem Engine.CacheInv.touch {e : Engine} (h : e.CacheInv) {b : Byte} {j : Fin 10} (hj : e.lru[j] = some b) :
    ∃ l, lruTouch b e.lru = some l ∧ e.touch b = .ok { e with lru := l } () ∧ Engine.CacheInv { e with lru := l } := by
  obtain ⟨l, hl⟩ := lruTouch_of_mem hj
  have ht : e.touch b = .ok { e with lru := l } () := by unfold Engine.touch; rw [hl]
  have hm := fun c => lruTouch_mem hl c
  refine ⟨l, hl, ht, ?_⟩
  constructor
  · intro i hi
    obtain ⟨t, ht⟩ := h.listed i hi
    exact (hm _).2 (Or.inr ⟨t, ht⟩)
  · exact lruTouch_once hl h.once
  · exact h.unloaded
  · intro t c htc
    rcases (hm c).1 ⟨t, htc⟩ with rfl | ⟨t', ht'⟩
    · exact h.held j c hj
    · exact h.held t' c ht'
  · exact h.shown
  · exact h.noBank
  · have := lruTouch_leading hl h.leading
    rw [if_pos ⟨j, hj⟩] at this
    exact this
  · exact h.distinct
  · exact h.flatMode

/-- Evicting the tail's slot of a full list keeps the invariants and frees the slot. -/
theorem Engine.CacheInv.evict {e : Engine} (h : e.CacheInv) (hall : ∀ i : Fin 10, e.slotLoaded[i] = true) {ob : Byte}
    (h9 : e.lru[9] = some ob) {v : Fin 10} (hv : e.slotLoaded[v] = true ∧ e.slotBankId[v] = ob) :
    (e.evict v).CacheInv := by
  have h9' : e.lru[(9 : Fin 10)] = some ob := h9
  have hcount : (e.evict v).loadedCount + 1 = 10 := by
    have := count_set e.slotLoaded v false
    rw [if_pos (hall v)] at this
    have h10 := e.loadedCount_eq_ten hall
    simp only [Engine.loadedCount, Engine.evict_slotLoaded] at this h10 ⊢
    rw [h10] at this
    simpa using this
  have hload : ∀ i : Fin 10, (e.evict v).slotLoaded[i] = true → i ≠ v := by
    intro i hi hiv
    rw [Engine.evict_slotLoaded, get_set, if_pos hiv.symm] at hi
    exact absurd hi (by decide)
  have hid : ∀ i : Fin 10, i ≠ v → (e.evict v).slotBankId[i] = e.slotBankId[i] := by
    intro i hi
    rw [Engine.evict_slotBankId, get_set, if_neg (Ne.symm hi)]
  have hlru : ∀ j : Fin 10, (e.evict v).lru[j] = if j = 9 then none else e.lru[j] := fun j => set_lru_tail e.lru j
  constructor
  · intro i hi
    have hne := hload i hi
    obtain ⟨j, hj⟩ := h.listed i (hall i)
    refine ⟨j, ?_⟩
    rw [hlru, hid i hne]
    by_cases hj9 : j = 9
    · subst hj9
      rw [h9'] at hj
      exact absurd (h.distinct i v (hall i) (hall v) (by rw [hv.2]; exact (Option.some.inj hj).symm)) hne
    · rw [if_neg hj9]; exact hj
  · intro j j' b hj hj'
    rw [hlru] at hj hj'
    split at hj
    · exact absurd hj (by simp)
    · split at hj'
      · exact absurd hj' (by simp)
      · exact h.once j j' b hj hj'
  · intro i hi
    rw [Engine.evict_slotBankId, get_set]
    split
    · rfl
    · next hne =>
      rw [Engine.evict_slotLoaded, get_set, if_neg hne] at hi
      exact absurd (hall i) (by rw [hi]; decide)
  · intro j b hj
    rw [hlru] at hj
    split at hj
    · exact absurd hj (by simp)
    · next hj9 =>
      obtain ⟨i, hi, hb⟩ := h.held j b hj
      have hne : i ≠ v := by
        rintro rfl
        exact hj9 (h.once j 9 b hj (by rw [h9', ← hv.2, hb]))
      refine ⟨i, ?_, by rw [hid i hne]; exact hb⟩
      rw [Engine.evict_slotLoaded, get_set, if_neg (Ne.symm hne)]
      exact hi
  · intro k i hk
    rw [Engine.evict_win, get_ofFn] at hk
    split at hk
    · exact absurd hk (by simp)
    · next hne =>
      obtain ⟨hl, hb⟩ := h.shown k i hk
      have hiv : i ≠ v := by rintro rfl; exact hne hk
      refine ⟨?_, ?_⟩
      · rw [Engine.evict_slotLoaded, get_set, if_neg (Ne.symm hiv)]; exact hl
      · rw [Engine.evict_winBank, get_ofFn, if_neg hne, hid i hiv]; exact hb
  · intro k hk
    rw [Engine.evict_winBank, get_ofFn]
    by_cases hc : e.win[k] = .cache v
    · rw [if_pos hc]
    · rw [if_neg hc]
      rw [Engine.evict_win, get_ofFn, if_neg hc] at hk
      exact h.noBank k hk
  · intro j
    rw [hlru]
    have hl := h.leading j
    rw [e.loadedCount_eq_ten hall] at hl
    by_cases hj9 : j = 9
    · subst hj9
      simp only [if_true, Option.isSome_none, Bool.false_eq_true, false_iff, not_lt]
      change (e.evict v).loadedCount ≤ 9
      omega
    · rw [if_neg hj9]
      have hne : j.val ≠ 9 := fun h0 => hj9 (Fin.ext h0)
      have hcount' : (e.evict v).loadedCount = 9 := by omega
      rw [hcount', hl]
      omega
  · intro i i' hi hi' heq
    rw [hid i (hload i hi), hid i' (hload i' hi')] at heq
    exact h.distinct i i' (hall i) (hall i') heq
  · intro k hk
    rw [Engine.evict_win, get_ofFn] at hk
    split at hk
    · exact absurd hk (by simp)
    · exact h.flatMode k hk

/-- Under the invariants the victim is always found: a free slot, or the slot of the tail, which is then free; and the
invariants hold after it. -/
theorem Engine.CacheInv.chooseVictim {e : Engine} (h : e.CacheInv) :
    ∃ e' v, e.chooseVictim = .ok e' v ∧ e'.CacheInv ∧ e'.slotLoaded[v] = false ∧
      (∀ i : Fin 10, e'.slotLoaded[i] = true → e.slotLoaded[i] = true ∧ e'.slotBankId[i] = e.slotBankId[i]) ∧
      e'.cache = e.cache ∧ e'.fault = e.fault ∧ e'.events = e.events ∧ e'.ioFail = e.ioFail ∧
      ((e.freeSlot = some v ∧ e' = e) ∨
        (e.freeSlot = none ∧ e.lru[9] = some e.slotBankId[v] ∧ e.slotLoaded[v] = true ∧ e' = e.evict v)) := by
  rcases e.chooseVictim_cases with ⟨v, hf, hc⟩ | ⟨hf, h9, hc⟩ | ⟨ob, hf, h9, hs, hc⟩ | ⟨ob, v, hf, h9, hs, hc⟩
  · exact ⟨e, v, hc, h, ((e.freeSlot_eq_some v).1 hf).1, fun i hi => ⟨hi, rfl⟩, rfl, rfl, rfl, rfl, Or.inl ⟨hf, rfl⟩⟩
  · exfalso
    have hall := e.freeSlot_eq_none.1 hf
    have := (h.leading 9).2 (by rw [e.loadedCount_eq_ten hall]; decide)
    rw [show e.lru[(9 : Fin 10)] = none from h9] at this
    exact absurd this (by decide)
  · exfalso
    obtain ⟨i, hi, hb⟩ := h.held 9 ob h9
    exact (e.slotHolding_eq_none ob).1 hs i hi hb
  · have hall := e.freeSlot_eq_none.1 hf
    have hv := Engine.slotHolding_some hs
    refine ⟨e.evict v, v, hc, h.evict hall h9 hv, ?_, ?_, rfl, rfl, rfl, rfl,
      Or.inr ⟨hf, by rw [hv.2]; exact h9, hv.1, rfl⟩⟩
    · rw [Engine.evict_slotLoaded, get_set, if_pos rfl]
    · intro i hi
      have hne : v ≠ i := by
        rintro rfl
        rw [Engine.evict_slotLoaded, get_set, if_pos rfl] at hi
        exact absurd hi (by decide)
      rw [Engine.evict_slotLoaded, get_set, if_neg hne] at hi
      exact ⟨hi, by rw [Engine.evict_slotBankId, get_set, if_neg hne]⟩

/-- Installing a bank that no slot holds into a free slot completes, puts it at the head and keeps the invariants. -/
theorem Engine.CacheInv.install {e : Engine} (h : e.CacheInv) (r : Fin 8) {b : Byte} {v : Fin 10}
    (hv : e.slotLoaded[v] = false) (hb : ∀ i : Fin 10, e.slotLoaded[i] = true → e.slotBankId[i] ≠ b) :
    ∃ l, lruTouch b e.lru = some l ∧
      e.install r b v = .ok { e with
        slotLoaded := e.slotLoaded.set v true, slotBankId := e.slotBankId.set v b,
        win := e.win.set r (.cache v), winBank := e.winBank.set r b, lru := l } () ∧
      Engine.CacheInv { e with
        slotLoaded := e.slotLoaded.set v true, slotBankId := e.slotBankId.set v b,
        win := e.win.set r (.cache v), winBank := e.winBank.set r b, lru := l } := by
  have hcount := e.loadedCount_lt hv
  have h9 : e.lru[9] = none := by
    have h := h.leading 9
    have hn : ¬ e.lru[(9 : Fin 10)].isSome = true := fun hs => by
      have := h.1 hs
      change 9 < _ at this
      omega
    simpa using hn
  have hnot : ∀ t : Fin 10, e.lru[t] ≠ some b := fun t ht => by
    obtain ⟨i, hi, hbi⟩ := h.held t b ht
    exact hb i hi hbi
  obtain ⟨l, hl⟩ := lruTouch_of_room (b := b) h9
  have hm := fun c => lruTouch_mem hl c
  have hid : ∀ i : Fin 10, e.slotLoaded[i] = true → v ≠ i := by
    rintro i hi rfl
    rw [hv] at hi
    exact absurd hi (by decide)
  refine ⟨l, hl, by simp only [Engine.install, Engine.touch, hl], ?_⟩
  constructor
  · intro i hi
    change (e.slotLoaded.set v true)[i] = true at hi
    change ∃ j : Fin 10, l[j] = some (e.slotBankId.set v b)[i]
    rw [get_set]
    by_cases hvi : v = i
    · rw [if_pos hvi]; exact ⟨0, lruTouch_head hl⟩
    · rw [if_neg hvi]
      rw [get_set, if_neg hvi] at hi
      obtain ⟨t, ht⟩ := h.listed i hi
      exact (hm _).2 (Or.inr ⟨t, ht⟩)
  · exact lruTouch_once hl h.once
  · intro i hi
    change (e.slotLoaded.set v true)[i] = false at hi
    change (e.slotBankId.set v b)[i] = 0#8
    rw [get_set] at hi ⊢
    split at hi
    · exact absurd hi (by decide)
    · next hvi => rw [if_neg hvi]; exact h.unloaded i hi
  · intro t c htc
    change ∃ i : Fin 10, (e.slotLoaded.set v true)[i] = true ∧ (e.slotBankId.set v b)[i] = c
    rcases (hm c).1 ⟨t, htc⟩ with rfl | ⟨t', ht'⟩
    · exact ⟨v, by rw [get_set, if_pos rfl], by rw [get_set, if_pos rfl]⟩
    · obtain ⟨i, hi, hc⟩ := h.held t' c ht'
      exact ⟨i, by rw [get_set, if_neg (hid i hi)]; exact hi, by rw [get_set, if_neg (hid i hi)]; exact hc⟩
  · intro k i hk
    change (e.win.set r (.cache v))[k] = .cache i at hk
    change (e.slotLoaded.set v true)[i] = true ∧ (e.winBank.set r b)[k] = (e.slotBankId.set v b)[i]
    rw [get_set] at hk
    simp only [get_set]
    by_cases hrk : r = k
    · rw [if_pos hrk] at hk
      have : v = i := by simpa using hk
      rw [if_pos this, if_pos hrk, if_pos this]
      exact ⟨rfl, rfl⟩
    · rw [if_neg hrk] at hk
      obtain ⟨hl', hb'⟩ := h.shown k i hk
      rw [if_neg (hid i hl'), if_neg hrk, if_neg (hid i hl')]
      exact ⟨hl', hb'⟩
  · intro k hk
    change (e.win.set r (.cache v))[k] = .unmapped ∨ (e.win.set r (.cache v))[k] = .flat at hk
    change (e.winBank.set r b)[k] = 0#8
    rw [get_set] at hk ⊢
    by_cases hrk : r = k
    · rw [if_pos hrk] at hk; simp at hk
    · rw [if_neg hrk] at hk ⊢; exact h.noBank k hk
  · have hlead := lruTouch_leading hl h.leading
    rw [if_neg (by rintro ⟨t, ht⟩; exact hnot t ht)] at hlead
    have hc := count_set e.slotLoaded v true
    rw [if_neg (by rw [hv]; decide), if_pos rfl, Nat.add_zero] at hc
    intro j
    have := hlead j
    simp only [Engine.loadedCount] at this ⊢
    rw [hc]
    exact this
  · intro i i' hi hi' heq
    change (e.slotLoaded.set v true)[i] = true at hi
    change (e.slotLoaded.set v true)[i'] = true at hi'
    change (e.slotBankId.set v b)[i] = (e.slotBankId.set v b)[i'] at heq
    rw [get_set] at hi hi'
    rw [get_set, get_set] at heq
    by_cases h1 : v = i <;> by_cases h2 : v = i'
    · rw [← h1, ← h2]
    · rw [if_pos h1, if_neg h2] at heq
      rw [if_neg h2] at hi'
      exact absurd heq.symm (hb i' hi')
    · rw [if_neg h1, if_pos h2] at heq
      rw [if_neg h1] at hi
      exact absurd heq (hb i hi)
    · rw [if_neg h1, if_neg h2] at heq
      rw [if_neg h1] at hi
      rw [if_neg h2] at hi'
      exact h.distinct i i' hi hi' heq
  · intro k hk
    change (e.win.set r (.cache v))[k] = .flat at hk
    rw [get_set] at hk
    split at hk
    · exact absurd hk (by simp)
    · exact h.flatMode k hk

/-- Showing a resident bank completes, puts it at the head and keeps the invariants. -/
theorem Engine.CacheInv.showHit {e : Engine} (h : e.CacheInv) (r : Fin 8) {b : Byte} {i : Fin 10}
    (hi : e.slotLoaded[i] = true ∧ e.slotBankId[i] = b) :
    ∃ l, lruTouch b e.lru = some l ∧
      e.showHit r b i = .ok { e with win := e.win.set r (.cache i), winBank := e.winBank.set r b, lru := l } () ∧
      Engine.CacheInv { e with win := e.win.set r (.cache i), winBank := e.winBank.set r b, lru := l } := by
  obtain ⟨j, hj⟩ := h.listed i hi.1
  rw [hi.2] at hj
  have hshown : Engine.CacheInv { e with win := e.win.set r (.cache i), winBank := e.winBank.set r b } := by
    constructor
    · exact h.listed
    · exact h.once
    · exact h.unloaded
    · exact h.held
    · intro k i' hk
      change (e.win.set r (.cache i))[k] = .cache i' at hk
      change e.slotLoaded[i'] = true ∧ (e.winBank.set r b)[k] = e.slotBankId[i']
      rw [get_set] at hk ⊢
      by_cases hrk : r = k
      · rw [if_pos hrk] at hk ⊢
        have : i = i' := by simpa using hk
        subst this
        exact ⟨hi.1, hi.2.symm⟩
      · rw [if_neg hrk] at hk ⊢; exact h.shown k i' hk
    · intro k hk
      change (e.win.set r (.cache i))[k] = .unmapped ∨ (e.win.set r (.cache i))[k] = .flat at hk
      change (e.winBank.set r b)[k] = 0#8
      rw [get_set] at hk ⊢
      by_cases hrk : r = k
      · rw [if_pos hrk] at hk; simp at hk
      · rw [if_neg hrk] at hk ⊢; exact h.noBank k hk
    · exact h.leading
    · exact h.distinct
    · intro k hk
      change (e.win.set r (.cache i))[k] = .flat at hk
      rw [get_set] at hk
      split at hk
      · exact absurd hk (by simp)
      · exact h.flatMode k hk
  obtain ⟨l, hl, ht, hinv⟩ := hshown.touch hj
  exact ⟨l, hl, ht, hinv⟩

/-- `load_bank` under the invariants (R74 to R82): a hit changes one window and the list; a miss fills a free slot or the
evicted one and shows it; or the file read fails, after any eviction. The invariants hold in each case and none is an
`InternalError`. -/
theorem Engine.CacheInv.loadSteps {e : Engine} (h : e.CacheInv) (r : Fin 8) (b : Byte) :
    (∃ i l, e.slotHolding b = some i ∧ lruTouch b e.lru = some l ∧
      e.loadSteps r b = .ok { e with win := e.win.set r (.cache i), winBank := e.winBank.set r b, lru := l } (.hit i) ∧
      Engine.CacheInv { e with win := e.win.set r (.cache i), winBank := e.winBank.set r b, lru := l }) ∨
    (∃ e1 v e2, e.slotHolding b = none ∧ e.chooseVictim = .ok e1 v ∧ e1.fill v b = .raise e2 .ioError (.bankRead b) ∧
      e.loadSteps r b = .raise e2 .ioError (.bankRead b) ∧ e2.CacheInv) ∨
    (∃ e1 v e2 l, e.slotHolding b = none ∧ e.chooseVictim = .ok e1 v ∧ e1.fill v b = .ok e2 () ∧
      lruTouch b e2.lru = some l ∧
      e.loadSteps r b = .ok { e2 with
        slotLoaded := e2.slotLoaded.set v true, slotBankId := e2.slotBankId.set v b,
        win := e2.win.set r (.cache v), winBank := e2.winBank.set r b, lru := l } (.fill v) ∧
      Engine.CacheInv { e2 with
        slotLoaded := e2.slotLoaded.set v true, slotBankId := e2.slotBankId.set v b,
        win := e2.win.set r (.cache v), winBank := e2.winBank.set r b, lru := l }) := by
  cases hs : e.slotHolding b with
  | some i =>
    obtain ⟨l, hl, hh, hinv⟩ := h.showHit r (Engine.slotHolding_some hs)
    refine Or.inl ⟨i, l, rfl, hl, ?_, hinv⟩
    simp only [Engine.loadSteps, hs, hh, Attempt.andThen_ok]
  | none =>
    have hres := (e.slotHolding_eq_none b).1 hs
    obtain ⟨e1, v, hc, hinv1, hfree, hload, -, -, -, -, -⟩ := h.chooseVictim
    right
    by_cases hio : e1.ioFail.headD false = true
    · have hfill := Engine.fill_eq v b e1
      rw [if_pos hio] at hfill
      refine Or.inl ⟨e1, v, _, rfl, hc, hfill, ?_, hinv1.congr rfl rfl rfl rfl rfl rfl rfl⟩
      simp only [Engine.loadSteps, hs, hc, Attempt.andThen_ok, hfill, Attempt.andThen_raise]
    · have hfill := Engine.fill_eq v b e1
      rw [if_neg hio] at hfill
      generalize hE2 : ({ e1 with cache := _, ioFail := _, events := _ } : Engine) = e2 at hfill
      have hinv2 : e2.CacheInv := by subst hE2; exact hinv1.congr rfl rfl rfl rfl rfl rfl rfl
      have hfree2 : e2.slotLoaded[v] = false := by subst hE2; exact hfree
      have hres2 : ∀ i : Fin 10, e2.slotLoaded[i] = true → e2.slotBankId[i] ≠ b := by
        intro i hi
        subst hE2
        obtain ⟨h1, h2⟩ := hload i hi
        change e1.slotBankId[i] ≠ b
        rw [h2]; exact hres i h1
      obtain ⟨l, hl, hins, hinv⟩ := hinv2.install r hfree2 hres2
      refine Or.inr ⟨e1, v, e2, l, rfl, hc, hfill, hl, ?_, hinv⟩
      simp only [Engine.loadSteps, hs, hc, Attempt.andThen_ok, hfill, hins]

/-- `load_bank` keeps the invariants of R82 (§8 P2), and on an engine without a fault it raises none but `InvalidArg`
for a register out of range and `IoError`. -/
theorem Engine.CacheInv.loadBank {e : Engine} (h : e.CacheInv) (r : Nat) (b : Byte) :
    (e.loadBank r b).CacheInv ∧
      ((e.loadBank r b).fault = e.fault ∨ (e.loadBank r b).fault = some ⟨.ioError, .bankRead b⟩ ∨
        (¬ r < 8 ∧ (e.loadBank r b).fault = some ⟨.invalidArg, .badRegister r⟩)) := by
  by_cases hr : r < 8
  · have heq := Engine.loadBank_eq ⟨r, hr⟩ b e
    simp only at heq
    rcases h.loadSteps ⟨r, hr⟩ b with ⟨i, l, -, -, hsteps, hinv⟩ | ⟨e1, v, e2, -, hc, hf, hsteps, hinv⟩ |
        ⟨e1, v, e2, l, -, hc, hf, -, hsteps, hinv⟩ <;> rw [hsteps] at heq <;> rw [heq]
    · exact ⟨hinv.congr rfl rfl rfl rfl rfl rfl rfl, Or.inl rfl⟩
    · exact ⟨hinv.congr rfl rfl rfl rfl rfl rfl rfl, Or.inr (Or.inl rfl)⟩
    · refine ⟨hinv.congr rfl rfl rfl rfl rfl rfl rfl, Or.inl ?_⟩
      obtain ⟨e1', v', hc', -, -, -, -, hfault, -⟩ := h.chooseVictim
      rw [hc'] at hc
      obtain ⟨rfl, rfl⟩ : e1' = e1 ∧ v' = v := by simpa using hc
      have hfill := Engine.fill_eq v' b e1'
      rw [hf] at hfill
      split at hfill
      · exact absurd hfill (by simp)
      · have : e2.fault = e1'.fault := by
          have := (Attempt.ok.inj hfill).1
          rw [this]
        simp only [Engine.emit_fault]
        rw [this, hfault]
  · rw [Engine.loadBank_bad hr]
    exact ⟨h.congr rfl rfl rfl rfl rfl rfl rfl, Or.inr (Or.inr ⟨hr, rfl⟩)⟩

/-! ## The contents under each step (R83) -/

/-- What `Fill` leaves in its slot is the bank (R79, R83). -/
theorem fill_content (file : List Byte) (load : Addr) (b : Byte) {off : Nat} (hoff : off < 0x1000) :
    (Memory.ofBytes (bankLocation load b).inBank
      (fileBytes file (bankLocation load b).offset (bankLocation load b).len)).read off = bankByte file load b off := by
  have hlen := bankLocation_inBank_add_len load b
  rw [Memory.read_ofBytes, fileBytes_getD]
  simp only [bankByte]
  by_cases h1 : (bankLocation load b).inBank ≤ off
  · rw [if_pos h1, if_pos (by omega), if_pos ⟨h1, by omega⟩]
  · rw [if_neg h1, if_neg (by omega)]

/-- A filled slot is in canonical form. -/
theorem fill_wf (file : List Byte) (load : Addr) (b : Byte) :
    Memory.wf 0x1000 (Memory.ofBytes (bankLocation load b).inBank
      (fileBytes file (bankLocation load b).offset (bankLocation load b).len)) = true := by
  refine Memory.wf_ofBytes _ _ ?_
  have hlen := bankLocation_inBank_add_len load b
  rw [fileBytes_length]
  omega

/-- The memories stay in canonical form under a store into one slot. -/
theorem Engine.MemWf.setCache {e : Engine} (h : e.MemWf) (v : Fin 10) {m : Memory} (hm : Memory.wf 0x1000 m = true)
    {e' : Engine} (hs : e.SameBus e') (hc : e'.cache = e.cache.set v m) : e'.MemWf where
  ram := by rw [hs.ram]; exact h.ram
  shim := by rw [hs.shim]; exact h.shim
  flat := by rw [hs.flat]; exact h.flat
  cache := fun i => by
    rw [hc, get_set]
    split
    · exact hm
    · exact h.cache i

/-- And under what does not store into one. -/
theorem Engine.MemWf.same {e : Engine} (h : e.MemWf) {e' : Engine} (hs : e.SameBus e') (hc : e'.cache = e.cache) :
    e'.MemWf where
  ram := by rw [hs.ram]; exact h.ram
  shim := by rw [hs.shim]; exact h.shim
  flat := by rw [hs.flat]; exact h.flat
  cache := by rw [hc]; exact h.cache

/-- `load_bank` on a sound cache keeps every memory in canonical form and every loaded slot equal to its bank (R83,
R85). -/
theorem Engine.CacheInv.loadBank_content {e : Engine} (h : e.CacheInv) (hm : e.MemWf) (hcont : e.ContentInv) (r : Nat)
    (b : Byte) : (e.loadBank r b).MemWf ∧ (e.loadBank r b).ContentInv := by
  by_cases hr : r < 8
  swap
  · rw [Engine.loadBank_bad hr]
    exact ⟨hm.same ⟨rfl, rfl, rfl, rfl, rfl, rfl, rfl, rfl, rfl, rfl, rfl⟩ rfl, hcont⟩
  have heq := Engine.loadBank_eq ⟨r, hr⟩ b e
  simp only at heq
  obtain ⟨e1', v', hc', -, hfree, hload, hcache, -, -, -, -⟩ := h.chooseVictim
  have hsame1 := e.chooseVictim_sameBus
  rw [hc'] at hsame1
  simp only [Attempt.engine] at hsame1
  have hm1 : e1'.MemWf := hm.same hsame1 hcache
  have hcont1 : e1'.ContentInv := by
    intro i off hi hoff
    obtain ⟨h1, h2⟩ := hload i hi
    rw [hcache, hsame1.file, hsame1.header, h2]
    exact hcont i off h1 hoff
  rcases h.loadSteps ⟨r, hr⟩ b with ⟨i, l, -, -, hsteps, -⟩ | ⟨e1, v, e2, -, hc, hf, hsteps, -⟩ |
      ⟨e1, v, e2, l, -, hc, hf, -, hsteps, -⟩ <;> rw [hsteps] at heq <;> rw [heq]
  · exact ⟨hm.same ⟨rfl, rfl, rfl, rfl, rfl, rfl, rfl, rfl, rfl, rfl, rfl⟩ rfl, hcont⟩
  · rw [hc'] at hc
    obtain ⟨rfl, rfl⟩ : e1' = e1 ∧ v' = v := by simpa using hc
    rw [Engine.fill_eq] at hf
    split at hf
    swap
    · exact absurd hf (by simp)
    have he2 := (Attempt.raise.inj hf).1
    subst he2
    refine ⟨hm1.setCache v' (Memory.wf_nil _) ⟨rfl, rfl, rfl, rfl, rfl, rfl, rfl, rfl, rfl, rfl, rfl⟩ rfl, ?_⟩
    intro i off hi hoff
    change e1'.slotLoaded[i] = true at hi
    change (e1'.cache.set v' [])[i].read off = _
    rw [get_set, if_neg (by rintro rfl; rw [hfree] at hi; exact absurd hi (by decide))]
    exact hcont1 i off hi hoff
  · rw [hc'] at hc
    obtain ⟨rfl, rfl⟩ : e1' = e1 ∧ v' = v := by simpa using hc
    rw [Engine.fill_eq] at hf
    split at hf
    · exact absurd hf (by simp)
    have he2 := (Attempt.ok.inj hf).1
    subst he2
    refine ⟨hm1.setCache v' (fill_wf e1'.file e1'.header.loadAddress b)
      ⟨rfl, rfl, rfl, rfl, rfl, rfl, rfl, rfl, rfl, rfl, rfl⟩ rfl, ?_⟩
    intro i off hi hoff
    change (e1'.slotLoaded.set v' true)[i] = true at hi
    change ((e1'.cache.set v' _)[i] : Memory).read off =
      bankByte e1'.file e1'.header.loadAddress (e1'.slotBankId.set v' b)[i] off
    rw [get_set] at hi
    rw [get_set, get_set]
    by_cases hvi : v' = i
    · rw [if_pos hvi, if_pos hvi]; exact fill_content _ _ b hoff
    · rw [if_neg hvi, if_neg hvi]
      rw [if_neg hvi] at hi
      exact hcont1 i off hi hoff

end Sys2Proof.Machine
end

