-- ==== Sys2Proof/Laws/Decode.lean ====
section
/-! SUPPORT. The fields of a packed word, and the region of an address by range (spec/20_memory.md R33). -/

namespace Sys2Proof

@[simp] theorem packTxn_w (w : Bool) (a : Addr) (d : Byte) : (packTxn w a d).w = w := by
  simp only [packTxn, TxnWord.w, BitVec.getLsbD_append, BitVec.getLsbD_ofBool]
  simp

@[simp] theorem packTxn_a (w : Bool) (a : Addr) (d : Byte) : (packTxn w a d).a = a := by
  apply BitVec.eq_of_getLsbD_eq
  intro i hi
  simp only [packTxn, TxnWord.a, BitVec.getLsbD_extractLsb', BitVec.getLsbD_append]
  rw [if_neg (by omega)]
  simp [hi]

@[simp] theorem packTxn_d (w : Bool) (a : Addr) (d : Byte) : (packTxn w a d).d = d := by
  apply BitVec.eq_of_getLsbD_eq
  intro i hi
  simp only [packTxn, TxnWord.d, BitVec.getLsbD_extractLsb', BitVec.getLsbD_append]
  simp [hi]

/-- A word is the packing of its three fields (R49). -/
theorem packTxn_fields (t : TxnWord) : packTxn t.w t.a t.d = t := by
  apply BitVec.eq_of_getLsbD_eq
  intro i hi
  simp only [packTxn, TxnWord.w, TxnWord.a, TxnWord.d, BitVec.getLsbD_append, BitVec.getLsbD_extractLsb',
    BitVec.getLsbD_ofBool]
  by_cases h1 : i < 8
  · simp [h1]
  · by_cases h2 : i < 24
    · simp [h1, show i - 8 < 16 by omega, show 8 + (i - 8) = i by omega]
    · have : i = 24 := by omega
      subst this
      simp

/-- Decoding a packed word. -/
theorem decode_packTxn (w : Bool) (a : Addr) (d : Byte) :
    decode (packTxn w a d) = if w then decodeWrite a d else decodeRead a := by
  simp [decode]

/-! ## The ranges of R33 -/

theorem regionOf_ram {n : Nat} (h : n < 0x800) : regionOf (BitVec.ofNat 16 n) = .ram ⟨n, h⟩ := by
  have ht : (BitVec.ofNat 16 n).toNat = n := by rw [BitVec.toNat_ofNat]; omega
  simp only [regionOf, ht]
  rw [if_pos (by omega)]
  exact congrArg Region.ram (Fin.ext (Nat.mod_eq_of_lt h))

theorem regionOf_shim (i : Fin 0x80) : regionOf (BitVec.ofNat 16 (0x1000 + i.val)) = .shim i := by
  have ht : (BitVec.ofNat 16 (0x1000 + i.val)).toNat = 0x1000 + i.val := by rw [BitVec.toNat_ofNat]; omega
  simp only [regionOf, ht]
  rw [if_neg (by omega), if_neg (by omega), if_pos (by omega)]
  exact congrArg Region.shim (Fin.ext (by simp only [Fin.ofNat]; omega))

theorem regionOf_apu (n : Fin 0x18) : regionOf (BitVec.ofNat 16 (0x4000 + n.val)) = .apu n := by
  have ht : (BitVec.ofNat 16 (0x4000 + n.val)).toNat = 0x4000 + n.val := by rw [BitVec.toNat_ofNat]; omega
  simp only [regionOf, ht]
  rw [if_neg (by omega), if_neg (by omega), if_neg (by omega), if_neg (by omega), if_pos (by omega)]
  exact congrArg Region.apu (Fin.ext (by simp only [Fin.ofNat]; omega))

theorem regionOf_bankreg (k : Fin 8) : regionOf (BitVec.ofNat 16 (0x5FF8 + k.val)) = .bankreg k := by
  have ht : (BitVec.ofNat 16 (0x5FF8 + k.val)).toNat = 0x5FF8 + k.val := by rw [BitVec.toNat_ofNat]; omega
  simp only [regionOf, ht]
  rw [if_neg (by omega), if_neg (by omega), if_neg (by omega), if_neg (by omega), if_neg (by omega), if_neg (by omega),
    if_pos (by omega)]
  exact congrArg Region.bankreg (Fin.ext (by simp only [Fin.ofNat]; omega))

theorem regionOf_vec (i : Fin 6) : regionOf (BitVec.ofNat 16 (0xFFFA + i.val)) = .vec i := by
  have ht : (BitVec.ofNat 16 (0xFFFA + i.val)).toNat = 0xFFFA + i.val := by rw [BitVec.toNat_ofNat]; omega
  simp only [regionOf, ht]
  iterate 9 rw [if_neg (by omega)]
  exact congrArg Region.vec (Fin.ext (by simp only [Fin.ofNat]; omega))

/-- A window byte below the vectors. -/
theorem regionOf_rom (k : Fin 8) (off : Fin 0x1000) (h : romOperand k off = true) :
    regionOf (BitVec.ofNat 16 (0x8000 + 0x1000 * k.val + off.val)) = .rom k off := by
  have hlt : 0x1000 * k.val + off.val < 0x7FFA := by
    simp only [romOperand, Bool.not_eq_true', Bool.and_eq_false_iff, beq_eq_false_iff_ne, decide_eq_false_iff_not] at h
    rcases h with h | h
    · have : k.val ≠ 7 := fun h7 => h (Fin.ext h7)
      omega
    · omega
  have ht : (BitVec.ofNat 16 (0x8000 + 0x1000 * k.val + off.val)).toNat = 0x8000 + 0x1000 * k.val + off.val := by
    rw [BitVec.toNat_ofNat]; omega
  simp only [regionOf, ht]
  iterate 8 rw [if_neg (by omega)]
  rw [if_pos (by omega)]
  exact congrArg₂ Region.rom (Fin.ext (by simp only [Fin.ofNat]; omega)) (Fin.ext (by simp only [Fin.ofNat]; omega))

theorem regionOf_open (a : Addr) (h : openAddr a = true) : regionOf a = .unmapped a := by
  simp only [openAddr, Bool.or_eq_true, Bool.and_eq_true, decide_eq_true_eq] at h
  simp only [regionOf]
  rcases h with ((h | h) | h) | h
  · rw [if_neg (by omega), if_pos (by omega)]
  · rw [if_neg (by omega), if_neg (by omega), if_neg (by omega), if_pos (by omega)]
  · iterate 5 rw [if_neg (by omega)]
    rw [if_pos (by omega)]
  · iterate 7 rw [if_neg (by omega)]
    rw [if_pos (by omega)]

/-- Every address lies in one region, at the index R50 gives. -/
theorem regionOf_cases (a : Addr) :
    (∃ i : Fin 0x800, a.toNat = i.val ∧ regionOf a = .ram i) ∨
    (∃ i : Fin 0x80, a.toNat = 0x1000 + i.val ∧ regionOf a = .shim i) ∨
    (∃ n : Fin 0x18, a.toNat = 0x4000 + n.val ∧ regionOf a = .apu n) ∨
    (∃ k : Fin 8, a.toNat = 0x5FF8 + k.val ∧ regionOf a = .bankreg k) ∨
    (∃ (k : Fin 8) (off : Fin 0x1000), romOperand k off = true ∧ a.toNat = 0x8000 + 0x1000 * k.val + off.val ∧
      regionOf a = .rom k off) ∨
    (∃ i : Fin 6, a.toNat = 0xFFFA + i.val ∧ regionOf a = .vec i) ∨
    (openAddr a = true ∧ regionOf a = .unmapped a) := by
  have hlt := a.isLt
  have key : ∀ n : Nat, a.toNat = n → a = BitVec.ofNat 16 n := fun n hn => by rw [← hn]; simp
  by_cases h1 : a.toNat < 0x800
  · exact Or.inl ⟨⟨a.toNat, h1⟩, rfl, (congrArg regionOf (key _ rfl)).trans (regionOf_ram h1)⟩
  right
  by_cases h2 : 0x1000 ≤ a.toNat ∧ a.toNat < 0x1080
  · have hn : a.toNat = 0x1000 + (a.toNat - 0x1000) := by omega
    exact Or.inl ⟨⟨a.toNat - 0x1000, by omega⟩, hn,
      (congrArg regionOf (key _ hn)).trans (regionOf_shim ⟨a.toNat - 0x1000, by omega⟩)⟩
  right
  by_cases h3 : 0x4000 ≤ a.toNat ∧ a.toNat < 0x4018
  · have hn : a.toNat = 0x4000 + (a.toNat - 0x4000) := by omega
    exact Or.inl ⟨⟨a.toNat - 0x4000, by omega⟩, hn,
      (congrArg regionOf (key _ hn)).trans (regionOf_apu ⟨a.toNat - 0x4000, by omega⟩)⟩
  right
  by_cases h4 : 0x5FF8 ≤ a.toNat ∧ a.toNat < 0x6000
  · have hn : a.toNat = 0x5FF8 + (a.toNat - 0x5FF8) := by omega
    exact Or.inl ⟨⟨a.toNat - 0x5FF8, by omega⟩, hn,
      (congrArg regionOf (key _ hn)).trans (regionOf_bankreg ⟨a.toNat - 0x5FF8, by omega⟩)⟩
  right
  by_cases h5 : 0x8000 ≤ a.toNat ∧ a.toNat < 0xFFFA
  · have hk : (a.toNat - 0x8000) / 0x1000 < 8 := by omega
    have ho : a.toNat % 0x1000 < 0x1000 := Nat.mod_lt _ (by decide)
    have hn : a.toNat = 0x8000 + 0x1000 * ((a.toNat - 0x8000) / 0x1000) + a.toNat % 0x1000 := by omega
    have hrom : romOperand ⟨_, hk⟩ ⟨_, ho⟩ = true := by
      simp only [romOperand, Bool.not_eq_true', Bool.and_eq_false_iff, beq_eq_false_iff_ne, decide_eq_false_iff_not]
      by_cases h7 : (a.toNat - 0x8000) / 0x1000 = 7
      · right; omega
      · left; exact fun hc => h7 (congrArg Fin.val hc)
    exact Or.inl ⟨⟨_, hk⟩, ⟨_, ho⟩, hrom, hn,
      (congrArg regionOf (key _ hn)).trans (regionOf_rom ⟨_, hk⟩ ⟨_, ho⟩ hrom)⟩
  right
  by_cases h6 : 0xFFFA ≤ a.toNat
  · have hn : a.toNat = 0xFFFA + (a.toNat - 0xFFFA) := by omega
    exact Or.inl ⟨⟨a.toNat - 0xFFFA, by omega⟩, hn,
      (congrArg regionOf (key _ hn)).trans (regionOf_vec ⟨a.toNat - 0xFFFA, by omega⟩)⟩
  right
  have ho : openAddr a = true := by
    simp only [openAddr, Bool.or_eq_true, Bool.and_eq_true, decide_eq_true_eq]
    omega
  exact ⟨ho, regionOf_open a ho⟩

end Sys2Proof
end

