-- ==== Sys2Proof/Laws/Exec.lean ====
section
/-! SUPPORT. Everything a bus transaction can do, said once: what it does to a live engine, and that `exec` is that effect
behind the test of the fault record. -/

namespace Sys2Proof.Machine

/-- What a transaction does to a live engine, and the byte it answers (0 for a write, which answers nothing). -/
def Engine.applyTxn (i : Instr) (e : Engine) : Engine × Byte :=
  match i with
  | .rdRam x => (e, e.ram.read x.val)
  | .rdShim x => (e, e.shim.read x.val)
  | .rdApu n => (e, e.apuRegs[n])
  | .rdBankreg k => (e, e.bankRegs[k])
  | .rdRom k off => e.readRom k off
  | .rdVec x => (e, e.intVecs[x])
  | .rdOpen _ => (e, 0#8)
  | .wrRam x v => ({ e with ram := e.ram.write x.val v }, 0#8)
  | .wrShim _ _ => (e, 0#8)
  | .wrApu n v => ((e.setApu n v).emit (.apuWrite (apuAddr n) v), 0#8)
  | .wrApuStrobe v => (e.setApu 0x16 v, 0#8)
  | .wrBankreg k v => (e.writeBankreg k v, 0#8)
  | .wrRom _ _ _ => (e, 0#8)
  | .wrVec _ _ => (e, 0#8)
  | .wrOpen _ _ => (e, 0#8)

/-- What a transaction returns to the CPU. -/
def txnOutput (i : Instr) (v : Byte) : Output := if i.isWrite then .writeDone else .readData v

/-- `exec`, as one equation. -/
theorem exec_eq (i : Instr) (s : State) :
    exec i s =
      .next (if s.eng.faulted then { s with out := txnOutput i 0#8 }
        else { s with eng := (s.eng.applyTxn i).1, out := txnOutput i (s.eng.applyTxn i).2 }) := by
  cases i <;> cases h : s.eng.faulted <;>
    simp [exec, execRdRam, execRdShim, execRdApu, execRdBankreg, execRdRom, execRdVec, execRdOpen, execWrRam, execWrShim,
      execWrApu, execWrApuStrobe, execWrBankreg, execWrRom, execWrVec, execWrOpen, readTxn, writeTxn, h, txnOutput,
      Instr.isWrite, Engine.applyTxn]

/-- On a live engine. -/
theorem exec_live (i : Instr) {s : State} (h : s.eng.fault = none) :
    exec i s = .next { s with eng := (s.eng.applyTxn i).1, out := txnOutput i (s.eng.applyTxn i).2 } := by
  rw [exec_eq]; simp [Engine.faulted, h]

/-- On a faulted engine. -/
theorem exec_faulted (i : Instr) {s : State} {r : FaultRecord} (h : s.eng.fault = some r) :
    exec i s = .next { s with out := txnOutput i 0#8 } := by
  rw [exec_eq]; simp [Engine.faulted, h]

/-- The four ways a ROM read goes on a live engine (R63). -/
theorem Engine.readRom_cases (k : Fin 8) (off : Fin 0x1000) (e : Engine) :
    (∃ (i : Fin 10) (l : Vector (Option Byte) 10), e.win[k] = .cache i ∧ e.slotLoaded[i] = true ∧
      lruTouch e.slotBankId[i] e.lru = some l ∧ e.readRom k off = ({ e with lru := l }, e.cache[i].read off.val)) ∨
    (∃ (i : Fin 10) (info : FaultInfo), e.win[k] = .cache i ∧
      (e.slotLoaded[i] = false ∨ lruTouch e.slotBankId[i] e.lru = none) ∧
      e.readRom k off = (e.raiseFault .internalError info, 0#8)) ∨
    (e.win[k] = .flat ∧ e.readRom k off = (e, e.flatByte (0x1000 * k.val + off.val))) ∨
    (e.win[k] = .unmapped ∧ e.readRom k off = (e.emit (.diag (.unmappedRomRead (romAddr k off))), 0#8)) := by
  unfold Engine.readRom translate
  cases hw : e.win[k] with
  | unmapped => simp
  | flat => simp
  | cache i =>
    cases hl : e.slotLoaded[i]
    · refine Or.inr (Or.inl ⟨i, .windowUnloaded k i, rfl, Or.inl hl, ?_⟩)
      simp [hl]
    · rcases e.touch_eq e.slotBankId[i] with ⟨l, h1, h2⟩ | ⟨h1, h2⟩
      · refine Or.inl ⟨i, l, rfl, hl, h1, ?_⟩
        simp only [hl, if_true, h2]
      · refine Or.inr (Or.inl ⟨i, .lruFull e.slotBankId[i], rfl, Or.inr h1, ?_⟩)
        simp only [hl, if_true, h2]

end Sys2Proof.Machine
end

