-- ==== Sys2Proof/Laws/Init.lean ====
section
/-! SUPPORT. What the reset steps of `playback_init` can do (spec/70_reset_and_hazards.md R108 to R112). -/

namespace Sys2Proof.Machine

theorem mem_windowIxs (k : Fin 8) : k ∈ windowIxs := by
  fin_cases k <;> decide

/-- The shim image fits the shim. -/
theorem shimImage_wf (song region : Byte) (h : Header) : Memory.wf 0x80 (Memory.ofBytes 0 (shimImage song region h)) = true :=
  Memory.wf_ofBytes _ _ (by simp [shimImage])

/-- The cleared cache satisfies R82 (D12). -/
theorem Engine.clearCache_cacheInv (e : Engine) : e.clearCache.CacheInv := by
  have hcount : e.clearCache.loadedCount = 0 := by
    simp only [Engine.loadedCount, Engine.clearCache_slotLoaded, get_replicate]
    decide
  constructor
  · intro i hi
    rw [Engine.clearCache_slotLoaded, get_replicate] at hi
    exact absurd hi (by decide)
  · intro j j' b hj
    rw [Engine.clearCache_lru, get_replicate] at hj
    exact absurd hj (by simp)
  · intro i _
    rw [Engine.clearCache_slotBankId, get_replicate]
  · intro j b hj
    rw [Engine.clearCache_lru, get_replicate] at hj
    exact absurd hj (by simp)
  · intro k i hk
    rw [Engine.clearCache_win, get_replicate] at hk
    exact absurd hk (by simp)
  · intro k _
    rw [Engine.clearCache_winBank, get_replicate]
  · intro j
    rw [hcount, Engine.clearCache_lru, get_replicate]
    simp
  · intro i i' hi
    rw [Engine.clearCache_slotLoaded, get_replicate] at hi
    exact absurd hi (by decide)
  · intro k hk
    rw [Engine.clearCache_win, get_replicate] at hk
    exact absurd hk (by simp)

/-- A property that every load keeps, `InitBanked` keeps from the cleared cache on (R111). -/
theorem Engine.initBanked_induct (P : Engine → Prop) (e : Engine) (h0 : P e.clearCache)
    (hstep : ∀ (e : Engine) (k : Fin 8), P e → e.faulted = false → P (e.loadBank k.val e.header.bankswitch[k])) :
    P e.initBanked := by
  unfold Engine.initBanked
  generalize windowIxs = ks
  generalize e.clearCache = e0 at h0
  induction ks generalizing e0 with
  | nil => exact h0
  | cons k ks ih =>
    refine ih _ ?_
    unfold Engine.initLoad
    cases hf : e0.faulted
    · simpa [hf] using hstep e0 k h0 hf
    · simpa [hf] using h0

/-- Everything `InitContig` can do (R112). -/
theorem Engine.initContig_eq (e : Engine) :
    e.initContig =
      if e.ioFail.headD false = true then .raise { e with flat := some [], ioFail := e.ioFail.tail } .ioError .contigRead
      else
        .ok
          { e with
            flat := some (Memory.ofBytes (e.header.loadAddress.toNat - 0x8000)
              (fileBytes e.file Config.bodyOff (0xFFFF - e.header.loadAddress.toNat)))
            ioFail := e.ioFail.tail
            events := e.events ++
              (if (fileBytes e.file Config.bodyOff (0xFFFF - e.header.loadAddress.toNat)).length <
                  0xFFFF - e.header.loadAddress.toNat then
                [.diag (.shortRomRead .contig
                  (fileBytes e.file Config.bodyOff (0xFFFF - e.header.loadAddress.toNat)).length
                  (0xFFFF - e.header.loadAddress.toNat))]
              else [])
            win := Vector.replicate 8 .flat
            winBank := Vector.replicate 8 0#8
            romMode := .contiguous } () := by
  unfold Engine.initContig
  simp only [Engine.readFile_eq]
  split
  · rfl
  · rw [Attempt.andThen_ok, Engine.noteShort_eq]

/-- Everything the reset steps can do (R107 to R112). -/
theorem Engine.initSteps_cases (song region : Byte) (sink : Nat) (e : Engine) :
    (e.header.loadAddress.toNat < 0x8000 ∧
      e.initSteps song region sink = e.raiseFault .badLoadAddress (.loadAddress e.header.loadAddress)) ∨
    (0x8000 ≤ e.header.loadAddress.toNat ∧ e.header.banked = true ∧
      e.initSteps song region sink = (e.initCommon song region sink).initBanked) ∨
    (0x8000 ≤ e.header.loadAddress.toNat ∧ e.header.banked = false ∧
      ((∃ e', (e.initCommon song region sink).initContig = .ok e' () ∧ e.initSteps song region sink = e') ∨
        (∃ e', (e.initCommon song region sink).initContig = .raise e' .ioError .contigRead ∧
          e.initSteps song region sink = e'.raiseFault .ioError .contigRead))) := by
  unfold Engine.initSteps
  by_cases hl : e.header.loadAddress.toNat < 0x8000
  · exact Or.inl ⟨hl, by rw [if_pos hl]⟩
  · right
    have hl' : 0x8000 ≤ e.header.loadAddress.toNat := by omega
    rw [if_neg hl]
    cases hb : e.header.banked
    · refine Or.inr ⟨hl', rfl, ?_⟩
      have hc := (e.initCommon song region sink).initContig_eq
      split at hc
      · exact Or.inr ⟨_, hc, by simp [hc]⟩
      · exact Or.inl ⟨_, hc, by simp [hc]⟩
    · exact Or.inl ⟨hl', rfl, by simp⟩

/-- Past the address check the regions that `InitCommon` sets stay as it sets them, whether or not a later step faults
(R109 to R112, D8). -/
theorem Engine.initSteps_regions (song region : Byte) (sink : Nat) (e : Engine) (hl : 0x8000 ≤ e.header.loadAddress.toNat) :
    (e.initSteps song region sink).ram = (e.initCommon song region sink).ram ∧
    (e.initSteps song region sink).shim = (e.initCommon song region sink).shim ∧
    (e.initSteps song region sink).apuRegs = (e.initCommon song region sink).apuRegs ∧
    (e.initSteps song region sink).bankRegs = (e.initCommon song region sink).bankRegs ∧
    (e.initSteps song region sink).intVecs = (e.initCommon song region sink).intVecs := by
  rcases e.initSteps_cases song region sink with ⟨h, _⟩ | ⟨_, _, h⟩ | ⟨_, _, ⟨e', hc, h⟩ | ⟨e', hc, h⟩⟩
  · omega
  · rw [h]
    refine Engine.initBanked_induct
      (fun x => x.ram = (e.initCommon song region sink).ram ∧ x.shim = (e.initCommon song region sink).shim ∧
        x.apuRegs = (e.initCommon song region sink).apuRegs ∧ x.bankRegs = (e.initCommon song region sink).bankRegs ∧
        x.intVecs = (e.initCommon song region sink).intVecs) _ ⟨rfl, rfl, rfl, rfl, rfl⟩ ?_
    intro x k hx _
    have hs := x.loadBank_sameBus k.val x.header.bankswitch[k]
    exact ⟨hs.ram.trans hx.1, hs.shim.trans hx.2.1, hs.apuRegs.trans hx.2.2.1, hs.bankRegs.trans hx.2.2.2.1,
      hs.intVecs.trans hx.2.2.2.2⟩
  · rw [Engine.initContig_eq] at hc
    split at hc
    · cases hc
    · cases hc; rw [h]; exact ⟨rfl, rfl, rfl, rfl, rfl⟩
  · rw [Engine.initContig_eq] at hc
    split at hc
    · cases hc; rw [h]; exact ⟨rfl, rfl, rfl, rfl, rfl⟩
    · cases hc

end Sys2Proof.Machine
end

