-- ==== Sys2Proof/Laws/Host.lean ====
section
/-! SUPPORT. What the host operations, the CPU's returns and a step can do (spec/43_host_ops.md,
spec/70_reset_and_hazards.md), said once. -/

namespace Sys2Proof.Machine

/-- Everything `open` can do (R88). -/
theorem callOpen_cases (file : List Byte) (ioFail : List Bool) (s : State) :
    (s.status = .active ∧ callOpen file ioFail s = s.returning (.err .alreadyOpen)) ∨
    (s.status ≠ .active ∧ ∃ io kind, readHeader file ioFail = (io, .error kind) ∧
      callOpen file ioFail s = s.returning (.err kind)) ∨
    (s.status ≠ .active ∧ ∃ io h diags, readHeader file ioFail = (io, .ok (h, diags)) ∧
      callOpen file ioFail s = { s with
        eng := Engine.atOpen h diags file io, status := .active
        failed := if s.status = .detached then s.failed ++ [s.eng] else s.failed, out := .hostReturn .ok }) := by
  unfold callOpen
  by_cases ha : s.status = .active
  · exact Or.inl ⟨ha, by rw [if_pos ha]⟩
  · right
    rw [if_neg ha]
    rcases hr : readHeader file ioFail with ⟨io, res⟩
    cases res with
    | error kind => exact Or.inl ⟨ha, io, kind, rfl, rfl⟩
    | ok p => exact Or.inr ⟨ha, io, p.1, p.2, rfl, rfl⟩

/-- Everything `playback_init` can do before its CPU run (R107, R114). -/
theorem callInit_cases (whole : Bool) (song region : Byte) (sink : Nat) (s : State) :
    (∃ kind, s.eng.faultKind = some kind ∧ callInit whole song region sink s = s.returning (.err kind)) ∨
    (s.eng.fault = none ∧ ∃ kind, (s.eng.initSteps song region sink).faultKind = some kind ∧
      callInit whole song region sink s = s.failInit kind (s.eng.initSteps song region sink)) ∨
    (s.eng.fault = none ∧ (s.eng.initSteps song region sink).fault = none ∧
      callInit whole song region sink s =
        if whole then { s with eng := s.eng.initSteps song region sink, run := .initRun, out := .nothing }
        else { s with eng := s.eng.initSteps song region sink, out := .hostReturn .ok }) := by
  unfold callInit
  cases h : s.eng.faultKind with
  | some kind => exact Or.inl ⟨kind, rfl, rfl⟩
  | none =>
    right
    have h' := (Engine.faultKind_eq_none _).1 h
    cases h2 : (s.eng.initSteps song region sink).faultKind with
    | some kind => exact Or.inl ⟨h', kind, rfl, by simp⟩
    | none => exact Or.inr ⟨h', (Engine.faultKind_eq_none _).1 h2, by simp⟩

/-- Everything `playback_frame` can do before its CPU run (R90, R98). -/
theorem callFrame_cases (s : State) :
    (∃ kind, s.eng.faultKind = some kind ∧ callFrame s = s.returning (.err kind)) ∨
    (s.eng.fault = none ∧ (s.eng.initialised = false ∨ s.cpuPc ≠ Config.idlePc) ∧
      callFrame s = s.returning (.err .invalidState)) ∨
    (s.eng.fault = none ∧ s.eng.initialised = true ∧ s.cpuPc = Config.idlePc ∧
      callFrame s = { s with run := .frameRun, out := .nothing }) := by
  unfold callFrame
  cases h : s.eng.faultKind with
  | some kind => exact Or.inl ⟨kind, rfl, rfl⟩
  | none =>
    right
    have h' := (Engine.faultKind_eq_none _).1 h
    by_cases hi : s.eng.initialised = false
    · exact Or.inl ⟨h', Or.inl hi, by simp [hi]⟩
    · by_cases hp : s.cpuPc = Config.idlePc
      · exact Or.inr ⟨h', by simpa using hi, hp, by simp only [if_neg hi, hp]; simp⟩
      · exact Or.inl ⟨h', Or.inr hp, by simp only [if_neg hi]; rw [if_pos hp]⟩

/-- Everything a return of the CPU can do (R113, R90). -/
theorem cpuReturned_cases (pc : Addr) (s : State) :
    (s.run = .idle ∧ cpuReturned pc s = { s with cpuPc := pc, out := .nothing }) ∨
    (s.run = .initRun ∧ ∃ kind, s.eng.faultKind = some kind ∧
      cpuReturned pc s = { s with cpuPc := pc, eng := { s.eng with initialised := false }, status := .detached, run := .idle, out := .hostReturn (.err kind) }) ∨
    (s.run = .initRun ∧ s.eng.fault = none ∧ pc = Config.idlePc ∧
      cpuReturned pc s = { s with cpuPc := pc, eng := { s.eng with initialised := true }, run := .idle, out := .hostReturn .ok }) ∨
    (s.run = .frameRun ∧ ∃ kind, s.eng.faultKind = some kind ∧
      cpuReturned pc s = { s with cpuPc := pc, run := .idle, out := .hostReturn (.err kind) }) ∨
    (s.run = .frameRun ∧ s.eng.fault = none ∧ pc = Config.idlePc ∧
      cpuReturned pc s = { s with cpuPc := pc, run := .idle, out := .hostReturn .ok }) ∨
    (s.run ≠ .idle ∧ s.eng.fault = none ∧ pc ≠ Config.idlePc ∧
      cpuReturned pc s = { s with cpuPc := pc, out := .nothing }) := by
  cases hr : s.run with
  | idle => exact Or.inl ⟨rfl, by simp [cpuReturned, hr]⟩
  | initRun =>
    cases h : s.eng.faultKind with
    | some kind =>
      exact Or.inr (Or.inl ⟨rfl, kind, rfl, by simp [cpuReturned, hr, h, State.failInit]⟩)
    | none =>
      have h' := (Engine.faultKind_eq_none _).1 h
      by_cases hp : pc = Config.idlePc
      · exact Or.inr (Or.inr (Or.inl ⟨rfl, h', hp, by simp only [cpuReturned, hr, h]; rw [if_pos hp]⟩))
      · refine Or.inr (Or.inr (Or.inr (Or.inr (Or.inr ⟨by simp, h', hp, ?_⟩))))
        simp only [cpuReturned, hr, h]; rw [if_neg hp]
  | frameRun =>
    right; right; right
    cases h : s.eng.faultKind with
    | some kind => exact Or.inl ⟨rfl, kind, rfl, by simp [cpuReturned, hr, h]⟩
    | none =>
      have h' := (Engine.faultKind_eq_none _).1 h
      by_cases hp : pc = Config.idlePc
      · exact Or.inr (Or.inl ⟨rfl, h', hp, by simp only [cpuReturned, hr, h]; rw [if_pos hp]⟩)
      · refine Or.inr (Or.inr ⟨by simp, h', hp, ?_⟩)
        simp only [cpuReturned, hr, h]; rw [if_neg hp]

/-- No host call runs while another is in progress (R86). -/
theorem hostCall_busy (op : HostOp) {s : State} (h : s.run ≠ .idle) : hostCall op s = .fault .hostCallInProgress := by
  simp [hostCall, h]

/-- Everything the trace line `LOADBANK` can do (R55, R74). -/
theorem callLoadBank_cases (r : Nat) (b : Byte) (s : State) :
    (∃ kind, s.eng.faultKind = some kind ∧ callLoadBank r b s = s.returning (.err kind)) ∨
    (s.eng.fault = none ∧ ∃ kind, (s.eng.loadBank r b).faultKind = some kind ∧
      callLoadBank r b s = { s with eng := s.eng.loadBank r b, out := .hostReturn (.err kind) }) ∨
    (s.eng.fault = none ∧ (s.eng.loadBank r b).fault = none ∧
      callLoadBank r b s = { s with eng := s.eng.loadBank r b, out := .hostReturn .ok }) := by
  unfold callLoadBank
  cases h : s.eng.faultKind with
  | some kind => exact Or.inl ⟨kind, rfl, rfl⟩
  | none =>
    right
    have h' := (Engine.faultKind_eq_none _).1 h
    cases h2 : (s.eng.loadBank r b).faultKind with
    | some kind => exact Or.inl ⟨h', kind, rfl, rfl⟩
    | none => exact Or.inr ⟨h', (Engine.faultKind_eq_none _).1 h2, rfl⟩

/-- Everything an operation on an engine that `open` replaced can do: the recorded kind is returned and nothing else changes
(R97, D42); with no fault recorded, which no run reaches, or no such engine, it stops. -/
theorem callOnFailed_cases (k : Nat) (s : State) :
    (∃ e r, s.failed[k]? = some e ∧ e.fault = some r ∧ callOnFailed k s = .next (s.returning (.err r.kind))) ∨
    ((∀ e r, s.failed[k]? = some e → e.fault ≠ some r) ∧ callOnFailed k s = .fault .noSuchEngine) := by
  unfold callOnFailed
  cases hk : s.failed[k]? with
  | none => exact Or.inr ⟨by simp, rfl⟩
  | some e =>
    cases hf : e.fault with
    | none => exact Or.inr ⟨by rintro _ r ⟨rfl⟩; simp [hf], by simp [Engine.faultKind, hf]⟩
    | some r => exact Or.inl ⟨e, r, rfl, hf, by simp [Engine.faultKind, hf]⟩

/-- What a step is, by the next input. -/
theorem step_nil {s : State} (h : s.inputs = []) : step s = .next s := by
  simp [step, State.nextInput, h]

theorem step_cons {s : State} {i : Input} {rest : List Input} (h : s.inputs = i :: rest) :
    step s = perform i { s with inputs := rest } := by
  simp [step, State.nextInput, h]

end Sys2Proof.Machine
end

