-- ==== Sys2Proof/Laws/Invariant.lean ====
section
/-! SUPPORT. The engine's invariant (Safety.lean) is kept by each operation on an engine. -/

namespace Sys2Proof.Machine

/-- The canonical form speaks of four fields only. -/
theorem Engine.MemWf.congr {e e' : Engine} (h : e.MemWf) (h1 : e'.ram = e.ram) (h2 : e'.shim = e.shim)
    (h3 : e'.flat = e.flat) (h4 : e'.cache = e.cache) : e'.MemWf := by
  obtain ⟨a, b, c, d⟩ := h
  constructor <;> simp only [h1, h2, h3, h4] <;> assumption

/-- R83 speaks of five fields only. -/
theorem Engine.ContentInv.congr {e e' : Engine} (h : e.ContentInv) (h1 : e'.cache = e.cache)
    (h2 : e'.slotLoaded = e.slotLoaded) (h3 : e'.slotBankId = e.slotBankId)
    (h4 : e'.file = e.file) (h5 : e'.header = e.header) : e'.ContentInv := by
  unfold Engine.ContentInv; simp only [h1, h2, h3, h4, h5]; exact h

/-- `load_bank` keeps the engine's invariant. -/
theorem Engine.Inv.loadBank {e : Engine} (h : e.Inv) (r : Nat) (b : Byte) : (e.loadBank r b).Inv := by
  have hs := e.loadBank_sameBus r b
  obtain ⟨hm, hc⟩ := h.bank.loadBank_content h.mem h.content r b
  obtain ⟨hb, hf⟩ := h.bank.loadBank r b
  refine ⟨hm, hb, hc, ?_, ?_, ?_, ?_⟩
  · intro f hf'
    rcases hf with hf | hf | ⟨-, hf⟩ <;> rw [hf] at hf'
    · exact h.noInternal f hf'
    · cases hf'; simp
    · cases hf'; simp
  · rcases h.shim with h1 | ⟨a, b, h1⟩
    · left; rw [hs.shim, h1]
    · right; exact ⟨a, b, by rw [hs.shim, hs.header, h1]⟩
  · rw [hs.intVecs, h.vectors]
  · rw [hs.initialised, hs.romMode, hs.header]; exact h.ready

/-- What the engine's invariant does not speak of may change; a fault that is no `InternalError` may be set, and
`initialised` cleared. -/
theorem Engine.Inv.congr {e e' : Engine} (h : e.Inv) (h1 : e'.lru = e.lru) (h2 : e'.slotLoaded = e.slotLoaded)
    (h3 : e'.slotBankId = e.slotBankId) (h4 : e'.win = e.win) (h5 : e'.winBank = e.winBank) (h6 : e'.romMode = e.romMode)
    (h7 : e'.flat = e.flat) (h8 : e'.ram = e.ram) (h9 : e'.shim = e.shim) (h10 : e'.cache = e.cache) (h11 : e'.file = e.file)
    (h12 : e'.header = e.header) (h13 : e'.fault = e.fault ∨ ∃ r, e'.fault = some r ∧ r.kind ≠ .internalError)
    (h14 : e'.intVecs = e.intVecs)
    (h15 : e'.initialised = e.initialised ∨ e'.initialised = false) : e'.Inv := by
  refine ⟨Engine.MemWf.congr h.mem h8 h9 h7 h10, h.bank.congr h1 h2 h3 h4 h5 h6 h7,
    Engine.ContentInv.congr h.content h10 h2 h3 h11 h12, ?_, ?_, ?_, ?_⟩
  · rcases h13 with h13 | ⟨r, h13, hk⟩
    · intro r hr; rw [h13] at hr; exact h.noInternal r hr
    · intro r' hr; rw [h13] at hr; cases hr; exact hk
  · rcases h.shim with h' | ⟨a, b, h'⟩
    · left; rw [h9, h']
    · right; exact ⟨a, b, by rw [h9, h12, h']⟩
  · rw [h14, h.vectors]
  · rw [h6, h12]; rcases h15 with h15 | h15
    · rw [h15]; exact h.ready
    · rw [h15]; simp

/-- On a sound engine a ROM read raises no fault and keeps the invariant. -/
theorem Engine.Inv.readRom {e : Engine} (h : e.Inv) (k : Fin 8) (off : Fin 0x1000) :
    (e.readRom k off).1.Inv ∧ (e.readRom k off).1.fault = e.fault := by
  rcases e.readRom_cases k off with ⟨i, l, hw, hl, ht, hr⟩ | ⟨i, info, hw, hbad, hr⟩ | ⟨_, hr⟩ | ⟨_, hr⟩
  · rw [hr]
    obtain ⟨j, hj⟩ := h.bank.listed i hl
    obtain ⟨l', h1, h2, h3⟩ := h.bank.touch hj
    rw [ht] at h1; cases h1
    exact ⟨⟨Engine.MemWf.congr h.mem rfl rfl rfl rfl, h3,
      Engine.ContentInv.congr h.content rfl rfl rfl rfl rfl, h.noInternal, h.shim, h.vectors, h.ready⟩, rfl⟩
  · exfalso
    have hl := (h.bank.shown k i hw).1
    rcases hbad with hb | hb
    · rw [hl] at hb; cases hb
    · obtain ⟨j, hj⟩ := h.bank.listed i hl
      obtain ⟨l', h1, h2, h3⟩ := h.bank.touch hj
      rw [hb] at h1; cases h1
  · rw [hr]; exact ⟨h, rfl⟩
  · rw [hr]
    exact ⟨Engine.Inv.congr h rfl rfl rfl rfl rfl rfl rfl rfl rfl rfl rfl rfl (Or.inl rfl) rfl (Or.inl rfl), rfl⟩

/-- Every transaction keeps the engine's invariant. -/
theorem Engine.Inv.applyTxn {e : Engine} (h : e.Inv) (i : Instr) : (e.applyTxn i).1.Inv := by
  cases i <;> try exact h
  case rdRom k off => exact (Engine.Inv.readRom h k off).1
  case wrRam x v =>
    exact ⟨⟨Memory.wf_write h.mem.ram x.2 v, h.mem.shim, h.mem.flat, h.mem.cache⟩,
      h.bank.congr rfl rfl rfl rfl rfl rfl rfl, Engine.ContentInv.congr h.content rfl rfl rfl rfl rfl, h.noInternal, h.shim, h.vectors, h.ready⟩
  case wrApu => exact Engine.Inv.congr h rfl rfl rfl rfl rfl rfl rfl rfl rfl rfl rfl rfl (Or.inl rfl) rfl (Or.inl rfl)
  case wrApuStrobe => exact Engine.Inv.congr h rfl rfl rfl rfl rfl rfl rfl rfl rfl rfl rfl rfl (Or.inl rfl) rfl (Or.inl rfl)
  case wrBankreg k v =>
    simp only [Engine.applyTxn, Engine.writeBankreg]
    split
    · exact h
    · have := Engine.Inv.congr (e' := { e with bankRegs := e.bankRegs.set k v }) h
        rfl rfl rfl rfl rfl rfl rfl rfl rfl rfl rfl rfl (Or.inl rfl) rfl (Or.inl rfl)
      exact Engine.Inv.loadBank this _ _

/-- R109 keeps the engine's invariant. -/
theorem Engine.Inv.initCommon {e : Engine} (h : e.Inv) (song region : Byte) (sink : Nat) :
    (e.initCommon song region sink).Inv := by
  refine ⟨⟨rfl, shimImage_wf _ _ _, h.mem.flat, h.mem.cache⟩,
    h.bank.congr rfl rfl rfl rfl rfl rfl rfl, Engine.ContentInv.congr h.content rfl rfl rfl rfl rfl, h.noInternal,
    Or.inr ⟨song, region, rfl⟩, rfl, ?_⟩
  intro hc; cases hc

/-- The reset steps keep the engine's invariant, and where none raised a fault the engine is ready for its CPU run. -/
theorem Engine.Inv.initSteps {e : Engine} (h : e.Inv) (song region : Byte) (sink : Nat) :
    (e.initSteps song region sink).Inv ∧
    ((e.initSteps song region sink).fault = none → (e.initSteps song region sink).initialised = false ∧
      0x8000 ≤ (e.initSteps song region sink).header.loadAddress.toNat ∧ (e.initSteps song region sink).romMode ≠ .unset) := by
  have hcom := Engine.Inv.initCommon h song region sink
  rcases e.initSteps_cases song region sink with ⟨hl, h1⟩ | ⟨hl, -, h1⟩ | ⟨hl, -, ⟨e', h2, h1⟩ | ⟨e', h2, h1⟩⟩ <;> rw [h1]
  · exact ⟨Engine.Inv.congr h rfl rfl rfl rfl rfl rfl rfl rfl rfl rfl rfl rfl (Or.inr ⟨_, rfl, by simp⟩)
      rfl (Or.inl rfl), by simp [Engine.raiseFault]⟩
  · have := Engine.initBanked_induct
      (fun e' => e'.Inv ∧ e'.initialised = false ∧ e'.header = e.header ∧ e'.romMode = .banked) (e.initCommon song region sink) ?_ ?_
    · exact ⟨this.1, fun _ => ⟨this.2.1, by rw [this.2.2.1]; exact hl, by rw [this.2.2.2]; simp⟩⟩
    · refine ⟨⟨⟨hcom.mem.ram, hcom.mem.shim, (by intro m hm; cases hm), ?_⟩,
        Engine.clearCache_cacheInv _, ?_, hcom.noInternal, hcom.shim, hcom.vectors, ?_⟩, rfl, rfl, rfl⟩
      · intro i; simp [Engine.clearCache]
      · intro i off hi; simp [Engine.clearCache] at hi
      · intro hc; cases hc
    · rintro e' k ⟨h1, h2, h3, h4⟩ -
      have hs := e'.loadBank_sameBus k.val e'.header.bankswitch[k]
      exact ⟨Engine.Inv.loadBank h1 _ _, by rw [hs.initialised, h2], by rw [hs.header, h3],
        by rw [hs.romMode, h4]⟩
  · rw [Engine.initContig_eq] at h2
    split at h2
    · cases h2
    · cases h2
      refine ⟨⟨⟨hcom.mem.ram, hcom.mem.shim, ?_, hcom.mem.cache⟩, ?_,
        Engine.ContentInv.congr hcom.content rfl rfl rfl rfl rfl, hcom.noInternal, hcom.shim, hcom.vectors, ?_⟩, ?_⟩
      · intro m hm; cases hm
        apply Memory.wf_ofBytes
        rw [fileBytes_length]
        have := e.header.loadAddress.isLt
        simp [Engine.initCommon]
        omega
      · have hb := hcom.bank
        refine ⟨hb.listed, hb.once, hb.unloaded, hb.held, ?_, ?_, hb.leading, hb.distinct, ?_⟩
        · intro k i hk; simp at hk
        · intro k _; simp
        · intro k _; simp
      · intro hc; cases hc
      · intro _; exact ⟨rfl, hl, by simp⟩
  · rw [Engine.initContig_eq] at h2
    split at h2
    · cases h2
      refine ⟨⟨⟨hcom.mem.ram, hcom.mem.shim, ?_, hcom.mem.cache⟩, ?_,
        Engine.ContentInv.congr hcom.content rfl rfl rfl rfl rfl, ?_, hcom.shim, hcom.vectors, ?_⟩, ?_⟩
      · intro m hm; cases hm; rfl
      · have hb := hcom.bank
        refine ⟨hb.listed, hb.once, hb.unloaded, hb.held, hb.shown, hb.noBank, hb.leading, hb.distinct, ?_⟩
        · intro k hk; exact ⟨(hb.flatMode k hk).1, rfl⟩
      · intro r hr; cases hr; simp
      · intro hc; cases hc
      · intro hc; cases hc
    · cases h2

end Sys2Proof.Machine
end

