-- ==== Sys2Proof/Laws/PerInstr.lean ====
section
/-! SUPPORT. A fact about every transaction as syntax, one lemma per constructor: the word of a transaction carries its
direction in bit 24 (spec/30_encoding.md R49). -/

namespace Sys2Proof.Laws.EncodeDirection

/-- The direction bit of the word. -/
def Statement (i : Instr) : Prop := (encode i).w = i.isWrite

theorem rdRam (i : Fin 0x800) : Statement (.rdRam i) := packTxn_w _ _ _
theorem rdShim (i : Fin 0x80) : Statement (.rdShim i) := packTxn_w _ _ _
theorem rdApu (n : Fin 0x18) : Statement (.rdApu n) := packTxn_w _ _ _
theorem rdBankreg (k : Fin 8) : Statement (.rdBankreg k) := packTxn_w _ _ _
theorem rdRom (k : Fin 8) (off : Fin 0x1000) : Statement (.rdRom k off) := packTxn_w _ _ _
theorem rdVec (i : Fin 6) : Statement (.rdVec i) := packTxn_w _ _ _
theorem rdOpen (a : Addr) : Statement (.rdOpen a) := packTxn_w _ _ _
theorem wrRam (i : Fin 0x800) (v : Byte) : Statement (.wrRam i v) := packTxn_w _ _ _
theorem wrShim (i : Fin 0x80) (v : Byte) : Statement (.wrShim i v) := packTxn_w _ _ _
theorem wrApu (n : Fin 0x18) (v : Byte) : Statement (.wrApu n v) := packTxn_w _ _ _
theorem wrApuStrobe (v : Byte) : Statement (.wrApuStrobe v) := packTxn_w _ _ _
theorem wrBankreg (k : Fin 8) (v : Byte) : Statement (.wrBankreg k v) := packTxn_w _ _ _
theorem wrRom (k : Fin 8) (off : Fin 0x1000) (v : Byte) : Statement (.wrRom k off v) := packTxn_w _ _ _
theorem wrVec (i : Fin 6) (v : Byte) : Statement (.wrVec i v) := packTxn_w _ _ _
theorem wrOpen (a : Addr) (v : Byte) : Statement (.wrOpen a v) := packTxn_w _ _ _

end Sys2Proof.Laws.EncodeDirection
end

