-- ==== Sys2Proof/Laws/Trace.lean ====
section
/-! SUPPORT. What an input, a step of the CPU and a `FRAME` line can do (spec/30_encoding.md R55, spec/43_host_ops.md R90),
said once. -/

namespace Sys2Proof.Machine

@[simp] theorem andNext_next {α β : Type} (a : α) (f : α → Host.Outcome β Fault Refusal) : andNext (.next a) f = f a := rfl

@[simp] theorem inOrder_nil {α β : Type} (f : α → State → Host.Outcome (β × State) Fault Refusal) (s : State) :
    inOrder f [] s = .next ([], s) := rfl

/-- The first of a list, when it goes on. -/
theorem inOrder_cons_next {α β : Type} {f : α → State → Host.Outcome (β × State) Fault Refusal} {a : α} {s t : State} {b : β}
    (h : f a s = .next (b, t)) (as : List α) :
    inOrder f (a :: as) s = andNext (inOrder f as t) fun q => .next (b :: q.1, q.2) := by
  simp [inOrder, h]

/-- A list in two parts, both of which go on. -/
theorem inOrder_append_next {α β : Type} {f : α → State → Host.Outcome (β × State) Fault Refusal} {as as' : List α}
    {s t u : State} {bs bs' : List β} (h : inOrder f as s = .next (bs, t)) (h' : inOrder f as' t = .next (bs', u)) :
    inOrder f (as ++ as') s = .next (bs ++ bs', u) := by
  induction as generalizing s bs with
  | nil => cases h; exact h'
  | cons a as ih =>
    cases hf : f a s with
    | fault r => simp [inOrder, hf, andNext] at h
    | refused r => simp [inOrder, hf, andNext] at h
    | next p =>
      rw [inOrder_cons_next hf] at h
      cases hr : inOrder f as p.2 with
      | fault r => simp [hr, andNext] at h
      | refused r => simp [hr, andNext] at h
      | next q =>
        rw [hr] at h
        cases h
        rw [List.cons_append, inOrder_cons_next hf, ih hr]
        rfl

/-- Giving an input is the machine's step on it. -/
theorem giveInput_eq (i : Input) (s : State) : giveInput i s = andNext (perform i s) fun t => .next (t.out, t) := by
  unfold giveInput
  rw [step_cons (s := { s with inputs := i :: s.inputs }) rfl]

/-- A transaction on the active engine completes and changes the engine and the output only. -/
theorem giveInput_bus (w : TxnWord) {s : State} (h : s.status = .active) :
    ∃ e o, exec (decode w) s = .next { s with eng := e, out := o } ∧ giveInput (.bus w) s = .next (o, { s with eng := e, out := o }) ∧
      e.initialised = s.eng.initialised := by
  have hexec := exec_eq (decode w) s
  have hkeep : ((s.eng.applyTxn (decode w)).1).initialised = s.eng.initialised := by
    cases decode w with
    | rdRom k off =>
      rcases s.eng.readRom_cases k off with ⟨_, _, _, _, _, h⟩ | ⟨_, _, _, _, h⟩ | ⟨_, h⟩ | ⟨_, h⟩ <;>
        simp [Engine.applyTxn, h]
    | wrBankreg k v =>
      simp only [Engine.applyTxn, Engine.writeBankreg]
      split
      · rfl
      · exact (Engine.loadBank_sameBus k.val v _).initialised
    | _ => rfl
  cases hf : s.eng.faulted
  · rw [hf] at hexec
    exact ⟨_, _, hexec, by rw [giveInput_eq, perform, busTransaction, if_pos h, hexec]; rfl, hkeep⟩
  · rw [hf] at hexec
    exact ⟨s.eng, _, hexec, by rw [giveInput_eq, perform, busTransaction, if_pos h, hexec]; rfl, rfl⟩

/-- Transactions in order on the active engine complete and change the engine and the output only. -/
theorem inOrder_bus (ws : List TxnWord) {s : State} (h : s.status = .active) :
    ∃ os e o, inOrder giveInput (ws.map .bus) s = .next (os, { s with eng := e, out := o }) ∧
      e.initialised = s.eng.initialised := by
  induction ws generalizing s with
  | nil => exact ⟨[], s.eng, s.out, rfl, rfl⟩
  | cons w ws ih =>
    obtain ⟨e, o, -, hg, hi⟩ := giveInput_bus w h
    obtain ⟨os, e', o', hr, hi'⟩ := ih (s := { s with eng := e, out := o }) h
    exact ⟨o :: os, e', o', by rw [List.map_cons, inOrder_cons_next hg, hr]; rfl, hi'.trans hi⟩

/-- How a run of `playback_frame` goes on when the CPU returns (R90). -/
def frameEnd (e : Engine) : HostResult :=
  match e.fault with
  | some r => .err r.kind
  | none => .ok

/-- Everything a step of the CPU in a frame can do: its transactions run; then the frame has ended with its result, at
`$1007` or on a fault, or it goes on. -/
theorem takeCpuStep_cases (c : CpuStep) {s : State} (hs : s.status = .active) (hr : s.run = .frameRun) :
    ∃ (os : List Output) (t : State), takeCpuStep c s = .next (t.out, t) ∧ inOrder giveInput c.inputs s = .next (os, t) ∧
      t.status = .active ∧ t.inputs = s.inputs ∧ t.cpuPc = c.pc ∧ t.eng.initialised = s.eng.initialised ∧
      ((t.run = .idle ∧ t.out = .hostReturn (frameEnd t.eng) ∧ (t.eng.fault ≠ none ∨ c.pc = Config.idlePc)) ∨
        (t.run = .frameRun ∧ t.eng.fault = none ∧ c.pc ≠ Config.idlePc)) := by
  obtain ⟨os, e, o, hbus, hi⟩ := inOrder_bus c.txns hs
  have hret : giveInput (.cpuReturn c.pc) { s with eng := e, out := o } =
      .next ((cpuReturned c.pc { s with eng := e, out := o }).out, cpuReturned c.pc { s with eng := e, out := o }) := by
    rw [giveInput_eq]; rfl
  have hin : inOrder giveInput c.inputs s =
      .next (os ++ [(cpuReturned c.pc { s with eng := e, out := o }).out], cpuReturned c.pc { s with eng := e, out := o }) :=
    inOrder_append_next hbus (by rw [inOrder_cons_next hret]; rfl)
  have hne : s.run ≠ .idle := by rw [hr]; decide
  refine ⟨_, _, by rw [takeCpuStep, if_neg hne, hin]; rfl, hin, ?_⟩
  rcases cpuReturned_cases c.pc { s with eng := e, out := o } with
    ⟨h, _⟩ | ⟨h, _⟩ | ⟨h, _⟩ | ⟨_, kind, hk, heq⟩ | ⟨_, hf, hp, heq⟩ | ⟨_, hf, hp, heq⟩
  · exact absurd h hne
  · rw [show ({ s with eng := e, out := o } : State).run = s.run from rfl, hr] at h; cases h
  · rw [show ({ s with eng := e, out := o } : State).run = s.run from rfl, hr] at h; cases h
  · obtain ⟨info, hfr⟩ : ∃ info, e.fault = some ⟨kind, info⟩ := (Engine.faultKind_eq_some e kind).1 hk
    rw [heq]
    exact ⟨hs, rfl, rfl, hi, Or.inl ⟨rfl, by simp [frameEnd, hfr], Or.inl (by simp [hfr])⟩⟩
  · have hf' : e.fault = none := hf
    rw [heq]
    exact ⟨hs, rfl, rfl, hi, Or.inl ⟨rfl, by simp [frameEnd, hf'], Or.inr hp⟩⟩
  · rw [heq]
    exact ⟨hs, rfl, rfl, hi, Or.inr ⟨hr, hf, hp⟩⟩

/-- Once the frame has ended the CPU takes no step. -/
theorem inOrder_takeCpuStep_idle (cpu : List CpuStep) {s : State} (h : s.run = .idle) :
    ∃ os, inOrder takeCpuStep cpu s = .next (os, s) := by
  induction cpu with
  | nil => exact ⟨[], rfl⟩
  | cons c cpu ih =>
    obtain ⟨os, hos⟩ := ih
    exact ⟨s.out :: os, by rw [inOrder_cons_next (show takeCpuStep c s = .next (s.out, s) by rw [takeCpuStep, if_pos h]), hos]; rfl⟩

/-- What a `FRAME` line is once its call has gone on. -/
theorem runLine_frame (cpu : List CpuStep) {s t : State} {o : Output}
    (h : giveInput (.host (.playbackFrame .current)) s = .next (o, t)) :
    runLine (.frame cpu) s = andNext (inOrder takeCpuStep cpu t) fun q => .next (.out q.2.out, q.2) := by
  simp [runLine, h]

/-- What any other line is. -/
theorem runLine_other {l : TraceLine} (h : ∀ cpu, l ≠ .frame cpu) (s : State) :
    runLine l s = andNext (inOrder giveInput l.inputs s) fun p => .next (l.result p.1, p.2) := by
  cases l with
  | frame cpu => exact absurd rfl (h cpu)
  | _ => rfl

end Sys2Proof.Machine
end

