-- ==== Sys2Proof/Tests/Slice0.lean ====
section
/-! SUPPORT. The model's own tests: ill-formed terms, words written out from spec/30_encoding.md, one-step tests whose
expected results are those of spec/95_test_vectors.md, and for each statement with hypotheses a state that meets them. -/

namespace Sys2Proof.Tests

open Sys2Proof Sys2Proof.Machine

/-! ## Well-formedness: one ill-formed term for each check -/

theorem test_wf_refuses_rd_rom_in_vectors : Instr.wf (.rdRom 7 0xFFA) = false := by decide
theorem test_wf_refuses_wr_rom_in_vectors : Instr.wf (.wrRom 7 0xFFF 0x5A) = false := by decide
theorem test_wf_refuses_wr_apu_strobe_register : Instr.wf (.wrApu 0x16 0x01) = false := by decide
theorem test_wf_refuses_rd_open_of_ram : Instr.wf (.rdOpen 0x07FF) = false := by decide
theorem test_wf_refuses_wr_open_of_bank_register : Instr.wf (.wrOpen 0x5FF8 0x00) = false := by decide

/-! ## Decoding: words written out as `W`, `A`, `D` from R49, at the addresses of R51 -/

theorem test_decode_rd_ram : decode 0b0000000010000001000000000#25 = .rdRam 0x102 := by decide
theorem test_decode_rd_shim : decode 0b0000100000000011100000000#25 = .rdShim 0x07 := by decide
theorem test_decode_rd_apu : decode 0b0010000000001011000000000#25 = .rdApu 0x16 := by decide
theorem test_decode_rd_bankreg : decode 0b0010111111111101000000000#25 = .rdBankreg 2 := by decide
theorem test_decode_rd_rom : decode 0b0100110101011110000000000#25 = .rdRom 1 0xABC := by decide
theorem test_decode_rd_vec : decode 0b0111111111111110000000000#25 = .rdVec 2 := by decide
theorem test_decode_rd_open : decode 0b0011000000000000000000000#25 = .rdOpen 0x6000 := by decide
theorem test_decode_wr_ram : decode 0b1000000000000000000010010#25 = .wrRam 0 0x12 := by decide
theorem test_decode_wr_shim : decode 0b1000100000000000000000000#25 = .wrShim 0 0x00 := by decide
theorem test_decode_wr_apu : decode 0b1010000000001010100001111#25 = .wrApu 0x15 0x0F := by decide
theorem test_decode_wr_apu_strobe : decode 0b1010000000001011011111111#25 = .wrApuStrobe 0xFF := by decide
theorem test_decode_wr_bankreg : decode 0b1010111111111100100000101#25 = .wrBankreg 1 0x05 := by decide
theorem test_decode_wr_rom : decode 0b1100000000000000001110111#25 = .wrRom 0 0 0x77 := by decide
theorem test_decode_wr_vec : decode 0b1111111111111110000110100#25 = .wrVec 2 0x34 := by decide
theorem test_decode_wr_open : decode 0b1000010000000000001011010#25 = .wrOpen 0x0800 0x5A := by decide

/-- Every row of the table hits its own match word and the word with every free bit set, and the decoder gives its class
there (spec/opcode_table.json). -/
theorem test_rows_decode_to_their_class :
    (opcodeRows.all fun r =>
      r.hits r.matchBits && decide ((decode r.matchBits).cls = r.cls) &&
      r.hits (r.matchBits ||| ~~~r.maskBits) && decide ((decode (r.matchBits ||| ~~~r.maskBits)).cls = r.cls)) = true := by
  decide

/-! ## Small engines and states -/

/-- An engine right after `open`, with nothing in its file. -/
def fresh : Engine := Engine.blank

/-- Bank 5 in slot 0, shown by window 0 (as VB1, with an empty file). -/
def oneBank : Engine := fresh.loadBank 0 5

/-- A faulted engine. -/
def dead : Engine := { fresh with fault := some ⟨.ioError, .bankRead 2⟩ }

/-- A contiguous engine with an empty flat buffer. -/
def flatEngine : Engine := { fresh with win := Vector.replicate 8 .flat, flat := some [], romMode := .contiguous }

/-- Every slot loaded, `lru` as given. -/
def fullEngine (ids : Vector Byte 10) (l : Vector (Option Byte) 10) : Engine :=
  { fresh with slotLoaded := Vector.replicate 10 true, slotBankId := ids, lru := l, win := fresh.win.set 0 (.cache 0) }

/-- `[0, 1, 2, 3, 4, 5, 6, 7, 8, 9]` as bank ids, and as list entries (VL5). -/
def ids : Vector Byte 10 := #v[0, 1, 2, 3, 4, 5, 6, 7, 8, 9]
def entries : Vector (Option Byte) 10 := #v[some 0, some 1, some 2, some 3, some 4, some 5, some 6, some 7, some 8, some 9]

/-- The process with engine `e` active and one input waiting. -/
def active (e : Engine) (i : Input) : State := { State.reset with eng := e, status := .active, inputs := [i] }

/-- The state after a step, where there is one. -/
def after (s : State) : Option State :=
  match step s with
  | .next t => some t
  | .fault _ | .refused _ => none

/-- What a step shows of its next state, through a function of it. -/
def shows {α : Type} [DecidableEq α] (s : State) (f : State → α) (expected : α) : Bool :=
  match after s with
  | some t => decide (f t = expected)
  | none => false

/-! ## One-step tests (spec/95_test_vectors.md) -/

theorem test_rd_ram_returns_byte : shows (active { fresh with ram := [(0, 0x12)] } (.bus 0x0000000)) (·.out) (.readData 0x12) := by
  decide
theorem test_rd_shim_returns_image :
    shows (active (fresh.initCommon 7 1 0) (.bus 0x0100100)) (·.out) (.readData 7) := by decide
theorem test_rd_apu_4017_after_reset :
    shows (active (fresh.initCommon 0 0 0) (.bus 0x0401700)) (·.out) (.readData 0x40) := by decide
theorem test_rd_bankreg_returns_value :
    shows (active { fresh with bankRegs := fresh.bankRegs.set 1 5 } (.bus 0x05FF900)) (·.out) (.readData 5) := by decide
theorem test_rd_rom_unmapped_is_zero_with_diag :
    shows (active fresh (.bus 0x0800000)) (fun t => (t.out, t.eng.events))
      (.readData 0, [.diag (.unmappedRomRead 0x8000)]) := by decide
theorem test_rd_rom_touches_lru :
    shows (active { fresh with
        win := fresh.win.set 1 (.cache 3), slotLoaded := fresh.slotLoaded.set 3 true
        slotBankId := fresh.slotBankId.set 3 5, cache := fresh.cache.set 3 [(0xABC, 0x77)]
        lru := #v[some 0, some 5, none, none, none, none, none, none, none, none] } (.bus 0x09ABC00))
      (fun t => (t.out, t.eng.lru))
      (.readData 0x77, #v[some 5, some 0, none, none, none, none, none, none, none, none]) := by decide
theorem test_rd_vec_reset_vector :
    shows (active fresh (.bus 0x0FFFD00)) (·.out) (.readData 0x10) := by decide
theorem test_rd_open_is_zero : shows (active fresh (.bus 0x0600000)) (fun t => (t.out, t.eng.events)) (.readData 0, []) := by
  decide
theorem test_wr_ram_stores : shows (active fresh (.bus 0x107FF5A)) (·.eng.ram) [(0x7FF, 0x5A)] := by decide
theorem test_wr_shim_is_discarded :
    shows (active (fresh.initCommon 0 0 0) (.bus 0x1100000)) (·.eng.busByte 0x1000) 0xA9 := by decide
theorem test_wr_apu_forwards :
    shows (active fresh (.bus 0x140150F)) (fun t => (t.eng.apuRegs[0x15], t.eng.events))
      (0x0F, [.apuWrite 0x4015 0x0F]) := by decide
theorem test_wr_apu_strobe_is_not_forwarded :
    shows (active fresh (.bus 0x14016FF)) (fun t => (t.eng.apuRegs[0x16], t.eng.events)) (0xFF, []) := by decide
theorem test_wr_bankreg_loads :
    shows (active flatEngine (.bus 0x15FF803))
      (fun t => (t.eng.bankRegs[0], t.eng.win[0], t.eng.winBank[0], t.eng.lru[0], loadOutcomes t.eng.events))
      (3, .cache 0, 3, some 3, [.fill 0]) := by decide
theorem test_wr_bankreg_same_value_does_nothing :
    shows (active flatEngine (.bus 0x15FF800)) (fun t => (t.eng.win, t.eng.events)) (Vector.replicate 8 .flat, []) := by decide
theorem test_wr_rom_is_discarded :
    shows (active flatEngine (.bus 0x1800077)) (fun t => (t.eng.flat, t.eng.events)) (some [], []) := by decide
theorem test_wr_vec_is_discarded : shows (active fresh (.bus 0x1FFFC34)) (·.eng.intVecs[2]) 0x00 := by decide
theorem test_wr_open_is_discarded : shows (active fresh (.bus 0x1600077)) (fun t => (t.eng.ram, t.eng.events)) ([], []) := by decide

/-- VR16, VX3: a faulted engine reads 0 and forwards nothing. -/
theorem test_dead_engine_reads_zero :
    shows (active { dead with ram := [(0, 0x12)] } (.bus 0x0000000)) (·.out) (.readData 0) := by decide
theorem test_dead_engine_forwards_nothing : shows (active dead (.bus 0x1400001)) (·.eng.events) [] := by decide

/-- VL1, VL2, VL5, VL7. -/
theorem test_lru_touch_moves : lruTouch 9 #v[some 4, some 2, some 9, none, none, none, none, none, none, none] =
    some #v[some 9, some 4, some 2, none, none, none, none, none, none, none] := by decide
theorem test_lru_touch_inserts : lruTouch 6 #v[some 9, some 4, some 2, none, none, none, none, none, none, none] =
    some #v[some 6, some 9, some 4, some 2, none, none, none, none, none, none] := by decide
theorem test_lru_touch_tail : lruTouch 9 entries =
    some #v[some 9, some 0, some 1, some 2, some 3, some 4, some 5, some 6, some 7, some 8] := by decide
theorem test_lru_touch_full : lruTouch 42 entries = none := by decide

/-- Section 2.4: the last bank for the largest padding. -/
theorem test_bank_location_255 : bankLocation 0x8FFF 255 = ⟨0xFE081, 0, 0x1000⟩ := by decide

/-- VB9: a failing read is a fault, after the event. -/
theorem test_bank_fill_io_error :
    shows (active { fresh with ioFail := [true] } (.host (.traceLoadBank 2 2)))
      (fun t => (t.out, t.eng.fault, t.eng.events, t.eng.win[2]))
      (.hostReturn (.err .ioError), some ⟨.ioError, .bankRead 2⟩, [.bankLoad 2 2 (.fault .ioError)], .unmapped) := by decide

/-- VB10. -/
theorem test_load_bank_bad_register :
    shows (active fresh (.host (.traceLoadBank 8 0))) (fun t => (t.eng.fault, t.eng.events))
      (some ⟨.invalidArg, .badRegister 8⟩, [.bankLoad 8 0 (.fault .invalidArg)]) := by decide

/-- VB7 at a small size: a bank at the end of the file is padded with zeros and noted. -/
theorem test_short_bank_is_noted :
    shows (active { fresh with header := { Header.zero with loadAddress := 0x8FFF }, file := List.replicate 0x83 0x11 }
        (.host (.traceLoadBank 0 1)))
      (fun t => (t.eng.cache[0].read 1, t.eng.cache[0].read 2, t.eng.events))
      (0x11, 0x00, [.diag (.shortRomRead (.bank 1) 2 0x1000), .bankLoad 0 1 (.fill 0)]) := by decide

/-- VI2: a low load address is found before any state is written. -/
theorem test_low_load_address :
    shows (active { fresh with header := { Header.zero with loadAddress := 0x7FFF } } (.host (.playbackInit .current 0 0 0)))
      (fun t => (t.out, t.status, t.eng.shim, t.eng.win)) (.hostReturn (.err .badLoadAddress), .detached, [], fresh.win) := by decide

/-- VI5: a failing contiguous load. -/
theorem test_contiguous_io_error :
    shows (active { fresh with header := { Header.zero with loadAddress := 0x8000 }, ioFail := [true] }
        (.host (.playbackInit .current 0 0 0)))
      (fun t => (t.out, t.eng.fault, t.eng.romMode, t.eng.win))
      (.hostReturn (.err .ioError), some ⟨.ioError, .contigRead⟩, .unset, fresh.win) := by decide

/-- VH1, VH3, VH5. -/
theorem test_open_short_header :
    shows { State.reset with inputs := [.host (.openFile (List.replicate 100 0) [])] } (fun t => (t.out, t.status))
      (.hostReturn (.err .shortHeader), .absent) := by decide
theorem test_open_while_open :
    shows (active fresh (.host (.openFile [] []))) (fun t => (t.out, t.status)) (.hostReturn (.err .alreadyOpen), .active) := by decide
theorem test_frame_before_init :
    shows (active fresh (.host (.playbackFrame .current))) (·.out) (.hostReturn (.err .invalidState)) := by decide

/-- Whether a trace gives these results and ends with this part of the state. -/
def traceShows {α : Type} [DecidableEq α] (lines : List TraceLine) (s : State) (rs : List LineResult) (f : State → α) (x : α) :
    Bool :=
  match runTrace lines s with
  | .next (os, t) => decide (os = rs) && decide (f t = x)
  | .fault _ => false
  | .refused _ => false

/-- The frame of the example of R90, a play routine that is one `RTS`, twice, and a read between the two: each frame is
ended before the next line. -/
theorem test_two_frames :
    traceShows
      [.frame [⟨[0x0100700], 0x8003⟩, ⟨[0x140155A], 0x100A⟩, ⟨[0x0100A00], 0x1007⟩], .rd 0x4015 (some 0x5A),
        .frame [⟨[0x0100700], 0x8003⟩, ⟨[0x140170F], 0x100A⟩, ⟨[0x0100A00], 0x1007⟩]]
      { State.reset with eng := { fresh with initialised := true }, status := .active, cpuPc := 0x1007 }
      [.out (.hostReturn .ok), .out (.readData 0x5A), .out (.hostReturn .ok)]
      (fun t => (t.run, t.eng.events)) (.idle, [.apuWrite 0x4015 0x5A, .apuWrite 0x4017 0x0F]) := by decide

/-- VH5, VH6: a frame that its call refuses takes no CPU step. -/
theorem test_refused_frame_takes_no_step :
    traceShows [.frame [⟨[0x140155A], 0x1007⟩]] { State.reset with status := .active } [.out (.hostReturn (.err .invalidState))]
      (·.eng.events) [] := by decide

/-- `RDW $FFFC => $1000` (R55, spec/40_bus_read.md R64). -/
theorem test_rdw_reset_vector :
    traceShows [.rdw 0xFFFC (some 0x1000), .comment] { State.reset with status := .active } [.word 0x1000, .out .nothing]
      (fun _ => TraceLine.met (.rdw 0xFFFC (some 0x1000)) (.word 0x1000)) true := by decide

/-- The codes of R95 and R96. -/
theorem test_error_codes :
    [ErrorKind.invalidArg, .badMagic, .shortHeader, .badLoadAddress, .ioError, .alreadyOpen, .invalidState, .internalError].map
      ErrorKind.code = [1, 2, 3, 4, 5, 6, 7, 8] := by decide

/-! ## Witnesses: for each statement with hypotheses, a state and operands that meet them -/

/-- Whether a transaction answers a next state. -/
def completes (i : Instr) (s : State) : Bool :=
  match exec i s with
  | .next _ => true
  | .fault _ | .refused _ => false

theorem next_of_completes {i : Instr} {s : State} (h : completes i s = true) : ∃ t, exec i s = .next t := by
  unfold completes at h
  split at h
  · exact ⟨_, by assumption⟩
  · exact absurd h (by decide)
  · exact absurd h (by decide)

/-- A state with engine `e` active and no input waiting. -/
def quiet (e : Engine) : State := { State.reset with eng := e, status := .active }

theorem fresh_cacheInv : fresh.CacheInv := by
  have h := Engine.clearCache_cacheInv fresh
  refine ⟨h.listed, h.once, h.unloaded, h.held, h.shown, h.noBank, h.leading, h.distinct, fun k hk => ?_⟩
  simp [fresh, Engine.blank] at hk

theorem fresh_memWf : fresh.MemWf :=
  ⟨rfl, rfl, fun m hm => by simp [fresh, Engine.blank] at hm, fun i => by simp [fresh, Engine.blank]⟩

theorem fresh_contentInv : fresh.ContentInv := fun i off hi => by simp [fresh, Engine.blank] at hi

theorem oneBank_cacheInv : oneBank.CacheInv := (fresh_cacheInv.loadBank 0 5).1

/-- A sound engine with a loaded slot. -/
theorem oneBank_inv : oneBank.Inv where
  mem := (fresh_cacheInv.loadBank_content fresh_memWf fresh_contentInv 0 5).1
  bank := oneBank_cacheInv
  content := (fresh_cacheInv.loadBank_content fresh_memWf fresh_contentInv 0 5).2
  noInternal := fun r hr => absurd hr (by rw [show oneBank.fault = none by decide]; simp)
  shim := Or.inl (by decide)
  vectors := rfl
  ready := fun h => absurd h (by decide)

theorem flatEngine_inv : flatEngine.Inv where
  mem := ⟨rfl, rfl, fun m hm => by cases hm; rfl, fun i => by simp [flatEngine, fresh, Engine.blank]⟩
  bank := by
    have h := Engine.clearCache_cacheInv fresh
    refine ⟨h.listed, h.once, h.unloaded, h.held, fun k i hk => ?_, fun k _ => ?_, h.leading, h.distinct, fun k _ => ⟨rfl, rfl⟩⟩
    · simp [flatEngine] at hk
    · simp [flatEngine, fresh, Engine.blank]
  content := fun i off hi => by simp [flatEngine, fresh, Engine.blank] at hi
  noInternal := fun r hr => by simp [flatEngine, fresh, Engine.blank] at hr
  shim := Or.inl rfl
  vectors := rfl
  ready := fun h => by simp [flatEngine, fresh, Engine.blank] at h

/-! ### Encoding and the step -/

theorem witness_TransactionWordPacksItsFields : (Instr.rdVec 5).isWrite = false := by decide

theorem witness_DecodeOfEncodeIsIdentity :
    Instr.wf (.rdRom 7 0xFF9) = true ∧ Instr.wf (.wrApu 0x17 0xFF) = true ∧ Instr.wf (.wrOpen 0x7FFF 0) = true := by decide

theorem witness_StepRunsTheDecodedTransaction_bus :
    (active fresh (.bus 0x0FFFF00)).status = .active ∧ (active fresh (.bus 0x0FFFF00)).inputs = .bus 0x0FFFF00 :: [] ∧
      Instr.wf (.rdVec 5) = true ∧ (active fresh (.bus (encode (.rdVec 5)))).inputs = .bus (encode (.rdVec 5)) :: [] :=
  ⟨rfl, rfl, rfl, rfl⟩

theorem witness_StepRunsTheDecodedTransaction_others :
    State.reset.inputs = [] ∧ (active fresh (.host (.close .current))).inputs = .host (.close .current) :: [] ∧
      (active fresh (.cpuReturn 0x1007)).inputs = .cpuReturn 0x1007 :: [] ∧
      ({ State.reset with inputs := [.bus 0] } : State).status ≠ .active :=
  ⟨rfl, rfl, rfl, by decide⟩

/-! ### Bus transactions -/

theorem witness_TransactionsKeepTheConfiguration : ∃ t, exec (.wrBankreg 7 0xFF) (quiet fresh) = .next t :=
  next_of_completes (by decide)

theorem witness_FaultedEngineIgnoresTransactions : (quiet dead).eng.fault.isSome = true := by decide

theorem witness_ReadsAnswerTheBusByte : (quiet oneBank).eng.CacheInv ∧ (quiet oneBank).eng.fault = none :=
  ⟨oneBank_cacheInv, by decide⟩

theorem witness_WritesReachOnlyTheirAddress :
    (quiet oneBank).eng.MemWf ∧ (quiet oneBank).eng.fault = none ∧
      (∃ t, exec (.wrBankreg 7 1) (quiet oneBank) = .next t) ∧
      storeAddr (.wrRam 0x7FF 0x5A) = some 0x07FF ∧ storeAddr (.wrBankreg 7 1) ≠ some 0x5FFE ∧
      ¬((Instr.wrBankreg 7 1).cls = .WR_BANKREG ∧ romWindowAddr 0xFFFA) :=
  ⟨oneBank_inv.mem, by decide, next_of_completes (by decide), by decide, by decide,
    fun h => absurd h.2.2 (by decide)⟩

theorem witness_RepeatedTransactionsAreIdempotent :
    (quiet oneBank).eng.MemWf ∧ (quiet oneBank).eng.CacheInv ∧ (quiet oneBank).eng.fault = none ∧
      (∃ t u, exec (.rdRom 1 0xFFF) (quiet oneBank) = .next t ∧ exec (.rdRom 1 0xFFF) t = .next u) ∧
      oneBank.win[1] = .unmapped ∧ oneBank.win[0] ≠ .unmapped := by
  refine ⟨oneBank_inv.mem, oneBank_cacheInv, by decide, ⟨_, _, rfl, rfl⟩, by decide, by decide⟩

theorem witness_EventHistoryOnlyGrows : ∃ t, exec (.wrApu 0x17 0) (quiet fresh) = .next t := next_of_completes (by decide)

theorem witness_SinkHearsExactlyTheApuWrites :
    (∃ t, exec (.wrApu 0 1) (quiet dead) = .next t) ∧ ∃ t, exec (.wrApuStrobe 1) (quiet fresh) = .next t :=
  ⟨next_of_completes (by decide), next_of_completes (by decide)⟩

/-- An engine with the lowest legal load address. -/
def loadable : Engine := { fresh with header := { Header.zero with loadAddress := 0x8000 } }

theorem witness_ReadRamReturnsItsByte :
    0x8000 ≤ loadable.header.loadAddress.toNat ∧ (quiet fresh).eng.MemWf ∧ (quiet fresh).eng.fault = none :=
  ⟨by decide, fresh_memWf, rfl⟩

/-- The lowest shim offset past the image. -/
theorem witness_ReadShimReturnsItsByte : 0x8000 ≤ loadable.header.loadAddress.toNat ∧ 0x11 ≤ 0x11 := by decide

theorem witness_ReadApuReturnsTheShadow :
    0x8000 ≤ loadable.header.loadAddress.toNat ∧ (quiet fresh).eng.fault = none := by decide

theorem witness_ReadVectorReturnsItsByte : 0x8000 ≤ loadable.header.loadAddress.toNat := by decide

theorem witness_ReadBankRegisterReturnsItsValue :
    0x8000 ≤ loadable.header.loadAddress.toNat ∧ (quiet fresh).eng.fault = none ∧
      shows { active fresh (.bus (encode (.wrBankreg 7 0xFF))) with out := .nothing } (·.eng.fault) none := by decide

/-- A window on a loaded slot whose bank is listed; one whose bank is missing from a full list; one on an unloaded slot; a
flat one; an unmapped one. -/
theorem witness_ReadRomGoesThroughTheWindow_loaded :
    (quiet (fullEngine ids entries)).eng.fault = none ∧ (fullEngine ids entries).win[0] = .cache 0 ∧
      (fullEngine ids entries).slotLoaded[0] = true ∧
      lruTouch (fullEngine ids entries).slotBankId[0] (fullEngine ids entries).lru = some entries := by decide

theorem witness_ReadRomGoesThroughTheWindow_full :
    (fullEngine (ids.set 0 42) entries).fault = none ∧ (fullEngine (ids.set 0 42) entries).win[0] = .cache 0 ∧
      (fullEngine (ids.set 0 42) entries).slotLoaded[0] = true ∧
      lruTouch (fullEngine (ids.set 0 42) entries).slotBankId[0] (fullEngine (ids.set 0 42) entries).lru = none := by decide

theorem witness_ReadRomGoesThroughTheWindow_others :
    ({ fresh with win := fresh.win.set 7 (.cache 9) } : Engine).win[7] = .cache 9 ∧ fresh.slotLoaded[9] = false ∧
      flatEngine.win[7] = .flat ∧ flatEngine.flat = some [] ∧ fresh.win[7] = .unmapped ∧ fresh.fault = none ∧
      flatEngine.fault = none := by decide

theorem witness_ReadRomTouchesTheBank :
    oneBank.CacheInv ∧ oneBank.fault = none ∧ oneBank.win[0] = .cache 0 ∧ oneBank.win[1] = .unmapped ∧
      flatEngine.CacheInv ∧ flatEngine.fault = none ∧ flatEngine.win[7] = .flat :=
  ⟨oneBank_cacheInv, by decide, by decide, by decide, flatEngine_inv.bank, rfl, by decide⟩

theorem witness_ReadRomGoesThroughTheWindow_sound :
    (quiet oneBank).eng.Inv ∧ (quiet oneBank).eng.fault = none ∧ (quiet oneBank).eng.win[0] = .cache 0 ∧
      (quiet oneBank).eng.lru[0] = some (quiet oneBank).eng.slotBankId[0] := ⟨oneBank_inv, by decide, by decide, by decide⟩

theorem witness_WriteRamStoresTheByte :
    (quiet fresh).eng.MemWf ∧ (quiet fresh).eng.fault = none ∧ ∃ t, exec (.wrRam 0x7FF 0x5A) (quiet fresh) = .next t :=
  ⟨fresh_memWf, rfl, next_of_completes (by decide)⟩

theorem witness_WriteApuShadowsAndForwards : (0x17 : Fin 0x18).val ≠ 0x16 ∧ (quiet fresh).eng.fault = none :=
  ⟨by decide, rfl⟩

theorem witness_WriteStrobeShadowsOnly :
    (quiet fresh).eng.fault = none ∧ ∃ t, exec (.wrApuStrobe 0xFF) (quiet fresh) = .next t :=
  ⟨rfl, next_of_completes (by decide)⟩

theorem witness_WriteBankRegisterLoadsOnChange :
    (quiet fresh).eng.fault = none ∧ (0 : Byte) = (quiet fresh).eng.bankRegs[7] ∧ (0xFF : Byte) ≠ (quiet fresh).eng.bankRegs[7] ∧
      (∃ t, exec (.wrBankreg 7 0xFF) (quiet fresh) = .next t) ∧ 0x8000 ≤ loadable.header.loadAddress.toNat ∧
      (quiet (loadable.initSteps 0 0 0)).eng = loadable.initSteps 0 0 0 :=
  ⟨rfl, by decide, by decide, next_of_completes (by decide), by decide, rfl⟩

/-- A resident bank, and one that is not while the next read does not fail. -/
theorem witness_BankSwitchCompletes :
    (quiet oneBank).eng.CacheInv ∧ (quiet oneBank).eng.fault = none ∧ (5 : Byte) ≠ (quiet oneBank).eng.bankRegs[7] ∧
      ((∃ i : Fin 10, oneBank.slotLoaded[i] = true ∧ oneBank.slotBankId[i] = 5) ∨ oneBank.ioFail.headD false = false) ∧
      oneBank.ioFail.headD false = false :=
  ⟨oneBank_cacheInv, by decide, by decide, Or.inl ⟨0, by decide, by decide⟩, by decide⟩

theorem witness_FailedBankReadIsAFault :
    Engine.CacheInv { fresh with ioFail := [true] } ∧ ({ fresh with ioFail := [true] } : Engine).fault = none ∧
      (1 : Byte) ≠ fresh.bankRegs[0] ∧ (∀ i : Fin 10, fresh.slotLoaded[i] = true → fresh.slotBankId[i] ≠ 1) ∧
      ({ fresh with ioFail := [true] } : Engine).ioFail.headD false = true :=
  ⟨fresh_cacheInv.congr rfl rfl rfl rfl rfl rfl rfl, rfl, by decide, by decide, rfl⟩

/-! ### The bank cache -/

theorem witness_LoadBankHitShowsTheSlot :
    oneBank.CacheInv ∧ oneBank.slotLoaded[0] = true ∧ oneBank.slotBankId[0] = 5 := ⟨oneBank_cacheInv, by decide, by decide⟩

theorem witness_VictimIsLowestFreeOrTail :
    (oneBank.slotLoaded[1] = false ∧ ∀ i : Fin 10, i < 1 → oneBank.slotLoaded[i] = true) ∧
      (∀ i : Fin 10, (fullEngine ids entries).slotLoaded[i] = true) ∧ (fullEngine ids (entries.set 9 none)).lru[9] = none ∧
      (fullEngine ids (entries.set 9 (some 42))).lru[9] = some 42 ∧ (∀ i : Fin 10, ids[i] ≠ 42) ∧
      (fullEngine ids entries).lru[9] = some 9 ∧ ∀ i : Fin 10, ids[i] = 9 ↔ i = 9 := by decide

theorem witness_BankLocationLaysOutTheFile : (1 : Byte) ≠ 0#8 ∧ (0xC000 : Addr) &&& 0x0FFF = 0 ∧ (254 : Byte).toNat < 255 := by
  decide

theorem witness_FillReadsTheBank :
    ({ fresh with ioFail := [true] } : Engine).ioFail.headD false = true ∧ fresh.ioFail.headD false = false ∧
      (∀ i : Fin 10, fresh.slotLoaded[i] = true → fresh.slotBankId[i] ≠ 0) ∧
      Engine.chooseVictim { fresh with ioFail := [true] } = .ok { fresh with ioFail := [true] } 0 :=
  ⟨rfl, rfl, by decide, rfl⟩

theorem witness_LoadBankMissInstallsTheVictim :
    fresh.CacheInv ∧ (∀ i : Fin 10, fresh.slotLoaded[i] = true → fresh.slotBankId[i] ≠ 0) ∧
      fresh.chooseVictim = .ok fresh 0 ∧ ∃ e2, fresh.fill 0 0 = .ok e2 () :=
  ⟨fresh_cacheInv, by decide, rfl, _, rfl⟩

theorem witness_LruTouchMovesToTheFront :
    entries[0] = some 0 ∧ (entries[9] = some 9 ∧ ∀ t : Fin 10, t < 9 → entries[t] ≠ some 9) ∧
      ((∀ t : Fin 10, (entries.set 9 none)[t] ≠ some 42) ∧ (entries.set 9 none)[9] = none) ∧
      (∀ t : Fin 10, entries[t] ≠ some 42) ∧ entries[9] ≠ none ∧ (lruTouch 9 entries).isSome = true ∧
      (lruTouch 42 (entries.set 9 none)).isSome = true := by decide

theorem witness_RomReadsShowTheFile :
    (quiet oneBank).eng.Inv ∧ (quiet oneBank).eng.fault = none ∧ (quiet oneBank).eng.win[0] = .cache 0 :=
  ⟨oneBank_inv, by decide, by decide⟩

/-- Banks 0 to 10 into register 0 (§8 scenario 3). -/
theorem witness_EleventhBankEvictsTheFirst :
    fresh.CacheInv ∧ (∀ i : Fin 10, fresh.slotLoaded[i] = false) ∧ (∀ x ∈ fresh.ioFail, x = false) ∧
      (([0, 1, 2, 3, 4, 5, 6, 7, 8, 9, 10] : List Byte).map fun b => ((0 : Fin 8), b)).length = 11 ∧
      ((([0, 1, 2, 3, 4, 5, 6, 7, 8, 9, 10] : List Byte).map fun b => ((0 : Fin 8), b)).map (·.2)).Nodup :=
  ⟨fresh_cacheInv, by decide, by decide, by decide, by decide⟩

/-! ### The whole machine and the hazards -/

/-- A sound state with a run in progress and a transaction waiting. -/
theorem witness_EveryStepKeepsTheInvariant :
    State.Inv (active oneBank (.bus 0x0800000)) ∧ (after (active oneBank (.bus 0x0800000))).isSome = true := by
  refine ⟨⟨oneBank_inv, ?_, ?_, ?_, fun _ => rfl, ?_, ?_⟩, by decide⟩
  · intro e he; simp [active, State.reset] at he
  · intro h; cases h
  · intro h; cases h
  · intro h; cases h
  · intro h; cases h

theorem witness_FaultsAreSticky :
    (active dead (.bus 0x1000012)).eng.fault = some ⟨.ioError, .bankRead 2⟩ ∧
      (after (active dead (.bus 0x1000012))).isSome = true ∧
      (∀ rest, (active dead (.bus 0x1000012)).inputs ≠ .host (.close .current) :: rest) ∧
      ∀ file io rest, (active dead (.bus 0x1000012)).inputs = .host (.openFile file io) :: rest →
        (active dead (.bus 0x1000012)).status = .active :=
  ⟨rfl, by decide, fun _ h => by simp [active] at h, fun _ _ _ _ => rfl⟩

/-- An `open` after a failed `playback_init`, which fails here, and a transaction while a replaced engine waits. -/
theorem witness_FaultsAreSticky_replaced :
    ({ quiet dead with status := .detached, inputs := [.host (.openFile [] [])] } : State).status = .detached ∧
      (after { quiet dead with status := .detached, inputs := [.host (.openFile [] [])] }).isSome = true ∧
      dead ∈ ({ active fresh (.bus 0x1000012) with failed := [dead] } : State).failed ∧
      (after { active fresh (.bus 0x1000012) with failed := [dead] }).isSome = true ∧
      ∀ (k : Nat) (rest : List Input),
        ({ active fresh (.bus 0x1000012) with failed := [dead] } : State).inputs ≠ .host (.close (.failed k)) :: rest :=
  ⟨rfl, by decide, by simp, by decide, fun _ _ h => by simp [active] at h⟩

theorem witness_OnlyTheInitRunInitialises :
    ({ active fresh (.cpuReturn 0x1007) with run := .initRun } : State).eng.initialised = false ∧
      shows { active fresh (.cpuReturn 0x1007) with run := .initRun } (·.eng.initialised) true = true := by decide

theorem witness_BankSwitchIsSeenByTheNextRead :
    (quiet oneBank).eng.Inv ∧ (quiet oneBank).eng.fault = none ∧ (6 : Byte) ≠ (quiet oneBank).eng.bankRegs[0] ∧
      oneBank.ioFail.headD false = false := ⟨oneBank_inv, by decide, by decide, by decide⟩

/-- A banked header whose windows 1 to 7 show bank 0. -/
def bankedFresh : Engine :=
  { fresh with header := { Header.zero with loadAddress := 0x8000, bankswitch := #v[1, 0, 0, 0, 0, 0, 0, 0] } }

theorem witness_BankRegistersHideTheInitialBanks :
    bankedFresh.header.banked = true ∧ 0x8000 ≤ bankedFresh.header.loadAddress.toNat ∧
      (quiet (bankedFresh.initSteps 0 0 0)).eng = bankedFresh.initSteps 0 0 0 ∧
      (quiet (bankedFresh.initSteps 0 0 0)).eng.fault = none ∧ bankedFresh.header.bankswitch[0] ≠ 0#8 :=
  ⟨by decide, by decide, rfl, by decide, by decide⟩

theorem witness_UnmappedWindowsStayUnmapped :
    oneBank.win[0] = .cache 0 ∧ (quiet oneBank).eng.fault = none ∧ (quiet oneBank).eng.win[1] = .unmapped ∧
      (∃ t, exec (.wrBankreg 1 0) (quiet oneBank) = .next t) ∧
      ∀ v : Byte, Instr.wrBankreg 1 0 = .wrBankreg 1 v → v = (quiet oneBank).eng.bankRegs[1] :=
  ⟨by decide, by decide, by decide, next_of_completes (by decide), fun v h => by
    cases h; decide⟩

theorem witness_BankSwitchReplacesFlat :
    (quiet flatEngine).eng.Inv ∧ (quiet flatEngine).eng.fault = none ∧ (quiet flatEngine).eng.win[7] = .flat ∧
      (0xFF : Byte) ≠ (quiet flatEngine).eng.bankRegs[7] ∧ flatEngine.ioFail.headD false = false ∧
      ∃ t, exec (.wrBankreg 7 0xFF) (quiet flatEngine) = .next t ∧ t.eng.win[0] = .flat :=
  ⟨flatEngine_inv, rfl, by decide, by decide, rfl, _, rfl, by decide⟩

/-! ### Host operations -/

/-- A 128-byte header with the magic. -/
def headerBytes : List Byte := [0x4E, 0x45, 0x53, 0x4D, 0x1A, 1, 1, 1, 0x00, 0x80] ++ List.replicate 118 0

/-- Whether the parser accepts a file. -/
def accepts (file : List Byte) : Bool :=
  match (readHeader file []).2 with
  | .ok _ => true
  | .error _ => false

theorem header_of_accepts {file : List Byte} (h : accepts file = true) : ∃ hd, (readHeader file []).2 = .ok hd := by
  unfold accepts at h
  split at h
  · exact ⟨_, by assumption⟩
  · exact absurd h (by decide)

theorem accepts_headerBytes : accepts headerBytes = true := by
  simp [accepts, readHeader, fileRead, fileBytes, headerBytes, headerMagic]

theorem witness_ReadHeaderParsesTheFields :
    State.reset.run = .idle ∧ headerBytes.length = 128 ∧ headerBytes.getD 7 0#8 ≠ 0#8 :=
  ⟨rfl, by simp [headerBytes], by simp [headerBytes]⟩

theorem witness_OpenCreatesTheEngine :
    (quiet fresh).run = .idle ∧ (quiet fresh).status = .active ∧ State.reset.run = .idle ∧ State.reset.status ≠ .active ∧
      (readHeader [] []).2 = .error .shortHeader ∧ ∃ hd : Header × List Diag, (readHeader headerBytes []).2 = .ok (hd.1, hd.2) :=
  ⟨rfl, rfl, rfl, by decide, rfl, header_of_accepts accepts_headerBytes⟩

/-- A faulted engine that a later `open` replaced. -/
theorem witness_PlaybackInitRunsTheResetSteps_replaced :
    ({ quiet fresh with failed := [dead] } : State).run = .idle ∧
      ({ quiet fresh with failed := [dead] } : State).failed[0]? = some dead ∧
      dead.fault = some ⟨.ioError, .bankRead 2⟩ := ⟨rfl, rfl, rfl⟩

theorem witness_PlaybackInitRunsTheResetSteps :
    (quiet dead).run = .idle ∧ (quiet dead).status ≠ .absent ∧ (quiet dead).eng.fault = some ⟨.ioError, .bankRead 2⟩ ∧
      (quiet fresh).run = .idle ∧ (quiet fresh).status ≠ .absent ∧ (quiet fresh).eng.fault = none ∧
      (quiet fresh).eng.header.loadAddress.toNat < 0x8000 ∧
      (fresh.initSteps 0 0 0).fault = some ⟨.badLoadAddress, .loadAddress 0⟩ ∧ bankedFresh.fault = none ∧
      (bankedFresh.initSteps 0 0 0).fault = none :=
  ⟨rfl, by decide, rfl, rfl, by decide, rfl, by decide, by decide, rfl, by decide⟩

theorem witness_InitRunEndsAtTheIdleLoop :
    ({ quiet dead with run := .initRun } : State).run = .initRun ∧ (quiet dead).eng.fault = some ⟨.ioError, .bankRead 2⟩ ∧
      ({ quiet fresh with run := .initRun } : State).run = .initRun ∧ (quiet fresh).eng.fault = none ∧
      (0x1006 : Addr) ≠ 0x1007 ∧ ∃ hd, (readHeader headerBytes []).2 = .ok hd :=
  ⟨rfl, rfl, rfl, rfl, by decide, header_of_accepts accepts_headerBytes⟩

theorem witness_BankedInitLoadsTheWindows :
    (∃ k : Fin 8, bankedFresh.header.bankswitch[k] ≠ 0#8) ∧ 0x8000 ≤ bankedFresh.header.loadAddress.toNat ∧
      bankedFresh.fault = none ∧ ∀ x ∈ bankedFresh.ioFail, x = false := by decide

/-- The lowest and the highest load address, with and without a failing read. -/
theorem witness_ContiguousInitFillsTheFlatBuffer :
    (∀ k : Fin 8, Header.zero.bankswitch[k] = 0#8) ∧ 0x8000 ≤ (0x8000 : Addr).toNat ∧ 0x8000 ≤ (0xFFFF : Addr).toNat ∧
      fresh.ioFail.headD false = false ∧ ({ fresh with ioFail := [true] } : Engine).ioFail.headD false = true := by decide

theorem witness_FrameRunsToTheIdleLoop_replaced :
    ({ quiet fresh with failed := [fresh, dead] } : State).run = .idle ∧
      ({ quiet fresh with failed := [fresh, dead] } : State).failed[1]? = some dead ∧
      dead.fault = some ⟨.ioError, .bankRead 2⟩ := ⟨rfl, rfl, rfl⟩

theorem witness_FrameRunsToTheIdleLoop :
    (quiet dead).run = .idle ∧ (quiet dead).status ≠ .absent ∧ dead.fault = some ⟨.ioError, .bankRead 2⟩ ∧
      (quiet fresh).run = .idle ∧ (quiet fresh).status ≠ .absent ∧ fresh.fault = none ∧ fresh.initialised = false ∧
      ({ quiet { fresh with initialised := true } with cpuPc := 0x1007 } : State).eng.initialised = true ∧
      ({ quiet { fresh with initialised := true } with cpuPc := 0x1007 } : State).cpuPc = 0x1007 ∧
      ({ quiet fresh with run := .frameRun } : State).run = .frameRun ∧ (0x100A : Addr) ≠ 0x1007 := by decide

theorem witness_HeaderCallsAndCloseAlwaysSucceed :
    (quiet dead).run = .idle ∧ (quiet dead).status ≠ .absent ∧
      ({ quiet fresh with failed := [dead] } : State).failed[0]? = some dead ∧
      0 < ({ quiet fresh with failed := [dead] } : State).failed.length := ⟨rfl, by decide, rfl, by decide⟩

theorem witness_TraceLinesRunTheirOperation :
    (quiet fresh).run = .idle ∧ (quiet fresh).status ≠ .absent ∧ (quiet fresh).eng.fault = none ∧
      ((quiet fresh).eng.loadBank 7 0xFF).fault = none ∧
      (Engine.loadBank 7 0xFF { fresh with ioFail := [true] }).fault = some ⟨.ioError, .bankRead 0xFF⟩ ∧ 8 ≤ 8 ∧
      (bankedFresh.initSteps 0 0 0).fault = none :=
  ⟨rfl, by decide, rfl, by decide, by decide, by decide, by decide⟩

theorem witness_TraceReadsGiveTheirValue :
    (quiet oneBank).status = .active ∧ (quiet oneBank).eng.CacheInv ∧ (quiet oneBank).eng.Inv ∧ (quiet oneBank).eng.fault = none :=
  ⟨rfl, oneBank_cacheInv, oneBank_inv, by decide⟩

/-- An initialised engine with the CPU at the idle loop. -/
def atIdleLoop : State := { quiet { fresh with initialised := true } with cpuPc := 0x1007 }

theorem witness_FrameLineRunsOneFrame :
    (quiet fresh).run = .idle ∧ (quiet fresh).status ≠ .absent ∧ (quiet fresh).eng.initialised = false ∧
      atIdleLoop.run = .idle ∧ atIdleLoop.status = .active ∧ atIdleLoop.eng.fault = none ∧ atIdleLoop.eng.initialised = true ∧
      atIdleLoop.cpuPc = 0x1007 ∧ (⟨[], 0x1007⟩ : CpuStep).pc = 0x1007 ∧
      (∀ d ∈ [(⟨[0x140155A], 0x8003⟩ : CpuStep)], d.pc ≠ 0x1007) ∧
      ∀ cpu ∈ [[(⟨[0x140155A], 0x8003⟩ : CpuStep), ⟨[], 0x1007⟩]], ∃ c, cpu.getLast? = some c ∧ c.pc = 0x1007 := by
  refine ⟨rfl, by decide, rfl, rfl, rfl, rfl, rfl, rfl, rfl, by decide, ?_⟩
  intro cpu hc
  rw [List.mem_singleton.1 hc]
  exact ⟨_, rfl, rfl⟩

end Sys2Proof.Tests
end

section
/-! PROOFS. The transaction word and the operand fields (spec/30_encoding.md R49, R50): the fields of a packed word, and
the bit fields of an address in each region of R33. -/

namespace Sys2Proof

/-! ## The word (R49) -/

/-- The word is the sum of its fields at their places: they do not overlap. -/
theorem packTxn_toNat (w : Bool) (a : Addr) (d : Byte) :
    (packTxn w a d).toNat = (if w then 2 ^ 24 else 0) + a.toNat * 2 ^ 8 + d.toNat := by
  have hlow : a.toNat <<< 8 ||| d.toNat = a.toNat * 2 ^ 8 + d.toNat := by
    rw [← Nat.shiftLeft_add_eq_or_of_lt d.isLt, Nat.shiftLeft_eq]
  have hlt : a.toNat * 2 ^ 8 + d.toNat < 2 ^ 24 := by omega
  have hassoc : packTxn w a d = BitVec.cast rfl (BitVec.ofBool w ++ (a ++ d)) := BitVec.append_assoc
  rw [hassoc, BitVec.toNat_cast, BitVec.toNat_append, BitVec.toNat_append, hlow,
    ← Nat.shiftLeft_add_eq_or_of_lt hlt, Nat.shiftLeft_eq]
  cases w <;> simp [Nat.add_assoc]

/-- The value of a word, from its fields. -/
theorem TxnWord.toNat_eq (t : TxnWord) :
    t.toNat = (if t.w then 2 ^ 24 else 0) + t.a.toNat * 2 ^ 8 + t.d.toNat := by
  rw [← packTxn_toNat, packTxn_fields]

/-- The writes are the upper half of the words. -/
theorem TxnWord.w_iff (t : TxnWord) : t.w = true ↔ 2 ^ 24 ≤ t.toNat :=
  (Bool.eq_iff_iff.1 (BitVec.getLsbD_last t)).trans decide_eq_true_iff

/-- A read's transaction is that of its address alone. -/
theorem decode_packTxn_read (a : Addr) (d : Byte) : decode (packTxn false a d) = decodeRead a :=
  decode_packTxn false a d

theorem decode_packTxn_write (a : Addr) (d : Byte) : decode (packTxn true a d) = decodeWrite a d :=
  decode_packTxn true a d

theorem decodeWrite_strobe {a : Addr} (d : Byte) (hr : regionOf a = .apu 0x16) : decodeWrite a d = .wrApuStrobe d := by
  simp only [decodeWrite, hr, if_true]

theorem decodeWrite_apu {a : Addr} {n : Fin 0x18} (d : Byte) (hr : regionOf a = .apu n) (hn : n ≠ 0x16) :
    decodeWrite a d = .wrApu n d := by
  simp only [decodeWrite, hr, if_neg hn]

theorem datum_of_read : ∀ {i : Instr}, i.isWrite = false → i.datum = 0#8
  | .rdRam _, _ | .rdShim _, _ | .rdApu _, _ | .rdBankreg _, _ | .rdRom _ _, _ | .rdVec _, _ | .rdOpen _, _ => rfl

/-- Settles O3: the value of the word is `packTxn_toNat`, its fields the laws of `Laws/Decode.lean`. -/
theorem transactionWordPacksItsFields : Obligations.TransactionWordPacksItsFields := by
  refine ⟨fun w a d => ⟨packTxn_toNat w a d, packTxn_w w a d, packTxn_a w a d, packTxn_d w a d⟩,
    fun a d d' => ?_, fun i hi => ?_, by decide, by decide⟩
  · rw [decode_packTxn_read, decode_packTxn_read]
  · rw [encode, packTxn_d, datum_of_read hi]

/-! ## The operands (R50) -/

/-- An operand is the bit field of the address that R50 names, and the distance from the base of its range. -/
def Region.IndexedBy (a : Addr) : Region → Prop
  | .ram i => i.val = a.toNat ∧ i.val = (a.extractLsb' 0 11).toNat
  | .shim i => i.val + 0x1000 = a.toNat ∧ i.val = (a.extractLsb' 0 7).toNat
  | .apu n => n.val + 0x4000 = a.toNat ∧ n.val = (a.extractLsb' 0 5).toNat
  | .bankreg k => k.val + 0x5FF8 = a.toNat ∧ k.val = (a.extractLsb' 0 3).toNat
  | .rom k off => k.val = (a.extractLsb' 12 3).toNat ∧ off.val = (a.extractLsb' 0 12).toNat
  | .vec i => i.val + 0xFFFA = a.toNat
  | .unmapped b => b = a

/-- A bit field of an address as a number. -/
theorem addr_field_toNat (a : Addr) (lo len : Nat) : (a.extractLsb' lo len).toNat = a.toNat / 2 ^ lo % 2 ^ len := by
  rw [BitVec.extractLsb'_toNat, Nat.shiftRight_eq_div_pow]

/-- The region of an address is at the index R50 gives: the bases are aligned to the fields' widths. -/
theorem regionOf_indexedBy (a : Addr) : (regionOf a).IndexedBy a := by
  rcases regionOf_cases a with ⟨i, hn, hr⟩ | ⟨i, hn, hr⟩ | ⟨n, hn, hr⟩ | ⟨k, hn, hr⟩ | ⟨k, off, -, hn, hr⟩ |
    ⟨i, hn, hr⟩ | ⟨-, hr⟩ <;> rw [hr] <;> simp only [Region.IndexedBy, addr_field_toNat] <;> omega

/-- The sink address of a register write is the address written (R50, R68). -/
theorem apuAddr_eq {n : Fin 0x18} {a : Addr} (h : n.val + 0x4000 = a.toNat) : Machine.apuAddr n = a := by
  apply BitVec.eq_of_toNat_eq
  rw [Machine.apuAddr, BitVec.toNat_ofNat]
  omega

/-- Settles O6: both directions take their operands from the region of the address (`regionOf_indexedBy`). -/
theorem operandsAreTheAddressFields : Obligations.OperandsAreTheAddressFields := by
  constructor
  · intro a d
    have hix := regionOf_indexedBy a
    rw [decode_packTxn_read, decodeRead]
    cases hr : regionOf a <;> rw [hr] at hix <;> exact hix
  · intro a d
    have hix := regionOf_indexedBy a
    rw [decode_packTxn_write]
    cases hr : regionOf a <;> rw [hr] at hix
    case apu n =>
      obtain ⟨hbase, hfield⟩ := hix
      by_cases hs : n = 0x16
      · subst hs
        rw [decodeWrite_strobe d hr]
        exact ⟨BitVec.eq_of_toNat_eq hbase.symm, rfl⟩
      · rw [decodeWrite_apu d hr hs]
        exact ⟨hbase, hfield, apuAddr_eq hbase, rfl⟩
    all_goals rw [decodeWrite, hr]
    case vec | unmapped => exact ⟨hix, rfl⟩
    all_goals exact ⟨hix.1, hix.2, rfl⟩

end Sys2Proof
end

section
/-! PROOFS. The opcode table (spec/30_encoding.md R51, R52): a row is an aligned block of words, the blocks tile the
25-bit words, and each lies in one range of the address map, where the decoder gives the row's class. -/

namespace Sys2Proof

/-! ## The class of an address (R51) -/

/-- The ranges of R51, read in order. -/
def classAt (w : Bool) (n : Nat) : TxnClass :=
  if n ≤ 0x07FF then (if w then .WR_RAM else .RD_RAM)
  else if 0x1000 ≤ n ∧ n ≤ 0x107F then (if w then .WR_SHIM else .RD_SHIM)
  else if n = 0x4016 then (if w then .WR_APU_STROBE else .RD_APU)
  else if 0x4000 ≤ n ∧ n ≤ 0x4017 then (if w then .WR_APU else .RD_APU)
  else if 0x5FF8 ≤ n ∧ n ≤ 0x5FFF then (if w then .WR_BANKREG else .RD_BANKREG)
  else if 0x8000 ≤ n ∧ n ≤ 0xFFF9 then (if w then .WR_ROM else .RD_ROM)
  else if 0xFFFA ≤ n then (if w then .WR_VEC else .RD_VEC)
  else (if w then .WR_OPEN else .RD_OPEN)

/-- A range of addresses with the class of a direction there. -/
structure ClassRange where
  first : Nat
  last : Nat
  cls : TxnClass

/-- The ranges of R33 as they are for reads, and for writes, which have `$4016` apart (R69). -/
def classRanges : Bool → List ClassRange
  | false =>
    [⟨0x0000, 0x07FF, .RD_RAM⟩, ⟨0x0800, 0x0FFF, .RD_OPEN⟩, ⟨0x1000, 0x107F, .RD_SHIM⟩, ⟨0x1080, 0x3FFF, .RD_OPEN⟩,
     ⟨0x4000, 0x4017, .RD_APU⟩, ⟨0x4018, 0x5FF7, .RD_OPEN⟩, ⟨0x5FF8, 0x5FFF, .RD_BANKREG⟩, ⟨0x6000, 0x7FFF, .RD_OPEN⟩,
     ⟨0x8000, 0xFFF9, .RD_ROM⟩, ⟨0xFFFA, 0xFFFF, .RD_VEC⟩]
  | true =>
    [⟨0x0000, 0x07FF, .WR_RAM⟩, ⟨0x0800, 0x0FFF, .WR_OPEN⟩, ⟨0x1000, 0x107F, .WR_SHIM⟩, ⟨0x1080, 0x3FFF, .WR_OPEN⟩,
     ⟨0x4000, 0x4015, .WR_APU⟩, ⟨0x4016, 0x4016, .WR_APU_STROBE⟩, ⟨0x4017, 0x4017, .WR_APU⟩, ⟨0x4018, 0x5FF7, .WR_OPEN⟩,
     ⟨0x5FF8, 0x5FFF, .WR_BANKREG⟩, ⟨0x6000, 0x7FFF, .WR_OPEN⟩, ⟨0x8000, 0xFFF9, .WR_ROM⟩, ⟨0xFFFA, 0xFFFF, .WR_VEC⟩]

theorem classAt_of_mem_range {w : Bool} {g : ClassRange} (hg : g ∈ classRanges w) {n : Nat} (h1 : g.first ≤ n)
    (h2 : n ≤ g.last) : classAt w n = g.cls := by
  cases w <;> fin_cases hg <;> simp only at h1 h2
  on_goal 5 => -- `$4016` lies inside the read range of the APU
    by_cases hs : n = 0x4016
    · subst hs
      rfl
    · simp (disch := omega) only [classAt, if_pos, if_neg]
      rfl
  all_goals
    simp (disch := omega) only [classAt, if_pos, if_neg]
    rfl

/-- The four unmapped ranges (R33). -/
theorem openAddr_iff {a : Addr} :
    openAddr a = true ↔ ((0x0800 ≤ a.toNat ∧ a.toNat ≤ 0x0FFF ∨ 0x1080 ≤ a.toNat ∧ a.toNat ≤ 0x3FFF) ∨
      0x4018 ≤ a.toNat ∧ a.toNat ≤ 0x5FF7) ∨ 0x6000 ≤ a.toNat ∧ a.toNat ≤ 0x7FFF := by
  simp only [openAddr, Bool.or_eq_true, Bool.and_eq_true, decide_eq_true_eq]

/-- A window byte lies below the vectors (R35). -/
theorem romOperand_lt {k : Fin 8} {off : Fin 0x1000} (h : romOperand k off = true) :
    0x1000 * k.val + off.val < 0x7FFA := by
  by_cases hk : k = 7
  · subst hk
    have hoff : off.val < 0xFFA := by simpa [romOperand] using h
    omega
  · have hne : k.val ≠ 7 := fun h7 => hk (Fin.ext h7)
    omega

/-- The decoder's class is the one the ranges give. -/
theorem decode_cls (w : Bool) (a : Addr) (d : Byte) : (decode (packTxn w a d)).cls = classAt w a.toNat := by
  rw [decode_packTxn]
  rcases regionOf_cases a with ⟨i, hn, hr⟩ | ⟨i, hn, hr⟩ | ⟨n, hn, hr⟩ | ⟨k, hn, hr⟩ | ⟨k, off, hrom, hn, hr⟩ |
    ⟨i, hn, hr⟩ | ⟨ho, hr⟩
  case inr.inr.inl => -- the APU registers, `$4016` apart
    by_cases hs : n = 0x16
    · subst hs
      rw [decodeWrite_strobe d hr, decodeRead, hr, hn]
      cases w <;> rfl
    · have hne : n.val ≠ 0x16 := fun h => hs (Fin.ext h)
      rw [decodeWrite_apu d hr hs, decodeRead, hr]
      simp (disch := omega) only [classAt, if_pos, if_neg]
      cases w <;> rfl
  case' inr.inr.inr.inr.inl => have hlt := romOperand_lt hrom
  case' inr.inr.inr.inr.inr.inr => rw [openAddr_iff] at ho
  all_goals
    rw [decodeRead, decodeWrite, hr]
    simp (disch := omega) only [classAt, if_pos, if_neg]
    cases w <;> rfl

/-- The class of a word, from its direction and its address. -/
theorem decode_cls_word (t : TxnWord) : (decode t).cls = classAt t.w t.a.toNat := by
  have h := decode_cls t.w t.a t.d
  rwa [packTxn_fields] at h

/-! ## A row as a block of words -/

/-- The first word of a row. -/
def Row.first (r : Row) : Nat := r.matchBits.toNat

/-- The number of words of a row: one for each value of the bits its mask leaves free. -/
def Row.size (r : Row) : Nat := 2 ^ 25 - r.maskBits.toNat

/-- The number of low bits the mask leaves free. -/
def Row.free (r : Row) : Nat := Nat.log2 r.size

/-- The mask leaves the low bits free and no other, and the match is 0 there: the row is an aligned block. -/
def Row.Aligned (r : Row) : Prop :=
  r.free < 25 ∧ r.maskBits = BitVec.allOnes 25 <<< r.free ∧ 2 ^ r.free ∣ r.first

theorem opcodeRows_aligned : ∀ r ∈ opcodeRows, r.Aligned := by
  unfold Row.Aligned
  decide

theorem allOnes_shiftLeft_toNat : ∀ k < 25, (BitVec.allOnes 25 <<< k).toNat + 2 ^ k = 2 ^ 25 := by decide

/-- Masking the low bits off rounds down to a multiple of the block. -/
theorem and_allOnes_shiftLeft_toNat (t : TxnWord) (k : Nat) :
    (t &&& (BitVec.allOnes 25 <<< k)).toNat = t.toNat / 2 ^ k * 2 ^ k := by
  have hle : t.toNat / 2 ^ k * 2 ^ k ≤ t.toNat := Nat.div_mul_le_self _ _
  rw [← BitVec.shiftLeft_ushiftRight, BitVec.toNat_shiftLeft, BitVec.toNat_ushiftRight, Nat.shiftRight_eq_div_pow,
    Nat.shiftLeft_eq, Nat.mod_eq_of_lt (by omega)]

/-- An aligned row hits the words of its block and no other. -/
theorem Row.Aligned.hits_iff {r : Row} (h : r.Aligned) (t : TxnWord) :
    r.hits t = true ↔ r.first ≤ t.toNat ∧ t.toNat < r.first + r.size := by
  obtain ⟨hk, hmask, m, hm⟩ := h
  generalize r.free = k at hk hmask hm
  have hsize : r.size = 2 ^ k := by
    have hsum := allOnes_shiftLeft_toNat k hk
    rw [Row.size, hmask]
    omega
  have hpos : 0 < 2 ^ k := Nat.two_pow_pos k
  rw [hsize]
  rw [Row.first] at hm ⊢
  rw [Row.hits, beq_iff_eq, ← BitVec.toNat_inj, hmask, and_allOnes_shiftLeft_toNat, hm, Nat.mul_comm (2 ^ k) m,
    Nat.mul_left_inj hpos.ne', Nat.div_eq_iff hpos]
  omega

/-! ## The blocks tile the words -/

/-- The rows, in this order, are adjacent blocks from word `lo` up to word `hi`. -/
def tiles : Nat → List Row → Nat → Bool
  | lo, [], hi => lo == hi
  | lo, r :: rs, hi => r.first == lo && tiles (lo + r.size) rs hi

theorem tiles_cons {lo hi : Nat} {r : Row} {rs : List Row} :
    tiles lo (r :: rs) hi = true ↔ r.first = lo ∧ tiles (lo + r.size) rs hi = true := by
  rw [tiles, Bool.and_eq_true, beq_iff_eq]

/-- No row of a tiling hits a word below it. -/
theorem filter_hits_of_below {rs : List Row} (hal : ∀ r ∈ rs, r.Aligned) {lo hi : Nat} (ht : tiles lo rs hi = true)
    {t : TxnWord} (hlt : t.toNat < lo) : rs.filter (·.hits t) = [] := by
  induction rs generalizing lo with
  | nil => rfl
  | cons r rs ih =>
    obtain ⟨hfirst, hrest⟩ := tiles_cons.1 ht
    rw [List.forall_mem_cons] at hal
    have hmiss : ¬ r.hits t = true := by rw [hal.1.hits_iff]; omega
    rw [List.filter_cons, if_neg hmiss]
    exact ih hal.2 hrest (by omega)

/-- A tiling hits each of its words with exactly one row. -/
theorem filter_hits_of_tiles {rs : List Row} (hal : ∀ r ∈ rs, r.Aligned) {lo hi : Nat} (ht : tiles lo rs hi = true)
    {t : TxnWord} (hlo : lo ≤ t.toNat) (hhi : t.toNat < hi) : ∃ r, rs.filter (·.hits t) = [r] := by
  induction rs generalizing lo with
  | nil =>
    have heq : lo = hi := beq_iff_eq.1 ht
    omega
  | cons r rs ih =>
    obtain ⟨hfirst, hrest⟩ := tiles_cons.1 ht
    rw [List.forall_mem_cons] at hal
    by_cases hin : t.toNat < lo + r.size
    · have hhit : r.hits t = true := by rw [hal.1.hits_iff]; omega
      exact ⟨r, by rw [List.filter_cons, if_pos hhit, filter_hits_of_below hal.2 hrest hin]⟩
    · have hmiss : ¬ r.hits t = true := by rw [hal.1.hits_iff]; omega
      rw [List.filter_cons, if_neg hmiss]
      exact ih hal.2 hrest (by omega)

/-- The table in the order of its words. -/
def sortedRows : List Row := opcodeRows.insertionSort fun r r' => r.first ≤ r'.first

theorem sortedRows_perm : sortedRows.Perm opcodeRows := List.perm_insertionSort _ _

theorem sortedRows_tile : tiles 0 sortedRows (2 ^ 25) = true := by decide

/-- Exactly one row hits a word (R51). -/
theorem filter_hits_opcodeRows (t : TxnWord) : ∃ r, opcodeRows.filter (·.hits t) = [r] := by
  have hal : ∀ r ∈ sortedRows, r.Aligned := fun r hr => opcodeRows_aligned r (sortedRows_perm.mem_iff.1 hr)
  obtain ⟨r, hr⟩ := filter_hits_of_tiles hal sortedRows_tile (Nat.zero_le _) t.isLt
  have hperm := (sortedRows_perm.filter (·.hits t)).symm
  rw [hr] at hperm
  exact ⟨r, List.perm_singleton.1 hperm⟩

/-! ## The class of a row -/

/-- The row lies in a range of one direction and has its class. -/
def Row.InRange (r : Row) (w : Bool) (g : ClassRange) : Prop :=
  r.cls = g.cls ∧ (if w then 2 ^ 24 else 0) + g.first * 2 ^ 8 ≤ r.first ∧
    r.first + r.size ≤ (if w then 2 ^ 24 else 0) + (g.last + 1) * 2 ^ 8

theorem opcodeRows_inRange : ∀ r ∈ opcodeRows, ∃ w, ∃ g ∈ classRanges w, g.last < 2 ^ 16 ∧ r.InRange w g := by
  unfold Row.InRange
  decide

/-- A row that hits a word has the class the decoder gives it. -/
theorem cls_of_hits {r : Row} (hr : r ∈ opcodeRows) {t : TxnWord} (hit : r.hits t = true) : r.cls = (decode t).cls := by
  obtain ⟨w, g, hg, hlast, hcls, hlo, hhi⟩ := opcodeRows_inRange r hr
  obtain ⟨h1, h2⟩ := ((opcodeRows_aligned r hr).hits_iff t).1 hit
  have hw : t.w = w := by
    rw [Bool.eq_iff_iff, TxnWord.w_iff]
    cases w <;> simp only [if_true, Bool.false_eq_true, if_false, iff_true, iff_false] at hlo hhi ⊢ <;> omega
  subst hw
  have ht := TxnWord.toNat_eq t
  have hd := t.d.isLt
  rw [hcls, decode_cls_word]
  exact (classAt_of_mem_range hg (by omega) (by omega)).symm

/-- Settles O5: the ranges are `decode_cls`, the one row of a word `filter_hits_opcodeRows` and `cls_of_hits`; what
speaks of the table alone is computed. -/
theorem decodeMapIsTheOpcodeTable : Obligations.DecodeMapIsTheOpcodeTable := by
  refine ⟨decode_cls, fun t => ?_, fun t => ?_, rfl, by decide, rfl, rfl, rfl, rfl⟩
  · obtain ⟨r, hr⟩ := filter_hits_opcodeRows t
    obtain ⟨hmem, hit⟩ := List.mem_filter.1 (hr ▸ List.mem_singleton_self r)
    exact ⟨r, hr, cls_of_hits hmem hit⟩
  · rw [decodeTableWord, Nat.mod_eq_of_lt t.isLt, BitVec.ofNat_toNat, BitVec.setWidth_eq]

end Sys2Proof
end

section
/-! PROOFS. The rules for bus reads (spec/40_bus_read.md R59 to R65): which read an address decodes to, what a read
answers and leaves, what a ROM read does for each target of its window, and what the reset steps put where a read looks. -/

namespace Sys2Proof

/-! ## The read of an address (R51) -/

/-- The read that the decoder selects in a region. -/
def Region.read : Region → Instr
  | .ram i => .rdRam i
  | .shim i => .rdShim i
  | .apu n => .rdApu n
  | .bankreg k => .rdBankreg k
  | .rom k off => .rdRom k off
  | .vec i => .rdVec i
  | .unmapped a => .rdOpen a

theorem decode_read_of_region {a : Addr} {r : Region} (hr : regionOf a = r) (d : Byte) :
    decode (packTxn false a d) = r.read := by
  rw [decode_packTxn_read, decodeRead, hr]
  cases r <;> rfl

theorem decode_read_of_open {a : Addr} (ha : openAddr a = true) (d : Byte) : decode (packTxn false a d) = .rdOpen a :=
  decode_read_of_region (regionOf_open a ha) d

/-- An unmapped address by its number. -/
theorem openAddr_ofNat {n : Nat}
    (hn : ((0x0800 ≤ n ∧ n ≤ 0x0FFF ∨ 0x1080 ≤ n ∧ n ≤ 0x3FFF) ∨ 0x4018 ≤ n ∧ n ≤ 0x5FF7) ∨ 0x6000 ≤ n ∧ n ≤ 0x7FFF) :
    openAddr (BitVec.ofNat 16 n) = true := by
  rw [openAddr_iff, BitVec.toNat_ofNat, Nat.mod_eq_of_lt (by omega)]
  exact hn

/-- Converse of `romOperand_lt`: every byte of the eight windows below the vectors. -/
theorem romOperand_of_lt {k : Fin 8} {off : Fin 0x1000} (h : 0x1000 * k.val + off.val < 0x7FFA) :
    romOperand k off = true := by
  rw [romOperand, Bool.not_eq_true', Bool.and_eq_false_iff, beq_eq_false_iff_ne, decide_eq_false_iff_not]
  by_cases hk : k = 7
  · subst hk
    exact Or.inr (by omega)
  · exact Or.inl hk

/-- An address of the ROM windows has window `a[14:12]` and offset `a[11:0]`. -/
theorem regionOf_window (n : Fin 0x7FFA) :
    regionOf (BitVec.ofNat 16 (0x8000 + n.val)) = .rom (Fin.ofNat 8 (n.val / 0x1000)) (Fin.ofNat 0x1000 n.val) := by
  have hk : (Fin.ofNat 8 (n.val / 0x1000)).val = n.val / 0x1000 := Nat.mod_eq_of_lt (by omega)
  have hoff : (Fin.ofNat 0x1000 n.val).val = n.val % 0x1000 := rfl
  have hsplit : 0x8000 + n.val = 0x8000 + 0x1000 * (Fin.ofNat 8 (n.val / 0x1000)).val + (Fin.ofNat 0x1000 n.val).val := by
    rw [hk, hoff, Nat.add_assoc, Nat.div_add_mod]
  rw [hsplit]
  exact regionOf_rom _ _ (romOperand_of_lt (by omega))

theorem loByte_toNat (a : Addr) : (loByte a).toNat = a.toNat % 2 ^ 8 := by
  rw [loByte, addr_field_toNat, pow_zero, Nat.div_one]

theorem hiByte_toNat (a : Addr) : (hiByte a).toNat = a.toNat / 2 ^ 8 % 2 ^ 8 := addr_field_toNat a 8 8

end Sys2Proof

namespace Sys2Proof.Machine

/-! ## What a read answers and leaves -/

/-- A read on a live engine answers what it finds and leaves the engine as its effect does. -/
theorem exec_read_live {i : Instr} (hi : i.isWrite = false) {s : State} (hf : s.eng.fault = none) {e : Engine} {v : Byte}
    (h : s.eng.applyTxn i = (e, v)) : exec i s = .next { s with eng := e, out := .readData v } := by
  rw [exec_live i hf, h, txnOutput, hi]
  rfl

/-- A read without an effect answers the byte it finds, 0 on a faulted engine, and changes nothing but the output. -/
theorem exec_read_of_no_effect {i : Instr} (hi : i.isWrite = false) {s : State} {v : Byte}
    (h : s.eng.applyTxn i = (s.eng, v)) :
    exec i s = .next { s with out := .readData (if s.eng.fault = none then v else 0#8) } := by
  cases hf : s.eng.fault with
  | none => exact exec_read_live hi hf h
  | some r =>
    rw [exec_faulted i hf, txnOutput, hi]
    rfl

theorem exec_rdOpen (a : Addr) (s : State) : exec (.rdOpen a) s = .next { s with out := .readData 0#8 } := by
  rw [exec_read_of_no_effect (i := .rdOpen a) rfl rfl, ite_self]

/-! ## What a write leaves for the read after it -/

theorem exec_wrRam_live (n : Fin 0x800) (v : Byte) {s : State} (hf : s.eng.fault = none) :
    ∃ t : State, exec (.wrRam n v) s = .next t ∧ t.eng.fault = none ∧ t.eng.ram = s.eng.ram.write n.val v :=
  ⟨_, exec_live _ hf, hf, rfl⟩

/-- Either write class of the APU registers shadows its byte, the strobe at `$4016` included, and raises no fault (R68,
R69). -/
theorem exec_apu_write_shadow (n : Fin 0x18) (v : Byte) {s : State} (hf : s.eng.fault = none) :
    ∃ t : State, exec (decode (packTxn true (BitVec.ofNat 16 (0x4000 + n.val)) v)) s = .next t ∧
      t.eng.fault = none ∧ t.eng.apuRegs = s.eng.apuRegs.set n v := by
  rw [decode_packTxn_write]
  by_cases hn : n = 0x16
  · subst hn
    rw [decodeWrite_strobe v (regionOf_apu 0x16)]
    exact ⟨_, exec_live _ hf, hf, rfl⟩
  · rw [decodeWrite_apu v (regionOf_apu n) hn]
    exact ⟨_, exec_live _ hf, hf, rfl⟩

/-- WR_BANKREG leaves its byte in its register, whether the filter of R70 let the load happen or not. -/
theorem Engine.writeBankreg_bankRegs (k : Fin 8) (v : Byte) (e : Engine) :
    (e.writeBankreg k v).bankRegs = e.bankRegs.set k v := by
  rw [Engine.writeBankreg]
  split
  case isTrue heq =>
    subst heq
    exact (Vector.set_getElem_self k.isLt).symm
  case isFalse => exact (Engine.loadBank_sameBus k.val v _).bankRegs

/-! ## A ROM read, by the target of its window (R63) -/

theorem lruTouch_of_head {b : Byte} {l : Vector (Option Byte) 10} (h : l[0] = some b) : lruTouch b l = some l := if_pos h

section
variable {k : Fin 8} {i : Fin 10} {e : Engine}

theorem Engine.readRom_touched (off : Fin 0x1000) {l : Vector (Option Byte) 10} (hw : e.win[k] = .cache i)
    (hl : e.slotLoaded[i] = true) (ht : lruTouch e.slotBankId[i] e.lru = some l) :
    e.readRom k off = ({ e with lru := l }, e.cache[i].read off.val) := by
  simp only [Engine.readRom, translate, Engine.touch, hw, hl, ht, if_true]

theorem Engine.readRom_full (off : Fin 0x1000) (hw : e.win[k] = .cache i) (hl : e.slotLoaded[i] = true)
    (ht : lruTouch e.slotBankId[i] e.lru = none) :
    e.readRom k off = (e.raiseFault .internalError (.lruFull e.slotBankId[i]), 0#8) := by
  simp only [Engine.readRom, translate, Engine.touch, hw, hl, ht, if_true]

theorem Engine.readRom_unloaded (off : Fin 0x1000) (hw : e.win[k] = .cache i) (hl : e.slotLoaded[i] = false) :
    e.readRom k off = (e.raiseFault .internalError (.windowUnloaded k i), 0#8) := by
  simp only [Engine.readRom, translate, hw, hl, Bool.false_eq_true, if_false]

theorem Engine.readRom_flat (off : Fin 0x1000) {m : Memory} (hw : e.win[k] = .flat) (hm : e.flat = some m) :
    e.readRom k off = (e, m.read (0x1000 * k.val + off.val)) := by
  simp only [Engine.readRom, translate, hw, Engine.flatByte, hm]

theorem Engine.readRom_unmapped (off : Fin 0x1000) (hw : e.win[k] = .unmapped) :
    e.readRom k off = (e.emit (.diag (.unmappedRomRead (romAddr k off))), 0#8) := by
  simp only [Engine.readRom, translate, hw]

/-- On a sound cache the touch of a window's bank completes and leaves the bank at the head, where nothing moves if it
was there already (R82 items 1, 4 and 5). -/
theorem Engine.CacheInv.touch_shown (h : e.CacheInv) (hw : e.win[k] = .cache i) :
    ∃ l, lruTouch e.slotBankId[i] e.lru = some l ∧ l[0] = some e.slotBankId[i] ∧
      (e.lru[0] = some e.slotBankId[i] → l = e.lru) := by
  obtain ⟨hloaded, -⟩ := h.shown k i hw
  obtain ⟨j, hj⟩ := h.listed i hloaded
  obtain ⟨l, hl⟩ := lruTouch_of_mem hj
  refine ⟨l, hl, lruTouch_head hl, fun hhead => ?_⟩
  rw [lruTouch_of_head hhead] at hl
  exact (Option.some.inj hl).symm

end

/-- The padding of bank 0, below the in-bank place of its first byte, is 0 (R78, R83). -/
theorem bankByte_zero_padding (file : List Byte) {load : Addr} {off : Nat} (hoff : off < (load &&& 0x0FFF).toNat) :
    bankByte file load 0#8 off = 0#8 := by
  have hmask : (load &&& 0x0FFF).toNat = load.toNat % 0x1000 := by
    rw [BitVec.toNat_and]
    exact Nat.and_two_pow_sub_one_eq_mod _ 12
  rw [hmask] at hoff
  rw [bankByte]
  exact if_neg fun ⟨hle, _⟩ => absurd hoff (Nat.not_lt.2 hle)

/-! ## Where the reset steps put the bytes a read finds (R109) -/

theorem read_shimImage (song region : Byte) (h : Header) (j : Nat) :
    (Memory.ofBytes 0 (shimImage song region h)).read j = (shimImage song region h).getD j 0#8 := by
  rw [Memory.read_ofBytes, if_pos (Nat.zero_le j), Nat.sub_zero]

/-- Past the image the shim is 0 (R56). -/
theorem read_shimImage_of_le (song region : Byte) (h : Header) {j : Nat} (hj : 0x11 ≤ j) :
    (Memory.ofBytes 0 (shimImage song region h)).read j = 0#8 := by
  rw [read_shimImage, List.getD_eq_default]
  exact hj

end Sys2Proof.Machine
end

section
/-! PROOFS. The statements on bus reads (spec/40_bus_read.md R59 to R65), from the rules above. -/

namespace Sys2Proof.Machine

/-- Settles O22: the targets of R63 are the equations of `Engine.readRom`; in a sound engine a window's slot is loaded
and its bank listed, so that the touch completes (`Engine.CacheInv.touch_shown`). -/
theorem readRomGoesThroughTheWindow : Obligations.ReadRomGoesThroughTheWindow := by
  refine ⟨fun n d => decode_read_of_region (regionOf_window n) d, ?touched, ?full, ?unloaded, ?flat, ?unmapped,
    fun d => ⟨decode_read_of_open rfl d, decode_read_of_region (regionOf_vec 0) d⟩, rfl, ?sound⟩
  case touched =>
    intro k off s i l hf hw hl ht
    exact exec_read_live rfl hf (Engine.readRom_touched off hw hl ht)
  case full =>
    intro k off s i hf hw hl ht
    exact exec_read_live rfl hf (Engine.readRom_full off hw hl ht)
  case unloaded =>
    intro k off s i hf hw hl
    exact exec_read_live rfl hf (Engine.readRom_unloaded off hw hl)
  case flat =>
    intro k off s m hf hw hm
    exact exec_read_live rfl hf (Engine.readRom_flat off hw hm)
  case unmapped =>
    intro k off s hf hw
    exact exec_read_live rfl hf (Engine.readRom_unmapped off hw)
  case sound =>
    intro k off s i hinv hf hw
    obtain ⟨hloaded, hbank⟩ := hinv.bank.shown k i hw
    obtain ⟨l, ht, hhead, hsame⟩ := hinv.bank.touch_shown hw
    refine ⟨hbank, fun hzero hoff => ?_, l, hhead, hsame,
      exec_read_live rfl hf (Engine.readRom_touched off hw hloaded ht)⟩
    rw [hinv.content i off.val hloaded off.isLt, hzero]
    exact bankByte_zero_padding _ hoff

/-- Settles O18: the byte written is read back because the memory has the canonical form (`Memory.read_write`). -/
theorem readRamReturnsItsByte : Obligations.ReadRamReturnsItsByte := by
  refine ⟨rfl, fun n d => decode_read_of_region (regionOf_ram n.isLt) d, fun n s => exec_read_of_no_effect rfl rfl,
    decode_read_of_open rfl, fun song region sink e j hl => ?reset, fun n v s hm hf => ?readBack⟩
  case reset =>
    obtain ⟨hram, -⟩ := e.initSteps_regions song region sink hl
    rw [hram]
    rfl
  case readBack =>
    obtain ⟨t, hwrite, hlive, hram⟩ := exec_wrRam_live n v hf
    refine ⟨t, hwrite, exec_read_live rfl hlive (Prod.ext rfl ?_), exec_rdOpen _ _⟩
    have hread := Memory.read_write (Memory.wfFrom_of_wf hm.ram) n.val v n.val
    rwa [← hram, if_pos rfl] at hread

/-- Settles O19: the reset steps leave the image of R56 in the shim (`Engine.initSteps_regions`), and a write has no
effect on a live engine either. -/
theorem readShimReturnsItsByte : Obligations.ReadShimReturnsItsByte := by
  refine ⟨rfl, fun n d => decode_read_of_region (regionOf_shim n) d, fun n s => exec_read_of_no_effect rfl rfl,
    decode_read_of_open rfl, fun song region sink e j hl => ?reset, fun n v s => ?discarded⟩
  case reset =>
    obtain ⟨-, hshim, -⟩ := e.initSteps_regions song region sink hl
    rw [hshim, Engine.initCommon_shim]
    exact ⟨read_shimImage song region e.header 0, read_shimImage song region e.header 1, read_shimImage_of_le _ _ _⟩
  case discarded =>
    cases hf : s.eng.fault with
    | none => exact exec_live _ hf
    | some r => exact exec_faulted _ hf

/-- Settles O20: both write classes of the APU range shadow their byte (`exec_apu_write_shadow`). -/
theorem readApuReturnsTheShadow : Obligations.ReadApuReturnsTheShadow := by
  refine ⟨rfl, fun n d => decode_read_of_region (regionOf_apu n) d, fun n s => exec_read_of_no_effect rfl rfl,
    decode_read_of_open rfl, fun song region sink e hl => ?reset, fun n v s hf => ?readBack⟩
  case reset =>
    obtain ⟨-, -, hapu, -⟩ := e.initSteps_regions song region sink hl
    simp only [hapu, Engine.initCommon_apuRegs]
    rfl
  case readBack =>
    obtain ⟨t, hwrite, hlive, hregs⟩ := exec_apu_write_shadow n v hf
    refine ⟨t, hwrite, exec_read_live rfl hlive (Prod.ext rfl ?_)⟩
    simp only [Engine.applyTxn, hregs, get_set, if_true]

/-- Settles O21: a bank load keeps the registers, and the value filtered out is the one held
(`Engine.writeBankreg_bankRegs`). -/
theorem readBankRegisterReturnsItsValue : Obligations.ReadBankRegisterReturnsItsValue := by
  refine ⟨rfl, fun k d => decode_read_of_region (regionOf_bankreg k) d, fun k s => exec_read_of_no_effect rfl rfl,
    fun d => ⟨decode_read_of_open rfl d, decode_read_of_open rfl d⟩, fun song region sink e k hl => ?reset,
    fun k v s t hf hwrite hlive => ?readBack⟩
  case reset =>
    obtain ⟨-, -, -, hbank, -⟩ := e.initSteps_regions song region sink hl
    simp only [hbank, Engine.initCommon_bankRegs, get_replicate]
  case readBack =>
    refine exec_read_live rfl hlive (Prod.ext rfl ?_)
    rw [exec_live _ hf] at hwrite
    cases hwrite
    have hregs := Engine.writeBankreg_bankRegs k v s.eng
    simp only [Engine.applyTxn, hregs, get_set, if_true]

/-- Settles O24: the vectors are those of `resetVectors`, with the reset vector `Config.shimBase`. -/
theorem readVectorReturnsItsByte : Obligations.ReadVectorReturnsItsByte := by
  refine ⟨rfl, fun n d => decode_read_of_region (regionOf_vec n) d, fun n s => exec_read_of_no_effect rfl rfl,
    fun song region sink e hl => ?reset, fun a => ?pair⟩
  case reset =>
    obtain ⟨-, -, -, -, hvecs⟩ := e.initSteps_regions song region sink hl
    exact hvecs
  case pair =>
    rw [loByte_toNat, hiByte_toNat]
    omega

/-- Settles O25: the four ranges are those of `openAddr`. -/
theorem readOpenReturnsZero : Obligations.ReadOpenReturnsZero :=
  ⟨fun _ => decode_read_of_open (openAddr_ofNat (by omega)), fun _ => decode_read_of_open (openAddr_ofNat (by omega)),
    fun _ => decode_read_of_open (openAddr_ofNat (by omega)), fun _ => decode_read_of_open (openAddr_ofNat (by omega)),
    exec_rdOpen⟩

end Sys2Proof.Machine
end

section
/-! PROOFS. The rules for bus writes (spec/41_bus_write.md R66 to R73): which write an address decodes to, what a write
leaves, and the filter of a bank register. -/

namespace Sys2Proof

/-! ## The write of an address (R51) -/

/-- The write that the decoder selects in a region; `$4016` is a class of its own (R69). -/
def Region.write (v : Byte) : Region → Instr
  | .ram i => .wrRam i v
  | .shim i => .wrShim i v
  | .apu n => if n = 0x16 then .wrApuStrobe v else .wrApu n v
  | .bankreg k => .wrBankreg k v
  | .rom k off => .wrRom k off v
  | .vec i => .wrVec i v
  | .unmapped a => .wrOpen a v

theorem decode_write_of_region {a : Addr} {r : Region} (hr : regionOf a = r) (v : Byte) :
    decode (packTxn true a v) = r.write v := by
  rw [decode_packTxn_write, decodeWrite, hr]
  cases r <;> rfl

theorem decode_write_of_open {a : Addr} (ha : openAddr a = true) (v : Byte) : decode (packTxn true a v) = .wrOpen a v :=
  decode_write_of_region (regionOf_open a ha) v

end Sys2Proof

namespace Sys2Proof.Machine

/-! ## What a write leaves -/

/-- A write on a live engine leaves the engine as its effect does. -/
theorem exec_write_live {i : Instr} (hi : i.isWrite = true) {s : State} (hf : s.eng.fault = none) {e : Engine}
    (h : (s.eng.applyTxn i).1 = e) : exec i s = .next { s with eng := e, out := .writeDone } := by
  rw [exec_live i hf, h, txnOutput, if_pos hi]

theorem exec_write_live_eng {i : Instr} (hi : i.isWrite = true) {s t : State} (hf : s.eng.fault = none)
    (h : exec i s = .next t) : t.eng = (s.eng.applyTxn i).1 := by
  rw [exec_write_live hi hf rfl] at h
  cases h
  rfl

theorem exec_write_faulted {i : Instr} (hi : i.isWrite = true) {s : State} {r : FaultRecord} (hf : s.eng.fault = some r) :
    exec i s = .next { s with out := .writeDone } := by
  rw [exec_faulted i hf, txnOutput, if_pos hi]

/-- A write without an effect changes nothing but the output, whether or not the engine is faulted. -/
theorem exec_write_of_no_effect {i : Instr} (hi : i.isWrite = true) {s : State} (h : (s.eng.applyTxn i).1 = s.eng) :
    exec i s = .next { s with out := .writeDone } := by
  cases hf : s.eng.fault with
  | none => exact exec_write_live hi hf h
  | some r => exact exec_write_faulted hi hf

/-! ## The filter of a bank register (R70) -/

/-- A write of the value the register holds has no effect. -/
theorem exec_wrBankreg_of_held {k : Fin 8} {v : Byte} {s : State} (h : v = s.eng.bankRegs[k]) :
    exec (.wrBankreg k v) s = .next { s with out := .writeDone } :=
  exec_write_of_no_effect rfl (if_pos h)

theorem Engine.writeBankreg_of_ne {k : Fin 8} {v : Byte} {e : Engine} (h : v ≠ e.bankRegs[k]) :
    e.writeBankreg k v = Engine.loadBank k.val v { e with bankRegs := e.bankRegs.set k v } :=
  if_neg h

/-- A write repeated at once has no effect: a live engine holds the value after the first one, and a faulted engine
ignores both. -/
theorem exec_wrBankreg_twice {k : Fin 8} {v : Byte} {s t : State} (h : exec (.wrBankreg k v) s = .next t) :
    exec (.wrBankreg k v) t = .next t := by
  cases hf : s.eng.fault with
  | none =>
    rw [exec_write_live rfl hf rfl] at h
    cases h
    refine exec_wrBankreg_of_held ?_
    have hregs := Engine.writeBankreg_bankRegs k v s.eng
    simp only [Engine.applyTxn, hregs, get_set, if_true]
  | some r =>
    rw [exec_write_faulted rfl hf] at h
    cases h
    exact exec_write_faulted rfl hf

end Sys2Proof.Machine
end

section
/-! PROOFS. The statements on bus writes (spec/41_bus_write.md R66 to R73), from the rules above. -/

namespace Sys2Proof.Machine

/-- Settles O26: the memory after the write is known by its reads and keeps the canonical form (`Memory.read_write`,
`Memory.wf_write`). -/
theorem writeRamStoresTheByte : Obligations.WriteRamStoresTheByte := by
  refine ⟨rfl, fun n v => decode_write_of_region (regionOf_ram n.isLt) v, decode_write_of_open rfl,
    fun n v s hm hf => ?stored, fun n v s t hm hf hwrite => ?readBack⟩
  case stored =>
    exact ⟨s.eng.ram.write n.val v, exec_write_live rfl hf rfl, Memory.read_write (Memory.wfFrom_of_wf hm.ram) n.val v,
      Memory.wf_write hm.ram n.isLt v⟩
  case readBack =>
    have heng : t.eng = { s.eng with ram := s.eng.ram.write n.val v } := exec_write_live_eng rfl hf hwrite
    have hlive : t.eng.fault = none := (congrArg Engine.fault heng).trans hf
    refine exec_read_live rfl hlive (Prod.ext rfl ?_)
    simp only [Engine.applyTxn, heng, Memory.read_write (Memory.wfFrom_of_wf hm.ram), if_true]

/-- Settles O30: a value the register holds is filtered out (`exec_wrBankreg_of_held`), as it is for a repeated write
(`exec_wrBankreg_twice`) and for 0 after the reset steps; no load changes a bank register
(`Engine.loadBank_sameBus`). -/
theorem writeBankRegisterLoadsOnChange : Obligations.WriteBankRegisterLoadsOnChange := by
  refine ⟨rfl, fun k v => decode_write_of_region (regionOf_bankreg k) v, fun k v s _ => exec_wrBankreg_of_held,
    fun k v s hf hne => ⟨exec_write_live rfl hf (Engine.writeBankreg_of_ne hne), ?kept⟩,
    fun k v s t => exec_wrBankreg_twice, fun song region sink e k s hl hs => exec_wrBankreg_of_held ?reset⟩
  case kept => exact (Engine.loadBank_sameBus k.val v _).bankRegs
  case reset =>
    obtain ⟨-, -, -, hbank, -⟩ := e.initSteps_regions song region sink hl
    simp only [hs, hbank, Engine.initCommon_bankRegs, get_replicate]

/-- Settles O27: none of the four classes has an effect (`exec_write_of_no_effect`); the unmapped ranges are those of
`openAddr`. -/
theorem readOnlyWritesAreDiscarded : Obligations.ReadOnlyWritesAreDiscarded :=
  ⟨rfl, rfl, rfl,
    fun n => decode_write_of_region (regionOf_shim n), fun _ _ _ => exec_write_of_no_effect rfl rfl,
    fun n => decode_write_of_region (regionOf_window n), fun _ _ _ _ => exec_write_of_no_effect rfl rfl,
    fun n => decode_write_of_region (regionOf_vec n), fun _ _ _ => exec_write_of_no_effect rfl rfl,
    fun _ => decode_write_of_open (openAddr_ofNat (by omega)), fun _ => decode_write_of_open (openAddr_ofNat (by omega)),
    fun _ => decode_write_of_open (openAddr_ofNat (by omega)), fun _ => decode_write_of_open (openAddr_ofNat (by omega)),
    fun _ _ _ => exec_write_of_no_effect rfl rfl⟩

/-- Settles O28: the effect is the shadow and one event, whatever the shadow held; only `$4016` decodes to the other
class. -/
theorem writeApuShadowsAndForwards : Obligations.WriteApuShadowsAndForwards := by
  refine ⟨rfl, fun n v hn => ?decodes, fun n v s hf => exec_write_live rfl hf rfl⟩
  case decodes =>
    have hne : n ≠ 0x16 := fun h => hn (congrArg Fin.val h)
    rw [decode_packTxn_write]
    exact decodeWrite_apu v (regionOf_apu n) hne

/-- Settles O29: the effect is the shadow alone, where RD_APU looks. -/
theorem writeStrobeShadowsOnly : Obligations.WriteStrobeShadowsOnly := by
  refine ⟨rfl, decode_write_of_region (regionOf_apu 0x16), fun v s hf => exec_write_live rfl hf rfl,
    fun v s t hf hwrite => ?readBack⟩
  case readBack =>
    have heng : t.eng = s.eng.setApu 0x16 v := exec_write_live_eng rfl hf hwrite
    have hlive : t.eng.fault = none := (congrArg Engine.fault heng).trans hf
    refine exec_read_live rfl hlive (Prod.ext rfl ?_)
    simp only [Engine.applyTxn, heng, Engine.setApu_apuRegs, get_set, if_true]

end Sys2Proof.Machine
end

section
/-! PROOFS. The rules for the bank cache (spec/42_bank_cache.md R74 to R81): the touch of the LRU list, where a bank lies,
the choice of the victim, what a fill leaves unchanged, and what a hit and a miss of `load_bank` do. -/

namespace Sys2Proof.Machine

/-! ## The LRU touch (R81) -/

/-- Shifting up to `j` takes entry `j` out of the list and puts `b` in front. -/
theorem lruShift_toList (j : Fin 10) (b : Byte) (l : Vector (Option Byte) 10) :
    (lruShift j b l).toList = some b :: l.toList.eraseIdx j.val := by
  refine List.ext_getElem (by simp [List.length_eraseIdx]) fun n hn _ => ?_
  rw [Vector.length_toList] at hn
  have hget := lruShift_get j b l ⟨n, hn⟩
  rw [Fin.getElem_fin] at hget
  rw [Vector.getElem_toList, hget]
  cases n with
  | zero => rfl
  | succ m =>
    rw [if_neg fun h0 => Nat.succ_ne_zero m (congrArg Fin.val h0), List.getElem_cons_succ, List.getElem_eraseIdx]
    simp only [Fin.le_def, Nat.succ_le_iff, Fin.getElem_fin, Vector.getElem_toList, Nat.add_sub_cancel]
    rfl

/-- Taking an entry out and putting it in front permutes the list. -/
theorem getElem_cons_eraseIdx_perm (l : Vector (Option Byte) 10) (j : Fin 10) :
    (l[j] :: l.toList.eraseIdx j.val).Perm l.toList :=
  List.getElem_cons_eraseIdx_perm (Vector.length_toList ▸ j.isLt)

theorem lruShift_zero_of_head {b : Byte} {l : Vector (Option Byte) 10} (h : l[0] = some b) : lruShift 0 b l = l := by
  refine Vector.ext fun n hn => ?_
  have hget := lruShift_get 0 b l ⟨n, hn⟩
  rw [Fin.getElem_fin] at hget
  rw [hget]
  cases n with
  | zero => exact h.symm
  | succ m => rfl

/-- The touch of a listed bank shifts the entries up to its first place, the head included. -/
theorem lruTouch_of_first {b : Byte} {l : Vector (Option Byte) 10} {j : Fin 10} (hj : l[j] = some b)
    (hmin : ∀ t : Fin 10, t < j → l[t] ≠ some b) : lruTouch b l = some (lruShift j b l) := by
  rcases lruTouch_cases b l with ⟨h0, he⟩ | ⟨i, -, hi, hmini, he⟩ | ⟨hall, -⟩ | ⟨hall, -⟩
  · have hj0 : j = 0 := by
      by_contra hne
      exact hmin 0 (Fin.pos_iff_ne_zero.2 hne) h0
    rw [he, hj0, lruShift_zero_of_head h0]
  · have hij : i = j := le_antisymm (not_lt.1 fun hlt => hmini j hlt hj) (not_lt.1 fun hlt => hmin i hlt hi)
    rw [he, hij]
  · exact absurd hj (hall j)
  · exact absurd hj (hall j)

/-- The touch of an absent bank shifts the whole list where the last entry is empty. -/
theorem lruTouch_of_absent {b : Byte} {l : Vector (Option Byte) 10} (hall : ∀ t : Fin 10, l[t] ≠ some b)
    (h9 : l[9] = none) : lruTouch b l = some (lruShift 9 b l) := by
  rcases lruTouch_cases b l with ⟨h0, -⟩ | ⟨j, -, hj, -⟩ | ⟨-, -, he⟩ | ⟨-, hfull, -⟩
  · exact absurd h0 (hall 0)
  · exact absurd hj (hall j)
  · exact he
  · exact absurd h9 hfull

theorem lruTouch_of_full {b : Byte} {l : Vector (Option Byte) 10} (hall : ∀ t : Fin 10, l[t] ≠ some b)
    (h9 : l[9] ≠ none) : lruTouch b l = none := by
  rcases lruTouch_cases b l with ⟨h0, -⟩ | ⟨j, -, hj, -⟩ | ⟨-, hroom, -⟩ | ⟨-, -, he⟩
  · exact absurd h0 (hall 0)
  · exact absurd hj (hall j)
  · exact absurd hroom h9
  · exact he

/-- The touch of a listed bank permutes the entries. -/
theorem lruTouch_perm_of_listed {b : Byte} {l l' : Vector (Option Byte) 10} (h : lruTouch b l = some l') {t : Fin 10}
    (ht : l[t] = some b) : l'.toList.Perm l.toList := by
  rcases lruTouch_cases b l with ⟨-, he⟩ | ⟨j, -, hj, -, he⟩ | ⟨hall, -⟩ | ⟨hall, -⟩
  · cases he.symm.trans h
    exact List.Perm.refl _
  · cases he.symm.trans h
    rw [lruShift_toList, ← hj]
    exact getElem_cons_eraseIdx_perm l j
  · exact absurd ht (hall t)
  · exact absurd ht (hall t)

/-- The touch of an absent bank finds the last entry empty and replaces it. -/
theorem lruTouch_perm_of_absent {b : Byte} {l l' : Vector (Option Byte) 10} (h : lruTouch b l = some l')
    (hall : ∀ t : Fin 10, l[t] ≠ some b) : l[9] = none ∧ (l'.toList ++ [none]).Perm (some b :: l.toList) := by
  have h9 : l[9] = none := by
    by_contra hfull
    cases (lruTouch_of_full hall hfull).symm.trans h
  cases (lruTouch_of_absent hall h9).symm.trans h
  have hlast : (none :: l.toList.eraseIdx 9).Perm l.toList := h9 ▸ getElem_cons_eraseIdx_perm l 9
  rw [lruShift_toList, List.cons_append]
  exact ⟨h9, ((List.perm_append_singleton _ _).trans hlast).cons _⟩

/-! ## Where a bank lies (R78) -/

theorem toNat_and_0x0FFF (load : Addr) : (load &&& 0x0FFF).toNat = load.toNat % 0x1000 := by
  rw [BitVec.toNat_and]
  exact Nat.and_two_pow_sub_one_eq_mod _ 12

theorem bankLocation_zero (load : Addr) :
    bankLocation load 0#8 = ⟨0x80, (load &&& 0x0FFF).toNat, 4096 - (load &&& 0x0FFF).toNat⟩ := by
  rw [toNat_and_0x0FFF]
  rfl

theorem bankLocation_of_ne (load : Addr) {b : Byte} (hb : b ≠ 0#8) :
    bankLocation load b = ⟨0x80 + (4096 - (load &&& 0x0FFF).toNat) + 4096 * (b.toNat - 1), 0, 4096⟩ := by
  rw [toNat_and_0x0FFF]
  exact if_neg hb

theorem padding_lt (load : Addr) : (load &&& 0x0FFF).toNat < 4096 := by
  rw [toNat_and_0x0FFF]
  exact Nat.mod_lt _ (by decide)

/-- A bank after bank 0 begins as many bytes before its unpadded place as bank 0 is padded with. -/
theorem bankLocation_offset_add_padding (load : Addr) {b : Byte} (hb : b ≠ 0#8) :
    (bankLocation load b).offset + (load &&& 0x0FFF).toNat = 0x80 + 4096 * b.toNat := by
  have hp := padding_lt load
  have hpos := BitVec.toNat_pos_of_ne_zero hb
  rw [bankLocation_of_ne load hb]
  dsimp only
  omega

/-- So does every bank end, bank 0 included. -/
theorem bankLocation_end_add_padding (load : Addr) (b : Byte) :
    (bankLocation load b).offset + (bankLocation load b).len + (load &&& 0x0FFF).toNat = 0x80 + 4096 * (b.toNat + 1) := by
  by_cases hb : b = 0#8
  · have hp := padding_lt load
    rw [hb, bankLocation_zero, BitVec.toNat_ofNat]
    dsimp only
    omega
  · have hoff := bankLocation_offset_add_padding load hb
    have hlen : (bankLocation load b).len = 4096 := by rw [bankLocation_of_ne load hb]
    omega

theorem bankLocation_offset_of_no_padding {load : Addr} (b : Byte) (hp : load &&& 0x0FFF = 0) :
    (bankLocation load b).offset = 0x80 + 4096 * b.toNat := by
  by_cases hb : b = 0#8
  · rw [hb, bankLocation_zero]
    rfl
  · have hoff := bankLocation_offset_add_padding load hb
    have hzero : (load &&& 0x0FFF).toNat = 0 := congrArg BitVec.toNat hp
    omega

/-- The largest offset is bank 255's with no padding. -/
theorem bankLocation_offset_le (load : Addr) (b : Byte) : (bankLocation load b).offset ≤ 0xFF080 := by
  by_cases hb : b = 0#8
  · rw [hb, bankLocation_zero]
    dsimp only
    omega
  · have hoff := bankLocation_offset_add_padding load hb
    have hlt : b.toNat < 256 := b.isLt
    omega

theorem bankLocation_contiguous (load : Addr) {b : Byte} (hb : b.toNat < 255) :
    (bankLocation load (b + 1)).offset = (bankLocation load b).offset + (bankLocation load b).len := by
  have hsucc : (b + 1).toNat = b.toNat + 1 := BitVec.toNat_add_of_lt (by simpa using Nat.succ_lt_succ hb)
  have hne : b + 1 ≠ 0#8 := fun h0 => Nat.succ_ne_zero b.toNat (hsucc.symm.trans (congrArg BitVec.toNat h0))
  have hoff := bankLocation_offset_add_padding load hne
  have hend := bankLocation_end_add_padding load b
  rw [hsucc] at hoff
  omega

/-! ## The victim (R76) -/

theorem Engine.chooseVictim_of_free {e : Engine} {v : Fin 10} (h : e.freeSlot = some v) : e.chooseVictim = .ok e v := by
  simp only [Engine.chooseVictim, h]

section
variable {e : Engine} (hfull : e.freeSlot = none)
include hfull

theorem Engine.chooseVictim_of_tailEmpty (h9 : e.lru[9] = none) :
    e.chooseVictim = .raise e .internalError .lruTailEmpty := by
  simp only [Engine.chooseVictim, hfull, h9]

theorem Engine.chooseVictim_of_notFound {b : Byte} (h9 : e.lru[9] = some b) (hs : e.slotHolding b = none) :
    e.chooseVictim = .raise e .internalError (.victimNotFound b) := by
  simp only [Engine.chooseVictim, hfull, h9, hs]

theorem Engine.chooseVictim_of_tail {b : Byte} {v : Fin 10} (h9 : e.lru[9] = some b) (hs : e.slotHolding b = some v) :
    e.chooseVictim = .ok (e.evict v) v := by
  simp only [Engine.chooseVictim, hfull, h9, hs]

end

/-! ## Which slot holds a bank (R74) -/

/-- The search answers slot `i` where it holds the bank and no other loaded slot does. -/
theorem Engine.slotHolding_eq_some {e : Engine} {b : Byte} {i : Fin 10} (hl : e.slotLoaded[i] = true)
    (hb : e.slotBankId[i] = b) (honly : ∀ t : Fin 10, e.slotLoaded[t] = true → e.slotBankId[t] = b → t = i) :
    e.slotHolding b = some i := by
  cases hs : e.slotHolding b with
  | none => exact absurd hb ((e.slotHolding_eq_none b).1 hs i hl)
  | some t =>
    obtain ⟨htl, htb⟩ := Engine.slotHolding_some hs
    rw [honly t htl htb]

/-- The banks of loaded slots are distinct (R82 item 7), so a slot that holds a bank is the one the search answers. -/
theorem Engine.CacheInv.slotHolding {e : Engine} (h : e.CacheInv) {b : Byte} {i : Fin 10} (hl : e.slotLoaded[i] = true)
    (hb : e.slotBankId[i] = b) : e.slotHolding b = some i :=
  Engine.slotHolding_eq_some hl hb fun t htl htb => h.distinct t i htl hl (htb.trans hb.symm)

/-! ## What the invariants say of the list (R82) -/

/-- While a slot is free the last entry is empty (items 3 and 6). -/
theorem Engine.CacheInv.tail_empty {e : Engine} (h : e.CacheInv) {v : Fin 10} (hv : e.slotLoaded[v] = false) :
    e.lru[9] = none := by
  cases h9 : e.lru[9] with
  | none => rfl
  | some b =>
    have hsome : e.lru[(9 : Fin 10)].isSome = true := congrArg Option.isSome h9
    have hlt : 9 < e.loadedCount := (h.leading 9).1 hsome
    have hcount := e.loadedCount_lt hv
    omega

/-- A bank that no slot holds is not listed (item 3). -/
theorem Engine.CacheInv.not_listed {e : Engine} (h : e.CacheInv) {b : Byte}
    (hres : ∀ i : Fin 10, e.slotLoaded[i] = true → e.slotBankId[i] ≠ b) (t : Fin 10) : e.lru[t] ≠ some b := by
  intro ht
  obtain ⟨i, hi, hb⟩ := h.held t b ht
  exact hres i hi hb

/-! ## The fill (R79) -/

/-- A fill that completes changes the slot's bytes, P_IO's answers and the history, and nothing else. -/
theorem Engine.fill_ok {v : Fin 10} {b : Byte} {e e' : Engine} (h : e.fill v b = .ok e' ()) :
    e' = { e with cache := e'.cache, ioFail := e'.ioFail, events := e'.events } := by
  rw [Engine.fill_eq] at h
  split at h
  · cases h
  · cases h
    rfl

/-- Under the invariants the slot to fill is free and no bank became resident on the way: after victim and fill the
invariants hold, the victim's slot is not loaded, and every loaded slot holds its bank as before. -/
theorem Engine.CacheInv.victim_fill {e e1 e2 : Engine} (h : e.CacheInv) {b : Byte} {v : Fin 10}
    (hc : e.chooseVictim = .ok e1 v) (hfill : e1.fill v b = .ok e2 ()) :
    e2.CacheInv ∧ e2.slotLoaded[v] = false ∧
      ∀ i : Fin 10, e2.slotLoaded[i] = true → e.slotLoaded[i] = true ∧ e2.slotBankId[i] = e.slotBankId[i] := by
  obtain ⟨e1', v', hc', hinv, hfree, hload, -⟩ := h.chooseVictim
  cases hc'.symm.trans hc
  rw [Engine.fill_ok hfill]
  exact ⟨hinv.congr rfl rfl rfl rfl rfl rfl rfl, hfree, hload⟩

/-! ## The two paths of `load_bank` (R75, R80) -/

theorem Engine.loadBank_of_hit (r : Fin 8) {b : Byte} {e : Engine} {i : Fin 10} {l : Vector (Option Byte) 10}
    (hs : e.slotHolding b = some i) (hl : lruTouch b e.lru = some l) :
    e.loadBank r.val b = { e with
      win := e.win.set r (.cache i)
      winBank := e.winBank.set r b
      lru := l
      events := e.events ++ [.bankLoad r.val b (.hit i)] } := by
  have hsteps : e.loadSteps r b =
      .ok { e with win := e.win.set r (.cache i), winBank := e.winBank.set r b, lru := l } (.hit i) := by
    simp only [Engine.loadSteps, hs, Engine.showHit, Engine.touch, hl, Attempt.andThen_ok]
  rw [Engine.loadBank_eq, hsteps]
  rfl

/-- Loading again a bank that the window shows and the list has at its head appends an event and changes nothing else
(R84). -/
theorem Engine.loadBank_of_shown (r : Fin 8) {b : Byte} {e : Engine} {i : Fin 10} (hs : e.slotHolding b = some i)
    (hhead : e.lru[0] = some b) (hw : e.win[r] = .cache i) (hb : e.winBank[r] = b) :
    e.loadBank r.val b = { e with events := e.events ++ [.bankLoad r.val b (.hit i)] } := by
  have hwin : e.win.set r (.cache i) = e.win := hw ▸ Vector.set_getElem_self r.isLt
  have hbank : e.winBank.set r b = e.winBank := hb ▸ Vector.set_getElem_self r.isLt
  rw [Engine.loadBank_of_hit r hs (lruTouch_of_head hhead), hwin, hbank]

theorem Engine.loadBank_of_miss (r : Fin 8) {b : Byte} {e e1 e2 : Engine} {v : Fin 10} {l : Vector (Option Byte) 10}
    (hs : e.slotHolding b = none) (hc : e.chooseVictim = .ok e1 v) (hfill : e1.fill v b = .ok e2 ())
    (hl : lruTouch b e2.lru = some l) :
    e.loadBank r.val b = { e2 with
      slotLoaded := e2.slotLoaded.set v true
      slotBankId := e2.slotBankId.set v b
      win := e2.win.set r (.cache v)
      winBank := e2.winBank.set r b
      lru := l
      events := e2.events ++ [.bankLoad r.val b (.fill v)] } := by
  have hsteps : e.loadSteps r b =
      .ok { e2 with
        slotLoaded := e2.slotLoaded.set v true, slotBankId := e2.slotBankId.set v b,
        win := e2.win.set r (.cache v), winBank := e2.winBank.set r b, lru := l } (.fill v) := by
    simp only [Engine.loadSteps, hs, hc, hfill, Engine.install, Engine.touch, hl, Attempt.andThen_ok]
  rw [Engine.loadBank_eq, hsteps]
  rfl

end Sys2Proof.Machine
end

section
/-! PROOFS. The statements on the bank cache (spec/42_bank_cache.md R75 to R81), from the rules above. -/

namespace Sys2Proof.Machine

/-- Settles O33: the bank of a loaded slot is listed (R82 item 1), so its touch completes; after the call the window shows
the slot and the bank is at the head, where a second call finds nothing to change (`Engine.loadBank_of_shown`). -/
theorem loadBankHitShowsTheSlot : Obligations.LoadBankHitShowsTheSlot := by
  intro e r b i h hloaded hbank
  obtain ⟨j, hj⟩ := h.listed i hloaded
  rw [hbank] at hj
  obtain ⟨l, hl⟩ := lruTouch_of_mem hj
  have hs := h.slotHolding hloaded hbank
  have hfirst := Engine.loadBank_of_hit r hs hl
  refine ⟨l, hl, lruTouch_head hl, hfirst, ?again⟩
  case again =>
    rw [hfirst]
    exact Engine.loadBank_of_shown r hs (lruTouch_head hl) ((get_set _ r r _).trans (if_pos rfl))
      ((get_set _ r r _).trans (if_pos rfl))

/-- Settles O34: the searches for a free slot and for the slot of the tail's bank find the slots the statement names. -/
theorem victimIsLowestFreeOrTail : Obligations.VictimIsLowestFreeOrTail := by
  refine ⟨fun e v hv hlow => Engine.chooseVictim_of_free ((e.freeSlot_eq_some v).2 ⟨hv, hlow⟩),
    fun e hall => Engine.chooseVictim_of_tailEmpty (e.freeSlot_eq_none.2 hall), ?notFound, ?tail⟩
  case notFound =>
    intro e b hall h9 hnone
    exact Engine.chooseVictim_of_notFound (e.freeSlot_eq_none.2 hall) h9
      ((e.slotHolding_eq_none b).2 fun i _ => hnone i)
  case tail =>
    intro e b v hall h9 hiff
    exact Engine.chooseVictim_of_tail (e.freeSlot_eq_none.2 hall) h9
      (Engine.slotHolding_eq_some (hall v) ((hiff v).2 rfl) fun t _ => (hiff t).1)

/-- Settles O36: every bank but bank 0 begins, and every bank ends, the padding's length before its unpadded place. -/
theorem bankLocationLaysOutTheFile : Obligations.BankLocationLaysOutTheFile :=
  ⟨bankLocation_zero, fun load _ => bankLocation_of_ne load, fun _ => bankLocation_offset_of_no_padding,
    bankLocation_offset_le, fun load _ => bankLocation_contiguous load, rfl, rfl, rfl⟩

/-- Settles O38: after victim and fill a slot is free and the bank is still not resident
(`Engine.CacheInv.victim_fill`), so the last entry of `lru` is empty and the touch inserts. -/
theorem loadBankMissInstallsTheVictim : Obligations.LoadBankMissInstallsTheVictim := by
  intro e e1 e2 r b v h hres hc hfill
  obtain ⟨hinv, hfree, hload⟩ := h.victim_fill hc hfill
  have hres2 : ∀ i : Fin 10, e2.slotLoaded[i] = true → e2.slotBankId[i] ≠ b := by
    intro i hi
    obtain ⟨hwas, hid⟩ := hload i hi
    rw [hid]
    exact hres i hwas
  have h9 := hinv.tail_empty hfree
  exact ⟨h9, Engine.loadBank_of_miss r ((e.slotHolding_eq_none b).2 hres) hc hfill
    (lruTouch_of_absent (hinv.not_listed hres2) h9)⟩

/-- Settles O39: a touch that completes is one shift, up to the bank's first place or over the whole list; the entries are
those of `lruShift_get`, the multiset that of `lruShift_toList`. -/
theorem lruTouchMovesToTheFront : Obligations.LruTouchMovesToTheFront := by
  refine ⟨fun _ _ => lruTouch_of_head, ?moved, ?inserted, fun _ _ => lruTouch_of_full, fun _ _ => rfl,
    fun b l l' h => ⟨fun ⟨t, ht⟩ => lruTouch_perm_of_listed h ht, lruTouch_perm_of_absent h⟩⟩
  case moved =>
    intro b l j hj hmin
    refine ⟨lruShift j b l, lruTouch_of_first hj hmin, lruShift_get j b l 0, fun t ht htj => ?before,
      fun t htj => ?after⟩
    case before => rw [lruShift_get, if_neg ht, if_pos htj]
    case after => rw [lruShift_get, if_neg (Fin.ne_zero_of_lt htj), if_neg (not_le.2 htj)]
  case inserted =>
    intro b l hall h9
    refine ⟨lruShift 9 b l, lruTouch_of_absent hall h9, lruShift_get 9 b l 0, fun t ht => ?_⟩
    rw [lruShift_get, if_neg ht, if_pos (show t ≤ 9 from Fin.le_last t)]

/-- Settles O35: the five arrays `Evict` stores to, each read back at every index. -/
theorem evictionUnloadsAndUnmaps : Obligations.EvictionUnloadsAndUnmaps := by
  intro e v
  refine ⟨rfl, fun j => set_lru_tail e.lru j, fun i => ?loaded, fun i => ?bank, fun k => ?win, fun k => ?winBank⟩
  case loaded => exact (get_set e.slotLoaded v i false).trans (if_congr eq_comm rfl rfl)
  case bank => exact (get_set e.slotBankId v i 0#8).trans (if_congr eq_comm rfl rfl)
  case win => rw [Engine.evict_win, get_ofFn]
  case winBank => rw [Engine.evict_winBank, get_ofFn]

end Sys2Proof.Machine
end

section
/-! PROOFS. The rules for a bank switch (spec/70_reset_and_hazards.md R116): a load whose bank is resident or whose file
read does not fail leaves its window on the bank, and a read through such a window answers the bank's byte. -/

namespace Sys2Proof.Machine

/-- Window `k` is on a loaded slot that holds bank `b` (R15, R82 item 4). -/
def Engine.ShowsBank (k : Fin 8) (b : Byte) (e : Engine) : Prop :=
  ∃ i : Fin 10, e.win[k] = .cache i ∧ e.slotLoaded[i] = true ∧ e.slotBankId[i] = b

/-! ## The load (R75, R80) -/

/-- A fill raises a fault only where P_IO's next answer is a failure. -/
theorem Engine.ioFail_of_fill_raise {v : Fin 10} {b : Byte} {e e' : Engine} {kind : ErrorKind} {info : FaultInfo}
    (h : e.fill v b = .raise e' kind info) : e.ioFail.headD false = true := by
  rw [Engine.fill_eq] at h
  split at h
  case isTrue hio => exact hio
  case isFalse => cases h

/-- `load_bank` under the invariants, where the bank is resident or the file read does not fail, raises no fault and leaves
the window on the bank: a hit on the slot that holds it, a miss on the victim. -/
theorem Engine.CacheInv.loadBank_shows {e : Engine} (h : e.CacheInv) (r : Fin 8) {b : Byte}
    (hio : (∃ i : Fin 10, e.slotLoaded[i] = true ∧ e.slotBankId[i] = b) ∨ e.ioFail.headD false = false) :
    (e.loadBank r.val b).fault = e.fault ∧ (e.loadBank r.val b).ShowsBank r b := by
  obtain ⟨e1, v, hc, -, -, -, -, hfault, -, hanswers, -⟩ := h.chooseVictim
  rcases h.loadSteps r b with ⟨i, l, hs, hl, -⟩ | ⟨e1', v', e2, hs, hc', hfill, -⟩ |
    ⟨e1', v', e2, l, hs, hc', hfill, hl, -⟩
  case inl =>
    obtain ⟨hloaded, hbank⟩ := Engine.slotHolding_some hs
    rw [Engine.loadBank_of_hit r hs hl]
    exact ⟨rfl, i, (get_set _ r r _).trans (if_pos rfl), hloaded, hbank⟩
  case inr.inl =>
    cases hc'.symm.trans hc
    have hfails := Engine.ioFail_of_fill_raise hfill
    rw [hanswers] at hfails
    rcases hio with ⟨i, hloaded, hbank⟩ | hok
    · exact absurd hbank ((e.slotHolding_eq_none b).1 hs i hloaded)
    · exact absurd (hok.symm.trans hfails) Bool.false_ne_true
  case inr.inr =>
    cases hc'.symm.trans hc
    rw [Engine.loadBank_of_miss r hs hc hfill hl]
    exact ⟨(congrArg Engine.fault (Engine.fill_ok hfill)).trans hfault, v, (get_set _ r r _).trans (if_pos rfl),
      (get_set _ v v _).trans (if_pos rfl), (get_set _ v v _).trans (if_pos rfl)⟩

/-- A write that changes a bank register, under the same condition, raises no fault and leaves its window on the new bank
(R70). -/
theorem Engine.CacheInv.writeBankreg_shows {e : Engine} (h : e.CacheInv) {k : Fin 8} {v : Byte} (hne : v ≠ e.bankRegs[k])
    (hio : (∃ i : Fin 10, e.slotLoaded[i] = true ∧ e.slotBankId[i] = v) ∨ e.ioFail.headD false = false) :
    (e.writeBankreg k v).fault = e.fault ∧ (e.writeBankreg k v).ShowsBank k v := by
  have hstored : Engine.CacheInv { e with bankRegs := e.bankRegs.set k v } := h.congr rfl rfl rfl rfl rfl rfl rfl
  rw [Engine.writeBankreg_of_ne hne]
  exact hstored.loadBank_shows k hio

/-- No bank-register write changes the file or the header, by which a bank is laid out (R24, R47). -/
theorem Engine.writeBankreg_source (k : Fin 8) (v : Byte) (e : Engine) :
    (e.writeBankreg k v).file = e.file ∧ (e.writeBankreg k v).header = e.header := by
  rw [Engine.writeBankreg]
  split
  case isTrue => exact ⟨rfl, rfl⟩
  case isFalse =>
    have hsame := Engine.loadBank_sameBus k.val v { e with bankRegs := e.bankRegs.set k v }
    exact ⟨hsame.file, hsame.header⟩

/-! ## The read (R63, R83) -/

/-- In a sound engine a read through a window on bank `b` answers the byte that the file layout gives the bank. -/
theorem Engine.Inv.readRom_of_shows {e : Engine} (h : e.Inv) {k : Fin 8} {b : Byte} (hshows : e.ShowsBank k b)
    (off : Fin 0x1000) : (e.readRom k off).2 = bankByte e.file e.header.loadAddress b off.val := by
  obtain ⟨i, hwin, hloaded, rfl⟩ := hshows
  obtain ⟨l, htouch, -⟩ := h.bank.touch_shown hwin
  rw [Engine.readRom_touched off hwin hloaded htouch]
  exact h.content i off.val hloaded off.isLt

end Sys2Proof.Machine
end

section
/-! PROOFS. The statements on the reset steps and the hazards (spec/70_reset_and_hazards.md R109, R116), from the rules
above. -/

namespace Sys2Proof.Machine

/-- Settles O45: the write leaves the window on the new bank (`Engine.CacheInv.writeBankreg_shows`) in an engine that is
still sound and live, so the read answers that bank's byte (`Engine.Inv.readRom_of_shows`). -/
theorem bankSwitchIsSeenByTheNextRead : Obligations.BankSwitchIsSeenByTheNextRead := by
  intro s k v off hinv hf hne hio
  obtain ⟨hfault, hshows⟩ := hinv.bank.writeBankreg_shows hne hio
  obtain ⟨hfile, hheader⟩ := s.eng.writeBankreg_source k v
  have hsound : (s.eng.writeBankreg k v).Inv := hinv.applyTxn (.wrBankreg k v)
  have hbyte := hsound.readRom_of_shows hshows off
  rw [hfile, hheader] at hbyte
  exact ⟨_, _, exec_write_live rfl hf rfl, exec_read_live rfl (hfault.trans hf) rfl, congrArg Output.readData hbyte⟩

/-- Settles O53: the regions are those of the `Engine.initCommon_` rules, each read back at every index; the shim is the
image of R56, read by `read_shimImage`. -/
theorem initCommonResetsTheRegions : Obligations.InitCommonResetsTheRegions := by
  intro e song region sink
  refine ⟨rfl, fun _ => rfl, fun n => ?apu, fun k => ?bank, fun j => ?shim⟩
  case apu =>
    rw [Engine.initCommon_apuRegs]
    refine (get_set _ 0x17 n _).trans ?_
    rw [get_replicate]
    exact if_congr eq_comm rfl rfl
  case bank => rw [Engine.initCommon_bankRegs, get_replicate]
  case shim =>
    rw [Engine.initCommon_shim]
    exact read_shimImage song region e.header j

end Sys2Proof.Machine
end

section
/-! PROOFS. The encoder against the decoder (spec/30_encoding.md R49 to R52): the region of a transaction's address is the
transaction's own, and an address is determined by its region. -/

namespace Sys2Proof

/-- The region a transaction addresses, with its index in it. -/
def Instr.region : Instr → Region
  | .rdRam i | .wrRam i _ => .ram i
  | .rdShim i | .wrShim i _ => .shim i
  | .rdApu n | .wrApu n _ => .apu n
  | .wrApuStrobe _ => .apu 0x16
  | .rdBankreg k | .wrBankreg k _ => .bankreg k
  | .rdRom k off | .wrRom k off _ => .rom k off
  | .rdVec i | .wrVec i _ => .vec i
  | .rdOpen a | .wrOpen a _ => .unmapped a

theorem regionOf_addr : ∀ {i : Instr}, i.wf = true → regionOf i.addr = i.region
  | .rdRam i, _ | .wrRam i _, _ => regionOf_ram i.isLt
  | .rdShim i, _ | .wrShim i _, _ => regionOf_shim i
  | .rdApu n, _ | .wrApu n _, _ => regionOf_apu n
  | .wrApuStrobe _, _ => regionOf_apu 0x16
  | .rdBankreg k, _ | .wrBankreg k _, _ => regionOf_bankreg k
  | .rdRom k off, h | .wrRom k off _, h => regionOf_rom k off h
  | .rdVec i, _ | .wrVec i _, _ => regionOf_vec i
  | .rdOpen a, h | .wrOpen a _, h => regionOf_open a h

theorem addr_eq_ofNat {a : Addr} {n : Nat} (h : a.toNat = n) : BitVec.ofNat 16 n = a := by
  rw [← h, BitVec.ofNat_toNat, BitVec.setWidth_eq]

/-- The read that the decoder selects at an address is well formed and addresses it. -/
theorem wf_addr_read (a : Addr) : (regionOf a).read.wf = true ∧ (regionOf a).read.addr = a := by
  rcases regionOf_cases a with ⟨i, hn, hr⟩ | ⟨i, hn, hr⟩ | ⟨n, hn, hr⟩ | ⟨k, hn, hr⟩ | ⟨k, off, hrom, hn, hr⟩ |
    ⟨i, hn, hr⟩ | ⟨hopen, hr⟩ <;> rw [hr]
  case inr.inr.inr.inr.inl => exact ⟨hrom, addr_eq_ofNat hn⟩
  case inr.inr.inr.inr.inr.inr => exact ⟨hopen, rfl⟩
  all_goals exact ⟨rfl, addr_eq_ofNat hn⟩

/-- Different addresses lie in different places. -/
theorem regionOf_injective : Function.Injective regionOf := fun a b h => by
  rw [← (wf_addr_read a).2, h, (wf_addr_read b).2]

/-- The write that the decoder selects in a region stands for a transaction where the read does, at the same address. -/
theorem Region.write_wf_addr (r : Region) (v : Byte) :
    (r.write v).wf = r.read.wf ∧ (r.write v).addr = r.read.addr ∧ (r.write v).isWrite = true ∧ (r.write v).datum = v := by
  cases r with
  | apu n =>
    by_cases hn : n = 0x16
    · subst hn
      exact ⟨rfl, rfl, rfl, rfl⟩
    · rw [Region.write, if_neg hn]
      exact ⟨bne_iff_ne.2 hn, rfl, rfl, rfl⟩
  | _ => exact ⟨rfl, rfl, rfl, rfl⟩

theorem Region.read_isWrite (r : Region) : r.read.isWrite = false := by
  cases r <;> rfl

/-- Settles O7: the address of a well-formed transaction lies in the transaction's own region (`regionOf_addr`), where the
decoder selects the read or the write it came from. -/
theorem decodeOfEncodeIsIdentity : Obligations.DecodeOfEncodeIsIdentity := by
  intro i hwf
  have hr := regionOf_addr hwf
  cases i with
  | wrApu n v =>
    have hn : n ≠ 0x16 := bne_iff_ne.1 hwf
    exact (decode_write_of_region hr v).trans (if_neg hn)
  | wrApuStrobe v => exact decode_write_of_region hr v
  | wrRam | wrShim | wrBankreg | wrRom | wrVec | wrOpen => exact decode_write_of_region hr _
  | rdRam | rdShim | rdApu | rdBankreg | rdRom | rdVec | rdOpen => exact decode_read_of_region hr _

/-- Settles O8: a word is the packing of its fields, and the transaction the decoder selects at its address is well formed
and has that address (`wf_addr_read`). -/
theorem encodeOfDecodeIsCanonical : Obligations.EncodeOfDecodeIsCanonical := by
  intro t
  obtain ⟨hwf, haddr⟩ := wf_addr_read t.a
  cases hw : t.w with
  | false =>
    have hdec : decode t = (regionOf t.a).read := by
      rw [← packTxn_fields t, hw, decode_read_of_region rfl, packTxn_a]
    have hread := (regionOf t.a).read_isWrite
    rw [hdec, encode, hread, haddr, datum_of_read hread]
    exact ⟨hwf, rfl⟩
  | true =>
    have hdec : decode t = (regionOf t.a).write t.d := by
      rw [← packTxn_fields t, hw, decode_write_of_region rfl, packTxn_a, packTxn_d]
    obtain ⟨hwf', haddr', hwrite, hdatum⟩ := (regionOf t.a).write_wf_addr t.d
    rw [hdec, encode, hwrite, haddr', haddr, hdatum]
    exact ⟨hwf'.trans hwf, rfl⟩

/-- Settles O4: each word is decoded by evaluation. -/
theorem boundaryWordsDecode : Obligations.BoundaryWordsDecode := by
  unfold Obligations.BoundaryWordsDecode
  decide

end Sys2Proof
end

section
/-! PROOFS. The statements on the step and on all transactions (spec/20_memory.md R42, spec/10_state.md R12 to R26,
spec/60_exceptions.md R97): what a step does with its input, what a transaction leaves unchanged. -/

namespace Sys2Proof.Machine

theorem busTransaction_active (t : TxnWord) {s : State} (h : s.status = .active) : busTransaction t s = exec (decode t) s :=
  if_pos h

/-- Settles O9: a step performs the head of the inputs (`step_cons`); a word of a well-formed transaction decodes to it
(`decodeOfEncodeIsIdentity`). -/
theorem stepRunsTheDecodedTransaction : Obligations.StepRunsTheDecodedTransaction := by
  refine ⟨fun s t rest ha hin => ?word, fun s i rest ha hwf hin => ?transaction, fun s => step_nil,
    fun s op rest => step_cons, fun s pc rest => step_cons, fun s t rest hna hin => ?noEngine⟩
  case word => exact (step_cons hin).trans (busTransaction_active t ha)
  case transaction =>
    have hstep := (step_cons hin).trans (busTransaction_active (encode i) ha)
    rwa [decodeOfEncodeIsIdentity i hwf] at hstep
  case noEngine => exact (step_cons hin).trans (if_neg hna)

/-- Settles O10: a transaction is its effect on a live engine or none on a faulted one (`exec_eq`). -/
theorem everyTransactionCompletes : Obligations.EveryTransactionCompletes := by
  have houtput : ∀ (i : Instr) (v : Byte),
      if i.isWrite then txnOutput i v = .writeDone else ∃ w, txnOutput i v = .readData w := by
    intro i v
    cases hw : i.isWrite with
    | false => exact ⟨v, by rw [txnOutput, hw]; rfl⟩
    | true => exact if_pos hw
  intro i s
  cases hf : s.eng.fault with
  | none => exact ⟨_, _, exec_live i hf, houtput i _⟩
  | some r => exact ⟨s.eng, _, exec_faulted i hf, houtput i _⟩

/-- Settles O12: on a faulted engine a transaction has no effect and answers 0 (`exec_faulted`). -/
theorem faultedEngineIgnoresTransactions : Obligations.FaultedEngineIgnoresTransactions := by
  intro i s hf
  obtain ⟨r, hr⟩ := Option.isSome_iff_exists.1 hf
  exact exec_faulted i hr

/-! ## What a transaction leaves -/

/-- The engine after a transaction: as it was, on a faulted engine; with the transaction's effect, on a live one. -/
theorem exec_next_eng {i : Instr} {s t : State} (h : exec i s = .next t) :
    t = { s with eng := t.eng, out := t.out } ∧
      ((s.eng.fault ≠ none ∧ t.eng = s.eng) ∨ (s.eng.fault = none ∧ t.eng = (s.eng.applyTxn i).1)) := by
  cases hf : s.eng.fault with
  | none =>
    rw [exec_live i hf] at h
    cases h
    exact ⟨rfl, Or.inr ⟨rfl, rfl⟩⟩
  | some r =>
    rw [exec_faulted i hf] at h
    cases h
    exact ⟨rfl, Or.inl ⟨Option.some_ne_none r, rfl⟩⟩

/-- The fields that no transaction writes (R12, R17, R18, R19, R24, R26, R47). -/
structure Engine.SameConfig (e e' : Engine) : Prop where
  shim : e'.shim = e.shim
  intVecs : e'.intVecs = e.intVecs
  flat : e'.flat = e.flat
  romMode : e'.romMode = e.romMode
  header : e'.header = e.header
  file : e'.file = e.file
  initialised : e'.initialised = e.initialised
  sink : e'.sink = e.sink

theorem Engine.SameBus.sameConfig {e e' : Engine} (h : e.SameBus e') : e.SameConfig e' :=
  ⟨h.shim, h.intVecs, h.flat, h.romMode, h.header, h.file, h.initialised, h.sink⟩

theorem Engine.readRom_sameBus (k : Fin 8) (off : Fin 0x1000) (e : Engine) : e.SameBus (e.readRom k off).1 := by
  rcases e.readRom_cases k off with ⟨i, l, -, -, -, h⟩ | ⟨i, info, -, -, h⟩ | ⟨-, h⟩ | ⟨-, h⟩ <;> rw [h] <;>
    exact ⟨rfl, rfl, rfl, rfl, rfl, rfl, rfl, rfl, rfl, rfl, rfl⟩

/-- A bank-register write stores its register; what else it changes is the cache's, the windows' and the fault's. -/
theorem Engine.writeBankreg_sameBus (k : Fin 8) (v : Byte) (e : Engine) :
    Engine.SameBus { e with bankRegs := e.bankRegs.set k v } (e.writeBankreg k v) := by
  by_cases hv : v = e.bankRegs[k]
  · subst hv
    rw [Engine.writeBankreg, if_pos rfl]
    exact ⟨rfl, rfl, rfl, (Vector.set_getElem_self k.isLt).symm, rfl, rfl, rfl, rfl, rfl, rfl, rfl⟩
  · rw [Engine.writeBankreg_of_ne hv]
    exact Engine.loadBank_sameBus k.val v _

theorem Engine.writeBankreg_sameConfig (k : Fin 8) (v : Byte) (e : Engine) : e.SameConfig (e.writeBankreg k v) := by
  obtain ⟨hshim, hvecs, hflat, hmode, hheader, hfile, hinit, hsink⟩ := (e.writeBankreg_sameBus k v).sameConfig
  exact ⟨hshim, hvecs, hflat, hmode, hheader, hfile, hinit, hsink⟩

/-- The effect of a transaction is confined to RAM, the APU shadows, the bank registers, the cache with its windows, the
fault, the history and P_IO. -/
theorem Engine.applyTxn_sameConfig (i : Instr) (e : Engine) : e.SameConfig (e.applyTxn i).1 := by
  cases i with
  | rdRom k off => exact (e.readRom_sameBus k off).sameConfig
  | wrBankreg k v => exact e.writeBankreg_sameConfig k v
  | _ => exact ⟨rfl, rfl, rfl, rfl, rfl, rfl, rfl, rfl⟩

theorem exec_sameConfig {i : Instr} {s t : State} (h : exec i s = .next t) : s.eng.SameConfig t.eng := by
  obtain ⟨-, ⟨-, heng⟩ | ⟨-, heng⟩⟩ := exec_next_eng h <;> rw [heng]
  · exact (Engine.SameBus.rfl _).sameConfig
  · exact s.eng.applyTxn_sameConfig i

/-- Settles O11: `exec_sameConfig`, field by field. -/
theorem transactionsKeepTheConfiguration : Obligations.TransactionsKeepTheConfiguration := by
  intro i s t h
  obtain ⟨hshim, hvecs, hflat, hmode, hheader, hfile, hinit, hsink⟩ := exec_sameConfig h
  exact ⟨hshim, hvecs, hflat, hmode, hheader, hfile, hinit, hsink⟩

end Sys2Proof.Machine
end

section
/-! PROOFS. The rules for the fill and for a load whose file read fails (spec/42_bank_cache.md R74, R79), and the statement
on them. -/

namespace Sys2Proof.Machine

/-! ## The fill (R79) -/

/-- The bytes of a slot filled with bank `b`. -/
def Engine.bankBytes (b : Byte) (e : Engine) : Memory :=
  Memory.ofBytes (bankLocation e.header.loadAddress b).inBank
    (fileBytes e.file (bankLocation e.header.loadAddress b).offset (bankLocation e.header.loadAddress b).len)

/-- The diagnostic of a fill with bank `b`, where the file ends before the bank does (R96). -/
def Engine.shortBankRead (b : Byte) (e : Engine) : List Event :=
  if e.file.length < (bankLocation e.header.loadAddress b).offset + (bankLocation e.header.loadAddress b).len then
    [.diag (.shortRomRead (.bank b) (e.file.length - (bankLocation e.header.loadAddress b).offset)
      (bankLocation e.header.loadAddress b).len)]
  else []

/-- A read is short just if the file holds fewer bytes past its start; these are then the bytes present. -/
theorem short_fileBytes (file : List Byte) (off n : Nat) (src : ReadSource) :
    (if (fileBytes file off n).length < n then [Event.diag (.shortRomRead src (fileBytes file off n).length n)] else []) =
      if file.length - off < n then [Event.diag (.shortRomRead src (file.length - off) n)] else [] := by
  rw [fileBytes_length]
  by_cases hshort : file.length - off < n
  · rw [if_pos hshort, Nat.min_eq_right hshort.le, if_pos hshort]
  · rw [if_neg hshort, if_neg (by omega)]

theorem bankLocation_len_pos (load : Addr) (b : Byte) : 0 < (bankLocation load b).len := by
  by_cases hb : b = 0#8
  · have hp := padding_lt load
    rw [hb, bankLocation_zero]
    dsimp only
    omega
  · rw [bankLocation_of_ne load hb]
    exact Nat.succ_pos _

theorem Engine.shortBankRead_eq (b : Byte) (e : Engine) :
    e.shortBankRead b =
      if e.file.length - (bankLocation e.header.loadAddress b).offset < (bankLocation e.header.loadAddress b).len then
        [.diag (.shortRomRead (.bank b) (e.file.length - (bankLocation e.header.loadAddress b).offset)
          (bankLocation e.header.loadAddress b).len)]
      else [] := by
  have hlen := bankLocation_len_pos e.header.loadAddress b
  have hshort : e.file.length < (bankLocation e.header.loadAddress b).offset + (bankLocation e.header.loadAddress b).len ↔
      e.file.length - (bankLocation e.header.loadAddress b).offset < (bankLocation e.header.loadAddress b).len := by omega
  exact if_congr hshort rfl rfl

theorem Engine.fill_of_failed_read (v : Fin 10) (b : Byte) {e : Engine} (hio : e.ioFail.headD false = true) :
    e.fill v b = .raise { e with cache := e.cache.set v [], ioFail := e.ioFail.tail } .ioError (.bankRead b) := by
  rw [Engine.fill_eq, if_pos hio]

theorem Engine.fill_of_read (v : Fin 10) (b : Byte) {e : Engine} (hio : e.ioFail.headD false = false) :
    e.fill v b = .ok { e with
      cache := e.cache.set v (e.bankBytes b)
      ioFail := e.ioFail.tail
      events := e.events ++ e.shortBankRead b } () := by
  rw [Engine.fill_eq, if_neg (Bool.eq_false_iff.1 hio), short_fileBytes, ← Engine.shortBankRead_eq]
  rfl

/-- A filled slot byte by byte: the file's byte inside the bank's place, 0 outside it. -/
theorem Engine.read_bankBytes (b : Byte) (e : Engine) (off : Nat) :
    (e.bankBytes b).read off = bankByte e.file e.header.loadAddress b off := by
  rw [Engine.bankBytes, Memory.read_ofBytes, fileBytes_getD, bankByte]
  by_cases hlow : (bankLocation e.header.loadAddress b).inBank ≤ off
  · rw [if_pos hlow]
    exact if_congr (by omega) rfl rfl
  · rw [if_neg hlow, if_neg fun h => hlow h.1]

/-! ## A load whose file read fails (R74, R97) -/

/-- The victim's slot is not loaded, and choosing it leaves the slots' bytes, P_IO and the history alone. -/
theorem Engine.chooseVictim_ok {e e1 : Engine} {v : Fin 10} (h : e.chooseVictim = .ok e1 v) :
    e1.slotLoaded[v] = false ∧ e1.cache = e.cache ∧ e1.ioFail = e.ioFail ∧ e1.events = e.events ∧ e1.fault = e.fault := by
  rcases e.chooseVictim_cases with ⟨w, hfree, hc⟩ | ⟨-, -, hc⟩ | ⟨_, -, -, -, hc⟩ | ⟨_, w, -, -, -, hc⟩ <;>
    cases hc.symm.trans h
  · exact ⟨((e.freeSlot_eq_some v).1 hfree).1, rfl, rfl, rfl, rfl⟩
  · exact ⟨(get_set _ v v _).trans (if_pos rfl), rfl, rfl, rfl, rfl⟩

theorem Engine.loadBank_of_failed_read (r : Fin 8) {b : Byte} {e e1 : Engine} {v : Fin 10} (hs : e.slotHolding b = none)
    (hc : e.chooseVictim = .ok e1 v) (hio : e.ioFail.headD false = true) :
    e.loadBank r.val b = { e1 with
      cache := e.cache.set v []
      ioFail := e.ioFail.tail
      events := e.events ++ [.bankLoad r.val b (.fault .ioError)]
      fault := some ⟨.ioError, .bankRead b⟩ } := by
  obtain ⟨-, hcache, hanswers, hevents, -⟩ := Engine.chooseVictim_ok hc
  have hfill := Engine.fill_of_failed_read v b (e := e1) (by rw [hanswers]; exact hio)
  have hsteps : e.loadSteps r b =
      .raise { e1 with cache := e1.cache.set v [], ioFail := e1.ioFail.tail } .ioError (.bankRead b) := by
    simp only [Engine.loadSteps, hs, hc, hfill, Attempt.andThen_ok, Attempt.andThen_raise]
  rw [Engine.loadBank_eq, hsteps, hcache, hanswers, ← hevents]
  rfl

/-- Settles O37: the fill by P_IO's answer (`Engine.fill_of_failed_read`, `Engine.fill_of_read`), its bytes by
`Engine.read_bankBytes`, and the load it ends by `Engine.loadBank_of_failed_read`. -/
theorem fillReadsTheBank : Obligations.FillReadsTheBank :=
  ⟨fun _ v b => Engine.fill_of_failed_read v b,
    fun e v b hio => ⟨e.bankBytes b, Engine.fill_of_read v b hio, e.read_bankBytes b⟩,
    fun e _ r b _ hres hc hio => ⟨(Engine.chooseVictim_ok hc).1,
      Engine.loadBank_of_failed_read r ((e.slotHolding_eq_none b).2 hres) hc hio⟩⟩

end Sys2Proof.Machine
end

section
/-! PROOFS. The event history (spec/10_state.md R27, spec/60_exceptions.md R96): no operation of the bus or of the bank
cache reads it, each appends to it, and the bank cache makes no call of the sink. -/

namespace Sys2Proof.Machine

/-- The engine with another history. -/
def Engine.withEvents (evs : List Event) (e : Engine) : Engine := { e with events := evs }

/-- The attempt with its engine changed. -/
def Attempt.mapEngine {α : Type} (f : Engine → Engine) : Attempt α → Attempt α
  | .ok e a => .ok (f e) a
  | .raise e kind info => .raise (f e) kind info

/-- On engine `e` the operation appends `new` to the history, whatever the history is, and does not read it. -/
def Attempt.Appends {α : Type} (f : Engine → Attempt α) (e : Engine) (new : List Event) : Prop :=
  ∀ evs, f (e.withEvents evs) = (f e).mapEngine (·.withEvents (evs ++ new))

/-- The operation appends events that are no call of the sink. -/
def Attempt.Silent {α : Type} (f : Engine → Attempt α) (e : Engine) : Prop :=
  ∃ new, sinkCalls new = [] ∧ Attempt.Appends f e new

theorem sinkCalls_append (xs ys : List Event) : sinkCalls (xs ++ ys) = sinkCalls xs ++ sinkCalls ys :=
  List.filterMap_append

/-- An operation that touches neither the history nor anything that depends on it. -/
theorem Attempt.silent_of_nothing {α : Type} {f : Engine → Attempt α} {e : Engine}
    (h : ∀ evs, f (e.withEvents evs) = (f e).mapEngine (·.withEvents evs)) : Attempt.Silent f e :=
  ⟨[], rfl, fun evs => by rw [List.append_nil]; exact h evs⟩

theorem Attempt.Silent.andThen {α β : Type} {f : Engine → Attempt α} {g : Engine → α → Attempt β} {e : Engine}
    (hf : Attempt.Silent f e) (hg : ∀ e' a, f e = .ok e' a → Attempt.Silent (fun x => g x a) e') :
    Attempt.Silent (fun x => (f x).andThen g) e := by
  obtain ⟨new, hsilent, hnew⟩ := hf
  cases hfe : f e with
  | raise e' kind info =>
    refine ⟨new, hsilent, fun evs => ?_⟩
    simp only [hnew evs, hfe, Attempt.mapEngine, Attempt.andThen_raise]
  | ok e' a =>
    obtain ⟨new', hsilent', hnew'⟩ := hg e' a hfe
    refine ⟨new ++ new', by rw [sinkCalls_append, hsilent, hsilent', List.append_nil], fun evs => ?_⟩
    have hgo := hnew' (evs ++ new)
    rw [List.append_assoc] at hgo
    simp only [hnew evs, hfe, Attempt.mapEngine, Attempt.andThen_ok]
    exact hgo

/-! ## The steps of the bank cache -/

theorem Engine.touch_silent (b : Byte) (e : Engine) : Attempt.Silent (Engine.touch b) e := by
  refine Attempt.silent_of_nothing fun evs => ?_
  have hlru : (e.withEvents evs).lru = e.lru := rfl
  rw [Engine.touch, Engine.touch, hlru]
  cases lruTouch b e.lru <;> rfl

theorem Engine.chooseVictim_silent (e : Engine) : Attempt.Silent Engine.chooseVictim e := by
  refine Attempt.silent_of_nothing fun evs => ?_
  have hfree : (e.withEvents evs).freeSlot = e.freeSlot := rfl
  rcases e.chooseVictim_cases with ⟨v, hf, h⟩ | ⟨hf, h9, h⟩ | ⟨ob, hf, h9, hs, h⟩ | ⟨ob, v, hf, h9, hs, h⟩ <;> rw [h]
  · exact Engine.chooseVictim_of_free (hfree.trans hf)
  · exact Engine.chooseVictim_of_tailEmpty (hfree.trans hf) h9
  · exact Engine.chooseVictim_of_notFound (hfree.trans hf) h9 hs
  · exact Engine.chooseVictim_of_tail (hfree.trans hf) h9 hs

theorem Engine.fill_silent (v : Fin 10) (b : Byte) (e : Engine) : Attempt.Silent (Engine.fill v b) e := by
  by_cases hio : e.ioFail.headD false = true
  · refine Attempt.silent_of_nothing fun evs => ?_
    rw [Engine.fill_of_failed_read v b hio, Engine.fill_of_failed_read v b (e := e.withEvents evs) hio]
    rfl
  · have hok := Bool.eq_false_iff.2 hio
    refine ⟨e.shortBankRead b, ?_, fun evs => ?_⟩
    · rw [Engine.shortBankRead]
      split <;> rfl
    · rw [Engine.fill_of_read v b hok, Engine.fill_of_read v b (e := e.withEvents evs) hok]
      rfl

theorem Engine.loadSteps_silent (r : Fin 8) (b : Byte) (e : Engine) : Attempt.Silent (Engine.loadSteps r b) e := by
  cases hs : e.slotHolding b with
  | some i =>
    obtain ⟨new, hsilent, hnew⟩ := Attempt.Silent.andThen (g := fun e (_ : Unit) => .ok e (LoadOutcome.hit i))
      (Engine.touch_silent b { e with win := e.win.set r (.cache i), winBank := e.winBank.set r b })
      fun e' _ _ => Attempt.silent_of_nothing fun _ => rfl
    refine ⟨new, hsilent, fun evs => ?_⟩
    have hs' : (e.withEvents evs).slotHolding b = some i := hs
    simp only [Engine.loadSteps, hs, hs']
    exact hnew evs
  | none =>
    obtain ⟨new, hsilent, hnew⟩ := e.chooseVictim_silent.andThen fun e1 v _ =>
      (Engine.fill_silent v b e1).andThen fun e2 _ _ =>
        Attempt.Silent.andThen (f := Engine.install r b v) (g := fun e (_ : Unit) => .ok e (LoadOutcome.fill v))
          (Engine.touch_silent b { e2 with
            slotLoaded := e2.slotLoaded.set v true, slotBankId := e2.slotBankId.set v b
            win := e2.win.set r (.cache v), winBank := e2.winBank.set r b })
          fun e' _ _ => Attempt.silent_of_nothing fun _ => rfl
    refine ⟨new, hsilent, fun evs => ?_⟩
    have hs' : (e.withEvents evs).slotHolding b = none := hs
    simp only [Engine.loadSteps, hs, hs']
    exact hnew evs

/-- `load_bank` appends to the history, its `BankLoad` event last, without reading it, and calls no sink (R27, R74). -/
theorem Engine.loadBank_appends (r : Fin 8) (b : Byte) (e : Engine) :
    ∃ new, sinkCalls new = [] ∧
      ∀ evs, (e.withEvents evs).loadBank r.val b = (e.loadBank r.val b).withEvents (evs ++ new) := by
  obtain ⟨new, hsilent, hnew⟩ := e.loadSteps_silent r b
  cases hsteps : e.loadSteps r b with
  | ok e' o =>
    refine ⟨new ++ [.bankLoad r.val b o], by rw [sinkCalls_append, hsilent]; rfl, fun evs => ?_⟩
    rw [Engine.loadBank_eq, Engine.loadBank_eq, hnew evs, hsteps, ← List.append_assoc]
    rfl
  | raise e' kind info =>
    refine ⟨new ++ [.bankLoad r.val b (.fault kind)], by rw [sinkCalls_append, hsilent]; rfl, fun evs => ?_⟩
    rw [Engine.loadBank_eq, Engine.loadBank_eq, hnew evs, hsteps, ← List.append_assoc]
    rfl

/-! ## The transactions -/

/-- The calls of the sink that a transaction on a live engine makes (R68, R69). -/
def txnSinkCalls : Instr → List (Addr × Byte)
  | .wrApu n v => [(apuAddr n, v)]
  | _ => []

theorem Engine.readRom_appends (k : Fin 8) (off : Fin 0x1000) (e : Engine) :
    ∃ new, sinkCalls new = [] ∧ ∀ evs, (e.withEvents evs).readRom k off =
      ((e.readRom k off).1.withEvents (evs ++ new), (e.readRom k off).2) := by
  cases hw : e.win[k] with
  | unmapped =>
    refine ⟨[.diag (.unmappedRomRead (romAddr k off))], rfl, fun evs => ?_⟩
    rw [Engine.readRom_unmapped off hw, Engine.readRom_unmapped off (e := e.withEvents evs) hw]
    rfl
  | flat =>
    refine ⟨[], rfl, fun evs => ?_⟩
    have hw' : (e.withEvents evs).win[k] = .flat := hw
    simp only [Engine.readRom, translate, hw, hw', List.append_nil]
    rfl
  | cache i =>
    refine ⟨[], rfl, fun evs => ?_⟩
    rw [List.append_nil]
    cases hl : e.slotLoaded[i] with
    | false =>
      rw [Engine.readRom_unloaded off hw hl, Engine.readRom_unloaded off (e := e.withEvents evs) hw hl]
      rfl
    | true =>
      cases ht : lruTouch e.slotBankId[i] e.lru with
      | some l =>
        rw [Engine.readRom_touched off hw hl ht, Engine.readRom_touched off (e := e.withEvents evs) hw hl ht]
        rfl
      | none =>
        rw [Engine.readRom_full off hw hl ht, Engine.readRom_full off (e := e.withEvents evs) hw hl ht]
        rfl

/-- A transaction appends to the history without reading it; its calls of the sink are `txnSinkCalls`. -/
theorem Engine.applyTxn_appends (i : Instr) (e : Engine) :
    ∃ new, sinkCalls new = txnSinkCalls i ∧ ∀ evs, (e.withEvents evs).applyTxn i =
      ((e.applyTxn i).1.withEvents (evs ++ new), (e.applyTxn i).2) := by
  cases i with
  | rdRom k off => exact e.readRom_appends k off
  | wrApu n v => exact ⟨[.apuWrite (apuAddr n) v], rfl, fun _ => rfl⟩
  | wrBankreg k v =>
    by_cases hv : v = e.bankRegs[k]
    · refine ⟨[], rfl, fun evs => ?_⟩
      have hv' : v = (e.withEvents evs).bankRegs[k] := hv
      simp only [Engine.applyTxn, Engine.writeBankreg, if_pos hv, if_pos hv', List.append_nil]
    · obtain ⟨new, hsilent, hnew⟩ := Engine.loadBank_appends k v { e with bankRegs := e.bankRegs.set k v }
      refine ⟨new, hsilent, fun evs => ?_⟩
      have hv' : v ≠ (e.withEvents evs).bankRegs[k] := hv
      simp only [Engine.applyTxn, Engine.writeBankreg_of_ne hv, Engine.writeBankreg_of_ne hv']
      exact Prod.ext (hnew evs) rfl
  | _ => exact ⟨[], rfl, fun evs => by rw [List.append_nil]; rfl⟩

end Sys2Proof.Machine
end

section
/-! PROOFS. The statements on the event history (spec/10_state.md R27, spec/41_bus_write.md R68, R69), from the rules
above. -/

namespace Sys2Proof.Machine

/-- Settles O16: on a live engine the new events are those of `Engine.applyTxn_appends`, on a faulted one there are
none. -/
theorem eventHistoryOnlyGrows : Obligations.EventHistoryOnlyGrows := by
  intro i s t h
  cases hf : s.eng.fault with
  | some r =>
    rw [exec_faulted i hf] at h
    cases h
    refine ⟨[], (List.append_nil _).symm, fun evs => ?_⟩
    rw [List.append_nil]
    exact exec_faulted i hf
  | none =>
    obtain ⟨new, -, hnew⟩ := s.eng.applyTxn_appends i
    rw [exec_live i hf] at h
    cases h
    refine ⟨new, congrArg (fun p => p.1.events) (hnew s.eng.events), fun evs => ?_⟩
    have hlive : ({ s with eng := s.eng.withEvents evs } : State).eng.fault = none := hf
    refine (exec_live i hlive).trans ?_
    rw [hnew evs]
    rfl

/-- Settles O17: the calls among the new events are those of `Engine.applyTxn_appends`. -/
theorem sinkHearsExactlyTheApuWrites : Obligations.SinkHearsExactlyTheApuWrites := by
  intro i s t h
  obtain ⟨-, ⟨hf, heng⟩ | ⟨hf, heng⟩⟩ := exec_next_eng h <;> rw [heng]
  · cases i <;> simp only [if_neg hf, List.append_nil]
  · obtain ⟨new, hcalls, hnew⟩ := s.eng.applyTxn_appends i
    have hevents : (s.eng.applyTxn i).1.events = s.eng.events ++ new :=
      congrArg (fun p => p.1.events) (hnew s.eng.events)
    rw [hevents, sinkCalls_append, hcalls]
    cases i <;> simp only [txnSinkCalls, if_pos hf, apuAddr]

end Sys2Proof.Machine
end

section
/-! PROOFS. The bytes the bus shows (spec/20_memory.md R33, R41): a read on a sound live engine answers one and changes none,
a write changes the one at its own address, and a transaction repeated at once. -/

namespace Sys2Proof.Machine

/-! ## A ROM read on a sound cache (R63, R82 item 5) -/

/-- The touch of a window's bank is all a ROM read does to a sound cache, but for the diagnostic of an unmapped window. -/
theorem Engine.CacheInv.readRom_eq {e : Engine} (h : e.CacheInv) (k : Fin 8) (off : Fin 0x1000) :
    ∃ (l : Vector (Option Byte) 10) (evs : List Event),
      e.readRom k off = ({ e with lru := l, events := evs }, e.romByte k off) ∧
      (∀ i : Fin 10, e.win[k] = .cache i → l[0] = some e.slotBankId[i] ∧ evs = e.events) ∧
      (e.win[k] = .flat → l = e.lru ∧ evs = e.events) ∧
      (e.win[k] = .unmapped → l = e.lru ∧ evs = e.events ++ [.diag (.unmappedRomRead (romAddr k off))]) := by
  cases hw : e.win[k] with
  | unmapped =>
    refine ⟨e.lru, _, ?_, nofun, nofun, fun _ => ⟨rfl, rfl⟩⟩
    simp only [Engine.readRom_unmapped off hw, Engine.romByte, translate, hw]
    rfl
  | flat =>
    refine ⟨e.lru, e.events, ?_, nofun, fun _ => ⟨rfl, rfl⟩, nofun⟩
    simp only [Engine.readRom, Engine.romByte, translate, hw]
  | cache i =>
    obtain ⟨l, htouch, hhead, -⟩ := h.touch_shown hw
    refine ⟨l, e.events, ?_, ?_, nofun, nofun⟩
    · simp only [Engine.readRom_touched off hw (h.shown k i hw).1 htouch, Engine.romByte, translate, hw]
    · rintro _ ⟨rfl⟩
      exact ⟨hhead, rfl⟩

/-! ## The byte of a place -/

/-- The byte the bus shows in a region, at its index there (R33). -/
def Engine.regionByte (e : Engine) : Region → Byte
  | .ram i => e.ram.read i.val
  | .shim i => e.shim.read i.val
  | .apu n => e.apuRegs[n]
  | .bankreg k => e.bankRegs[k]
  | .rom k off => e.romByte k off
  | .vec i => e.intVecs[i]
  | .unmapped _ => 0#8

theorem Engine.busByte_eq (e : Engine) (a : Addr) : e.busByte a = e.regionByte (regionOf a) := by
  rw [Engine.busByte]
  cases regionOf a <;> rfl

/-- What the bus shows does not depend on the order of the list or on the history. -/
theorem Engine.busByte_of_touch (e : Engine) (l : Vector (Option Byte) 10) (evs : List Event) (a : Addr) :
    Engine.busByte { e with lru := l, events := evs } a = e.busByte a := by
  rw [Engine.busByte_eq, Engine.busByte_eq]
  cases regionOf a <;> rfl

/-- A read on a sound cache answers the byte of its region and touches at most the list and the history. -/
theorem Engine.CacheInv.applyTxn_read {e : Engine} (h : e.CacheInv) (r : Region) :
    ∃ l evs, e.applyTxn r.read = ({ e with lru := l, events := evs }, e.regionByte r) := by
  cases r with
  | rom k off =>
    obtain ⟨l, evs, heq, -⟩ := h.readRom_eq k off
    exact ⟨l, evs, heq⟩
  | _ => exact ⟨e.lru, e.events, rfl⟩

/-! ## Where a transaction stores -/

/-- The place a transaction stores its datum at. -/
def storeRegion (i : Instr) : Option Region :=
  if (storeAddr i).isSome then some i.region else none

/-- `storeAddr` names the place by its address, at the ill-formed `wrApu 0x16` too. -/
theorem storeRegion_eq (i : Instr) : storeRegion i = (storeAddr i).map regionOf := by
  cases i with
  | wrRam j v => exact congrArg some (regionOf_ram j.isLt).symm
  | wrApu n v => exact congrArg some (regionOf_apu n).symm
  | wrApuStrobe v => exact congrArg some (regionOf_apu 0x16).symm
  | wrBankreg k v => exact congrArg some (regionOf_bankreg k).symm
  | _ => rfl

theorem storeRegion_eq_some_iff (i : Instr) (a : Addr) : storeRegion i = some (regionOf a) ↔ storeAddr i = some a := by
  rw [storeRegion_eq, Option.map_eq_some_iff]
  constructor
  · rintro ⟨b, hb, heq⟩
    rw [hb, regionOf_injective heq]
  · exact fun h => ⟨a, h, rfl⟩

/-- The address lies in a ROM window just if its region is one. -/
theorem romWindowAddr_of_region {a : Addr} {k : Fin 8} {off : Fin 0x1000} (hr : regionOf a = .rom k off) :
    romWindowAddr a := by
  rcases regionOf_cases a with ⟨i, hn, h⟩ | ⟨i, hn, h⟩ | ⟨n, hn, h⟩ | ⟨k', hn, h⟩ | ⟨k', off', hrom, hn, h⟩ |
    ⟨i, hn, h⟩ | ⟨-, h⟩ <;> cases h.symm.trans hr
  have hlt := romOperand_lt hrom
  constructor <;> omega

/-- After a transaction on a live engine with sound memories its own place shows the datum and every other place what it
showed, but for the ROM windows after a bank-register write. -/
theorem Engine.MemWf.applyTxn_regionByte {e : Engine} (h : e.MemWf) (i : Instr) (r : Region)
    (hrom : ∀ k off, i.cls = .WR_BANKREG → r ≠ .rom k off) :
    (e.applyTxn i).1.regionByte r = if storeRegion i = some r then i.datum else e.regionByte r := by
  cases i with
  | rdRom k off =>
    rcases e.readRom_cases k off with ⟨_, _, _, _, _, heq⟩ | ⟨_, _, _, _, heq⟩ | ⟨_, heq⟩ | ⟨_, heq⟩ <;>
      simp only [Engine.applyTxn, heq] <;> cases r <;> rfl
  | wrRam j v =>
    cases r with
    | ram j' =>
      have hread := Memory.read_write (Memory.wfFrom_of_wf h.ram) j.val v j'.val
      refine hread.trans (if_congr ?_ rfl rfl)
      exact Fin.ext_iff.symm.trans (eq_comm.trans ⟨fun hj => hj ▸ rfl, fun hj => by cases hj; rfl⟩)
    | _ => rfl
  | wrApu n v =>
    cases r with
    | apu n' => exact (get_set _ n n' v).trans (if_congr ⟨fun hn => hn ▸ rfl, fun hn => by cases hn; rfl⟩ rfl rfl)
    | _ => rfl
  | wrApuStrobe v =>
    cases r with
    | apu n' => exact (get_set _ 0x16 n' v).trans (if_congr ⟨fun hn => hn ▸ rfl, fun hn => by cases hn; rfl⟩ rfl rfl)
    | _ => rfl
  | wrBankreg k v =>
    have hsame := e.writeBankreg_sameBus k v
    cases r with
    | ram j => exact congrArg (Memory.read · j.val) hsame.ram
    | shim j => exact congrArg (Memory.read · j.val) hsame.shim
    | apu n => exact congrArg (fun regs : Vector Byte 0x18 => regs[n]) hsame.apuRegs
    | bankreg k' =>
      refine (congrArg (fun regs : Vector Byte 8 => regs[k']) hsame.bankRegs).trans ?_
      exact (get_set _ k k' v).trans (if_congr ⟨fun hk => hk ▸ rfl, fun hk => by cases hk; rfl⟩ rfl rfl)
    | rom k' off => exact absurd rfl (hrom k' off rfl)
    | vec j => exact congrArg (fun vecs : Vector Byte 6 => vecs[j]) hsame.intVecs
    | unmapped a => rfl
  | _ => cases r <;> rfl

/-! ## A transaction repeated (R41) -/

theorem exec_twice_eng {i : Instr} {s t u : State} (hf : s.eng.fault = none) (hfirst : exec i s = .next t)
    (hsecond : exec i t = .next u) (hf' : (s.eng.applyTxn i).1.fault = none) :
    t.eng = (s.eng.applyTxn i).1 ∧ u.eng = ((s.eng.applyTxn i).1.applyTxn i).1 := by
  rw [exec_live i hf] at hfirst
  cases hfirst
  rw [exec_live i hf'] at hsecond
  cases hsecond
  exact ⟨rfl, rfl⟩

theorem Memory.write_write {m : Memory} (h : Memory.wfFrom 0 m = true) (a : Nat) (v : Byte) :
    (m.write a v).write a v = m.write a v := by
  have hwf := Memory.wfFrom_write h (Nat.zero_le a) v
  refine Memory.ext_read (Memory.wfFrom_write hwf (Nat.zero_le a) v) hwf fun x => ?_
  rw [Memory.read_write hwf]
  by_cases hx : x = a
  · rw [if_pos hx, Memory.read_write h, if_pos hx]
  · rw [if_neg hx]

/-- Read again at once, a ROM byte finds its bank at the head of the list. -/
theorem Engine.CacheInv.readRom_twice {e : Engine} (h : e.CacheInv) (k : Fin 8) (off : Fin 0x1000) :
    ((e.readRom k off).1.readRom k off).1 =
      if e.win[k] = .unmapped then (e.readRom k off).1.emit (.diag (.unmappedRomRead (romAddr k off)))
      else (e.readRom k off).1 := by
  cases hw : e.win[k] with
  | unmapped =>
    have hw' : (e.readRom k off).1.win[k] = .unmapped := by rwa [Engine.readRom_unmapped off hw]
    rw [Engine.readRom_unmapped off hw', if_pos rfl]
  | flat =>
    have hfirst : e.readRom k off = (e, e.flatByte (0x1000 * k.val + off.val)) := by
      simp only [Engine.readRom, translate, hw]
    rw [hfirst, hfirst, if_neg nofun]
  | cache i =>
    obtain ⟨l, htouch, hhead, -⟩ := h.touch_shown hw
    have hloaded := (h.shown k i hw).1
    rw [if_neg nofun, Engine.readRom_touched off hw hloaded htouch,
      Engine.readRom_touched (e := { e with lru := l }) off hw hloaded (lruTouch_of_head hhead)]

end Sys2Proof.Machine
end

section
/-! PROOFS. The statements on the bytes of the bus (spec/20_memory.md R33, R41, spec/40_bus_read.md R63,
spec/42_bank_cache.md R83), from the rules above. -/

namespace Sys2Proof.Machine

/-- Settles O23: `Engine.CacheInv.readRom_eq`, by the window's target. -/
theorem readRomTouchesTheBank : Obligations.ReadRomTouchesTheBank := by
  intro k off s hinv hf
  obtain ⟨l, evs, heq, hcache, hflat, hunmapped⟩ := hinv.readRom_eq k off
  exact ⟨l, evs, exec_read_live rfl hf heq, hcache, hflat, fun hw => (hunmapped hw).1⟩

/-- Settles O13: the address decodes to the read of its region, which answers the region's byte and touches only what the
bus does not show. -/
theorem readsAnswerTheBusByte : Obligations.ReadsAnswerTheBusByte := by
  intro s a d hinv hf
  obtain ⟨l, evs, heq⟩ := hinv.applyTxn_read (regionOf a)
  rw [decode_read_of_region rfl, s.eng.busByte_eq]
  exact ⟨_, exec_read_live (Region.read_isWrite _) hf heq, hf, s.eng.busByte_of_touch l evs⟩

/-- Settles O14: an address is known by its region (`storeRegion_eq_some_iff`), and the effect of a write on each region is
`Engine.MemWf.applyTxn_regionByte`. -/
theorem writesReachOnlyTheirAddress : Obligations.WritesReachOnlyTheirAddress := by
  intro i s t hmem hf h
  obtain ⟨-, ⟨hfaulted, -⟩ | ⟨-, heng⟩⟩ := exec_next_eng h
  · exact absurd hf hfaulted
  rw [heng]
  refine ⟨fun a ha => ?own, fun b hb hrom => ?other⟩
  case own =>
    have hstore := (storeRegion_eq_some_iff i a).2 ha
    rw [Engine.busByte_eq, hmem.applyTxn_regionByte, if_pos hstore]
    rintro k off - hr
    rw [hr] at hstore
    cases i <;> cases hstore
  case other =>
    rw [Engine.busByte_eq, Engine.busByte_eq, hmem.applyTxn_regionByte,
      if_neg fun hstore => hb ((storeRegion_eq_some_iff i b).1 hstore)]
    exact fun k off hcls hr => hrom ⟨hcls, romWindowAddr_of_region hr⟩

/-- Settles O15: RAM and the shadows hold the byte already, a bank register filters the repeated value
(`exec_wrBankreg_twice`), a ROM read finds its bank at the head (`Engine.CacheInv.readRom_twice`). -/
theorem repeatedTransactionsAreIdempotent : Obligations.RepeatedTransactionsAreIdempotent := by
  intro i s t u hmem hinv hf hfirst hsecond
  cases i with
  | wrBankreg k v =>
    cases (exec_wrBankreg_twice hfirst).symm.trans hsecond
    rfl
  | rdRom k off =>
    obtain ⟨l, evs, heq, -⟩ := hinv.readRom_eq k off
    obtain ⟨ht, hu⟩ := exec_twice_eng hf hfirst hsecond ((congrArg (fun p => p.1.fault) heq).trans hf)
    have htwice := hinv.readRom_twice k off
    by_cases hw : s.eng.win[k] = .unmapped
    · rw [if_pos hw] at htwice
      simp only [if_pos hw, hu, ht]
      exact htwice
    · rw [if_neg hw] at htwice
      simp only [if_neg hw, hu, ht]
      exact htwice
  | wrRam j v =>
    obtain ⟨ht, hu⟩ := exec_twice_eng hf hfirst hsecond hf
    have hram := Memory.write_write (Memory.wfFrom_of_wf hmem.ram) j.val v
    simp only [hu, ht, Engine.applyTxn, hram]
  | wrApu n v =>
    obtain ⟨ht, hu⟩ := exec_twice_eng hf hfirst hsecond hf
    simp only [hu, ht, Engine.applyTxn, Engine.setApu, Engine.emit, Vector.set_set]
  | wrApuStrobe v =>
    obtain ⟨ht, hu⟩ := exec_twice_eng hf hfirst hsecond hf
    simp only [hu, ht, Engine.applyTxn, Engine.setApu, Vector.set_set]
  | _ =>
    obtain ⟨ht, hu⟩ := exec_twice_eng hf hfirst hsecond hf
    exact hu.trans ht.symm

/-- Settles O40: the read answers the slot's byte, which in a sound engine is the bank's (R83). -/
theorem romReadsShowTheFile : Obligations.RomReadsShowTheFile := by
  intro s k off i hinv hf hw
  have hloaded := (hinv.bank.shown k i hw).1
  exact ⟨_, _, exec_read_live rfl hf rfl, hinv.readRom_of_shows ⟨i, hw, hloaded, rfl⟩ off⟩

end Sys2Proof.Machine
end

section
/-! PROOFS. The rules for a bank switch (spec/41_bus_write.md R70, spec/42_bank_cache.md R74 to R80): the three ways a load
completes, what it leaves in its slot, its window, the other slots and the other windows, and what no load does to a window
in any engine. -/

namespace Sys2Proof.Machine

/-! ## The three ways a load completes -/

/-- Bank `b` can be loaded: it is resident, or P_IO does not fail the next read (R75, R79; log 4). -/
def Engine.CanLoad (b : Byte) (e : Engine) : Prop :=
  (∃ i : Fin 10, e.slotLoaded[i] = true ∧ e.slotBankId[i] = b) ∨ e.ioFail.headD false = false

/-- The engine after bank `b` was filled into the free slot `v` and installed in window `r` (R79, R80). -/
def Engine.filled (r : Fin 8) (b : Byte) (v : Fin 10) (e : Engine) : Engine :=
  { e with
    cache := e.cache.set v (e.bankBytes b)
    ioFail := e.ioFail.tail
    slotLoaded := e.slotLoaded.set v true
    slotBankId := e.slotBankId.set v b
    win := e.win.set r (.cache v)
    winBank := e.winBank.set r b
    lru := lruShift 9 b e.lru
    events := e.events ++ e.shortBankRead b ++ [.bankLoad r.val b (.fill v)] }

/-- A load that misses a bank, past the choice of its victim. -/
theorem Engine.CacheInv.loadBank_of_victim {e e1 : Engine} (h : e.CacheInv) (r : Fin 8) {b : Byte} {v : Fin 10}
    (hs : e.slotHolding b = none) (hio : e.ioFail.headD false = false) (hc : e.chooseVictim = .ok e1 v) :
    e.loadBank r.val b = e1.filled r b v := by
  obtain ⟨-, -, hanswers, -⟩ := Engine.chooseVictim_ok hc
  have hfill := Engine.fill_of_read v b (e := e1) (by rw [hanswers]; exact hio)
  exact (loadBankMissInstallsTheVictim e e1 _ r b v h ((e.slotHolding_eq_none b).1 hs) hc hfill).2

/-- A load that can complete hits a slot, or fills the lowest free slot, or, where none is free, fills the slot it has
evicted, the one of the list's tail (R74 to R77). -/
theorem Engine.CacheInv.loadBank_cases {e : Engine} (h : e.CacheInv) (r : Fin 8) {b : Byte} (hcan : e.CanLoad b) :
    (∃ i l, e.slotHolding b = some i ∧ lruTouch b e.lru = some l ∧ e.loadBank r.val b = { e with
      win := e.win.set r (.cache i)
      winBank := e.winBank.set r b
      lru := l
      events := e.events ++ [.bankLoad r.val b (.hit i)] }) ∨
    (∃ v, e.slotHolding b = none ∧ e.freeSlot = some v ∧ e.loadBank r.val b = e.filled r b v) ∨
    (∃ v, e.slotHolding b = none ∧ e.freeSlot = none ∧ e.lru[9] = some e.slotBankId[v] ∧ e.slotLoaded[v] = true ∧
      e.loadBank r.val b = (e.evict v).filled r b v) := by
  cases hs : e.slotHolding b with
  | some i =>
    obtain ⟨hloaded, hbank⟩ := Engine.slotHolding_some hs
    obtain ⟨l, hl, -, hload, -⟩ := loadBankHitShowsTheSlot e r b i h hloaded hbank
    exact Or.inl ⟨i, l, rfl, hl, hload⟩
  | none =>
    have hio : e.ioFail.headD false = false :=
      hcan.resolve_left fun ⟨i, hloaded, hbank⟩ => (e.slotHolding_eq_none b).1 hs i hloaded hbank
    obtain ⟨e1, v, hc, -, -, -, -, -, -, -, hfrom⟩ := h.chooseVictim
    have hload := h.loadBank_of_victim r hs hio hc
    rcases hfrom with ⟨hfree, rfl⟩ | ⟨hfull, htail, hloaded, rfl⟩
    · exact Or.inr (Or.inl ⟨v, rfl, hfree, hload⟩)
    · exact Or.inr (Or.inr ⟨v, rfl, hfull, htail, hloaded, hload⟩)

/-- A load that raises no fault could complete. -/
theorem Engine.CacheInv.canLoad_of_unfaulted {e : Engine} (h : e.CacheInv) (r : Fin 8) {b : Byte}
    (hf : (e.loadBank r.val b).fault = none) : e.CanLoad b := by
  by_contra hcan
  obtain ⟨hres, hio⟩ := not_or.1 hcan
  have hs : e.slotHolding b = none :=
    (e.slotHolding_eq_none b).2 fun i hloaded hbank => hres ⟨i, hloaded, hbank⟩
  obtain ⟨e1, v, hc, -⟩ := h.chooseVictim
  rw [Engine.loadBank_of_failed_read r hs hc (Bool.eq_true_of_not_eq_false hio)] at hf
  cases hf

/-! ## What a completed load leaves -/

theorem loadOutcomes_append (xs ys : List Event) : loadOutcomes (xs ++ ys) = loadOutcomes xs ++ loadOutcomes ys :=
  List.filterMap_append

theorem Engine.loadOutcomes_shortBankRead (b : Byte) (e : Engine) : loadOutcomes (e.shortBankRead b) = [] := by
  rw [Engine.shortBankRead]
  split <;> rfl

/-- A fill is one outcome in the history, however short its read was. -/
theorem Engine.loadOutcomes_filled (r : Fin 8) (b : Byte) (v : Fin 10) (e : Engine) :
    loadOutcomes (e.filled r b v).events = loadOutcomes e.events ++ [.fill v] := by
  simp only [Engine.filled, loadOutcomes_append, Engine.loadOutcomes_shortBankRead, List.append_nil]
  rfl

/-- `e'` is `e` with slot `v` free: every other slot as it was, every window as it was or unmapped from `v`. -/
structure Engine.Freed (v : Fin 10) (e e' : Engine) : Prop where
  cache : e'.cache = e.cache
  events : e'.events = e.events
  fault : e'.fault = e.fault
  slots : ∀ j : Fin 10, j ≠ v → e'.slotLoaded[j] = e.slotLoaded[j] ∧ e'.slotBankId[j] = e.slotBankId[j]
  windows : ∀ j : Fin 8, (e'.win[j] = e.win[j] ∧ e'.winBank[j] = e.winBank[j]) ∨
    (e.win[j] = .cache v ∧ e'.win[j] = .unmapped ∧ e'.winBank[j] = 0#8)

theorem Engine.freed_self (v : Fin 10) (e : Engine) : e.Freed v e :=
  ⟨rfl, rfl, rfl, fun _ _ => ⟨rfl, rfl⟩, fun _ => Or.inl ⟨rfl, rfl⟩⟩

theorem Engine.freed_evict (v : Fin 10) (e : Engine) : e.Freed v (e.evict v) where
  cache := rfl
  events := rfl
  fault := rfl
  slots := fun j hj => ⟨(get_set _ v j _).trans (if_neg hj.symm), (get_set _ v j _).trans (if_neg hj.symm)⟩
  windows := fun j => by
    rw [Engine.evict_win, Engine.evict_winBank, get_ofFn, get_ofFn]
    by_cases hw : e.win[j] = .cache v
    · rw [if_pos hw, if_pos hw]
      exact Or.inr ⟨hw, rfl, rfl⟩
    · rw [if_neg hw, if_neg hw]
      exact Or.inl ⟨rfl, rfl⟩

/-- What a completed load of bank `b` into register `r` leaves, where `i` is the slot it shows. -/
structure Engine.Loaded (r : Fin 8) (b : Byte) (i : Fin 10) (e e' : Engine) : Prop where
  fault : e'.fault = e.fault
  win : e'.win[r] = .cache i
  winBank : e'.winBank[r] = b
  loaded : e'.slotLoaded[i] = true
  bank : e'.slotBankId[i] = b
  head : e'.lru[0] = some b
  outcome : ∃ o : LoadOutcome, loadOutcomes e'.events = loadOutcomes e.events ++ [o] ∧
    ((o = .hit i ∧ e.slotLoaded[i] = true ∧ e.slotBankId[i] = b ∧ e'.cache = e.cache) ∨
      (o = .fill i ∧ ∀ j : Fin 10, e.slotLoaded[j] = true → e.slotBankId[j] ≠ b))
  slots : ∀ j : Fin 10, j ≠ i → e'.slotLoaded[j] = e.slotLoaded[j] ∧ e'.slotBankId[j] = e.slotBankId[j] ∧
    e'.cache[j] = e.cache[j]
  windows : ∀ j : Fin 8, j ≠ r → (e'.win[j] = e.win[j] ∧ e'.winBank[j] = e.winBank[j]) ∨
    (e.win[j] = .cache i ∧ e'.win[j] = .unmapped ∧ e'.winBank[j] = 0#8)

theorem Engine.Freed.loaded {e e1 : Engine} {v : Fin 10} (h : e.Freed v e1) (r : Fin 8) {b : Byte}
    (hs : e.slotHolding b = none) : e.Loaded r b v (e1.filled r b v) where
  fault := h.fault
  win := (get_set _ r r _).trans (if_pos rfl)
  winBank := (get_set _ r r _).trans (if_pos rfl)
  loaded := (get_set _ v v _).trans (if_pos rfl)
  bank := (get_set _ v v _).trans (if_pos rfl)
  head := lruShift_get 9 b e1.lru 0
  outcome := by
    refine ⟨.fill v, ?_, Or.inr ⟨rfl, (e.slotHolding_eq_none b).1 hs⟩⟩
    rw [Engine.loadOutcomes_filled, h.events]
  slots := fun j hj => by
    obtain ⟨hloaded, hbank⟩ := h.slots j hj
    refine ⟨((get_set _ v j _).trans (if_neg hj.symm)).trans hloaded,
      ((get_set _ v j _).trans (if_neg hj.symm)).trans hbank, ((get_set _ v j _).trans (if_neg hj.symm)).trans ?_⟩
    rw [h.cache]
  windows := fun j hj => by
    have hwin : (e1.filled r b v).win[j] = e1.win[j] := (get_set _ r j _).trans (if_neg hj.symm)
    have hbank : (e1.filled r b v).winBank[j] = e1.winBank[j] := (get_set _ r j _).trans (if_neg hj.symm)
    rw [hwin, hbank]
    exact h.windows j

theorem Engine.CacheInv.loadBank_loaded {e : Engine} (h : e.CacheInv) (r : Fin 8) {b : Byte} (hcan : e.CanLoad b) :
    ∃ i, e.Loaded r b i (e.loadBank r.val b) := by
  rcases h.loadBank_cases r hcan with ⟨i, l, hs, hl, heq⟩ | ⟨v, hs, -, heq⟩ | ⟨v, hs, -, -, -, heq⟩ <;> rw [heq]
  · obtain ⟨hloaded, hbank⟩ := Engine.slotHolding_some hs
    exact ⟨i, {
      fault := rfl
      win := (get_set _ r r _).trans (if_pos rfl)
      winBank := (get_set _ r r _).trans (if_pos rfl)
      loaded := hloaded
      bank := hbank
      head := lruTouch_head hl
      outcome := ⟨.hit i, loadOutcomes_append _ _, Or.inl ⟨rfl, hloaded, hbank, rfl⟩⟩
      slots := fun _ _ => ⟨rfl, rfl, rfl⟩
      windows := fun j hj => Or.inl
        ⟨(get_set _ r j _).trans (if_neg hj.symm), (get_set _ r j _).trans (if_neg hj.symm)⟩ }⟩
  · exact ⟨v, (Engine.freed_self v e).loaded r hs⟩
  · exact ⟨v, (e.freed_evict v).loaded r hs⟩

/-- The same of a bank-register write that changes its register (R70). -/
theorem Engine.CacheInv.writeBankreg_loaded {e : Engine} (h : e.CacheInv) {k : Fin 8} {v : Byte}
    (hne : v ≠ e.bankRegs[k]) (hcan : e.CanLoad v) : ∃ i, e.Loaded k v i (e.writeBankreg k v) := by
  have hstored : Engine.CacheInv { e with bankRegs := e.bankRegs.set k v } := h.congr rfl rfl rfl rfl rfl rfl rfl
  rw [Engine.writeBankreg_of_ne hne]
  obtain ⟨i, hfault, hwin, hwinBank, hloaded, hbank, hhead, houtcome, hslots, hwindows⟩ :=
    hstored.loadBank_loaded k (b := v) hcan
  exact ⟨i, hfault, hwin, hwinBank, hloaded, hbank, hhead, houtcome, hslots, hwindows⟩

/-- Choosing the victim neither reads nor writes the bank registers. -/
theorem Engine.chooseVictim_of_bankRegs {e e1 : Engine} {v : Fin 10} (h : e.chooseVictim = .ok e1 v)
    (regs : Vector Byte 8) :
    Engine.chooseVictim { e with bankRegs := regs } = .ok { e1 with bankRegs := regs } v := by
  rcases e.chooseVictim_cases with ⟨w, hf, hc⟩ | ⟨-, -, hc⟩ | ⟨_, -, -, -, hc⟩ | ⟨ob, w, hf, h9, hs, hc⟩ <;>
    cases hc.symm.trans h
  · exact Engine.chooseVictim_of_free hf
  · exact Engine.chooseVictim_of_tail (e := { e with bankRegs := regs }) hf h9 hs

/-! ## What no load does to a window -/

/-- No window becomes flat, and no window but `r` leaves the unmapped state. -/
structure Engine.KeepsWindows (r : Fin 8) (e e' : Engine) : Prop where
  flat : ∀ k : Fin 8, e'.win[k] = .flat → e.win[k] = .flat
  unmapped : ∀ k : Fin 8, k ≠ r → e.win[k] = .unmapped → e'.win[k] = .unmapped

section
variable {r : Fin 8} {e e' e'' : Engine}

theorem Engine.KeepsWindows.trans (h : e.KeepsWindows r e') (h' : e'.KeepsWindows r e'') : e.KeepsWindows r e'' :=
  ⟨fun k hk => h.flat k (h'.flat k hk), fun k hne hk => h'.unmapped k hne (h.unmapped k hne hk)⟩

theorem Engine.KeepsWindows.of_win (h : e'.win = e.win) : e.KeepsWindows r e' :=
  ⟨fun _ hk => h ▸ hk, fun _ _ hk => h ▸ hk⟩

theorem Engine.KeepsWindows.of_set {i : Fin 10} (h : e'.win = e.win.set r (.cache i)) : e.KeepsWindows r e' := by
  constructor
  · intro k hk
    rw [h, get_set] at hk
    split at hk
    · cases hk
    · exact hk
  · intro k hne hk
    rw [h, get_set, if_neg hne.symm]
    exact hk

theorem Engine.Freed.keepsWindows {v : Fin 10} (h : e.Freed v e') : e.KeepsWindows r e' := by
  constructor
  · intro k hk
    rcases h.windows k with ⟨hw, -⟩ | ⟨-, hw, -⟩
    · exact hw.symm.trans hk
    · cases hw.symm.trans hk
  · intro k _ hk
    rcases h.windows k with ⟨hw, -⟩ | ⟨-, hw, -⟩
    · exact hw.trans hk
    · exact hw

theorem Attempt.andThen_keepsWindows {α β : Type} {t : Attempt α} {f : Engine → α → Attempt β}
    (h : e.KeepsWindows r t.engine) (hf : ∀ e' a, t = .ok e' a → e'.KeepsWindows r (f e' a).engine) :
    e.KeepsWindows r (t.andThen f).engine := by
  cases t with
  | ok e' a => exact h.trans (hf e' a rfl)
  | raise e' kind info => exact h

end

theorem Engine.touch_win (b : Byte) (e : Engine) : (e.touch b).engine.win = e.win := by
  rcases e.touch_eq b with ⟨l, -, h⟩ | ⟨-, h⟩ <;> rw [h] <;> rfl

theorem Engine.fill_win (v : Fin 10) (b : Byte) (e : Engine) : (e.fill v b).engine.win = e.win := by
  rw [Engine.fill_eq]
  split <;> rfl

theorem Engine.chooseVictim_keepsWindows (r : Fin 8) (e : Engine) : e.KeepsWindows r e.chooseVictim.engine := by
  rcases e.chooseVictim_cases with ⟨v, -, h⟩ | ⟨-, -, h⟩ | ⟨_, -, -, -, h⟩ | ⟨_, v, -, -, -, h⟩ <;> rw [h]
  · exact Engine.KeepsWindows.of_win rfl
  · exact Engine.KeepsWindows.of_win rfl
  · exact Engine.KeepsWindows.of_win rfl
  · exact (e.freed_evict v).keepsWindows

theorem Engine.loadSteps_keepsWindows (r : Fin 8) (b : Byte) (e : Engine) :
    e.KeepsWindows r (e.loadSteps r b).engine := by
  rw [Engine.loadSteps]
  split
  · exact Attempt.andThen_keepsWindows (Engine.KeepsWindows.of_set (Engine.touch_win b _))
      fun _ _ _ => Engine.KeepsWindows.of_win rfl
  · refine Attempt.andThen_keepsWindows (e.chooseVictim_keepsWindows r) fun e1 v _ => ?_
    refine Attempt.andThen_keepsWindows (Engine.KeepsWindows.of_win (e1.fill_win v b)) fun e2 _ _ => ?_
    exact Attempt.andThen_keepsWindows (Engine.KeepsWindows.of_set (Engine.touch_win b _))
      fun _ _ _ => Engine.KeepsWindows.of_win rfl

/-- Whatever the engine, sound or not, and however the load ends. -/
theorem Engine.loadBank_keepsWindows (r : Fin 8) (b : Byte) (e : Engine) : e.KeepsWindows r (e.loadBank r.val b) := by
  have hsteps := e.loadSteps_keepsWindows r b
  rw [Engine.loadBank_eq]
  cases ht : e.loadSteps r b <;> rw [ht] at hsteps <;> exact hsteps.trans (Engine.KeepsWindows.of_win rfl)

theorem Engine.writeBankreg_keepsWindows (k : Fin 8) (v : Byte) (e : Engine) : e.KeepsWindows k (e.writeBankreg k v) := by
  rw [Engine.writeBankreg]
  split
  · exact Engine.KeepsWindows.of_win rfl
  · have hstored : e.KeepsWindows k { e with bankRegs := e.bankRegs.set k v } := Engine.KeepsWindows.of_win rfl
    exact hstored.trans (Engine.loadBank_keepsWindows k v _)

theorem Engine.applyTxn_win {i : Instr} (h : ∀ k v, i ≠ .wrBankreg k v) (e : Engine) : (e.applyTxn i).1.win = e.win := by
  cases i with
  | rdRom k off =>
    rcases e.readRom_cases k off with ⟨_, _, _, _, _, heq⟩ | ⟨_, _, _, _, heq⟩ | ⟨_, heq⟩ | ⟨_, heq⟩ <;>
      simp only [Engine.applyTxn, heq] <;> rfl
  | wrBankreg k v => exact absurd rfl (h k v)
  | _ => rfl

/-- Every transaction does to the windows what some load does, or nothing. -/
theorem Engine.applyTxn_keepsWindows (i : Instr) (e : Engine) :
    (∃ k v, i = .wrBankreg k v ∧ e.KeepsWindows k (e.applyTxn i).1) ∨ (e.applyTxn i).1.win = e.win := by
  by_cases h : ∃ k v, i = .wrBankreg k v
  · obtain ⟨k, v, rfl⟩ := h
    exact Or.inl ⟨k, v, rfl, e.writeBankreg_keepsWindows k v⟩
  · exact Or.inr (e.applyTxn_win fun k v hi => h ⟨k, v, hi⟩)

end Sys2Proof.Machine
end

section
/-! PROOFS. The statements on a bank switch (spec/41_bus_write.md R70, spec/70_reset_and_hazards.md R118, R120), from the
rules above. -/

namespace Sys2Proof.Machine

/-- Settles O31: `Engine.CacheInv.writeBankreg_loaded`; the invariants are kept by every load, and the fields outside the
cache by `Engine.writeBankreg_sameBus`. -/
theorem bankSwitchCompletes : Obligations.BankSwitchCompletes := by
  intro k v s hinv hf hne hcan
  obtain ⟨i, hload⟩ := hinv.writeBankreg_loaded hne hcan
  have hsame := s.eng.writeBankreg_sameBus k v
  have hstored : Engine.CacheInv { s.eng with bankRegs := s.eng.bankRegs.set k v } :=
    hinv.congr rfl rfl rfl rfl rfl rfl rfl
  have hsound : (s.eng.writeBankreg k v).CacheInv := by
    rw [Engine.writeBankreg_of_ne hne]
    exact (hstored.loadBank k.val v).1
  exact ⟨_, i, exec_write_live rfl hf rfl, hload.fault.trans hf, hsound, hsame.bankRegs, hload.win, hload.winBank,
    hload.loaded, hload.bank, hload.head, hload.outcome, hload.slots, hload.windows, hsame.ram, hsame.apuRegs,
    hsame.shim, hsame.intVecs, hsame.flat, hsame.romMode, hsame.header, hsame.file, hsame.initialised, hsame.sink⟩

/-- Settles O32: the register is stored before the load (`Engine.writeBankreg_of_ne`), whose read fails after the victim
was chosen (`Engine.loadBank_of_failed_read`). -/
theorem failedBankReadIsAFault : Obligations.FailedBankReadIsAFault := by
  intro k v s hinv hf hne hres hio
  obtain ⟨e, w, hc, -⟩ := hinv.chooseVictim
  have hs : Engine.slotHolding { s.eng with bankRegs := s.eng.bankRegs.set k v } v = none :=
    (s.eng.slotHolding_eq_none v).2 hres
  have hc' := Engine.chooseVictim_of_bankRegs hc (s.eng.bankRegs.set k v)
  refine ⟨e, w, hc, (Engine.chooseVictim_ok hc).1, exec_write_live rfl hf ?_⟩
  exact (Engine.writeBankreg_of_ne hne).trans (Engine.loadBank_of_failed_read k hs hc' hio)

/-- Settles O47: the evicted windows are those of `Engine.evict_win`; no load maps another window
(`Engine.applyTxn_keepsWindows`), and a write of the register's own value is no load. -/
theorem unmappedWindowsStayUnmapped : Obligations.UnmappedWindowsStayUnmapped := by
  refine ⟨fun e v k hw => ?evicted, fun s k off hf hw => exec_read_live rfl hf (Engine.readRom_unmapped off hw),
    fun s t i k hw h hown => ?kept⟩
  case evicted => rw [Engine.evict_win, get_ofFn, if_pos hw]
  case kept =>
    obtain ⟨-, ⟨-, heng⟩ | ⟨-, heng⟩⟩ := exec_next_eng h <;> rw [heng]
    · exact hw
    · rcases s.eng.applyTxn_keepsWindows i with ⟨k', v, rfl, hkeeps⟩ | hwin
      · by_cases hk : k = k'
        · subst hk
          rw [show (s.eng.applyTxn (.wrBankreg k v)).1 = s.eng from if_pos (hown v rfl)]
          exact hw
        · exact hkeeps.unmapped k hk hw
      · rw [hwin]
        exact hw

/-- Settles O48: the slot shown holds the bank's bytes because the engine stays sound (R83); the other flat windows are on
no slot, so no eviction unmaps them; and no load makes a window flat (`Engine.applyTxn_keepsWindows`). -/
theorem bankSwitchReplacesFlat : Obligations.BankSwitchReplacesFlat := by
  refine ⟨fun s k v hinv hf _ hne hcan => ?replaced, fun i s t k h hflat => ?never⟩
  case replaced =>
    obtain ⟨i, hload⟩ := hinv.bank.writeBankreg_loaded hne hcan
    obtain ⟨hfile, hheader⟩ := s.eng.writeBankreg_source k v
    have hsound : (s.eng.writeBankreg k v).Inv := hinv.applyTxn (.wrBankreg k v)
    refine ⟨_, i, exec_write_live rfl hf rfl, hload.win, fun off => ?bytes, fun j hj hflat => ?flat⟩
    case bytes =>
      have hbyte := hsound.content i off.val hload.loaded off.isLt
      rwa [hload.bank, hfile, hheader] at hbyte
    case flat =>
      rcases hload.windows j hj with ⟨hw, -⟩ | ⟨hw, -⟩
      · exact hw.trans hflat
      · cases hw.symm.trans hflat
  case never =>
    obtain ⟨-, ⟨-, heng⟩ | ⟨-, heng⟩⟩ := exec_next_eng h <;> rw [heng] at hflat
    · exact hflat
    · rcases s.eng.applyTxn_keepsWindows i with ⟨_, _, -, hkeeps⟩ | hwin
      · exact hkeeps.flat k hflat
      · rwa [hwin] at hflat

end Sys2Proof.Machine
end

section
/-! PROOFS. The rules for loads in sequence (spec/42_bank_cache.md R81 to R84): the list after a load is the banks by their
last use, loads into an engine with free slots keep the windows they do not name, and an empty cache fills in order. -/

namespace Sys2Proof.Machine

/-! ## The list of banks -/

/-- `lru` holds these banks, latest first, and nothing after them. -/
def Engine.Lists (banks : List Byte) (e : Engine) : Prop :=
  e.lru.toList = banks.map some ++ List.replicate (10 - banks.length) none

theorem Engine.Lists.length_le {e : Engine} {banks : List Byte} (h : e.Lists banks) : banks.length ≤ 10 := by
  have hlen := congrArg List.length h
  rw [Vector.length_toList, List.length_append, List.length_map, List.length_replicate] at hlen
  omega

theorem Engine.Lists.get {e : Engine} {banks : List Byte} (h : e.Lists banks) (j : Fin 10) : e.lru[j] = banks[j.val]? := by
  have hget : e.lru.toList[j.val]? = some e.lru[j] := by
    rw [Vector.getElem?_toList, Vector.getElem?_eq_getElem j.isLt]
    rfl
  rw [h] at hget
  by_cases hj : j.val < banks.length
  · rw [List.getElem?_append_left (by rwa [List.length_map]), List.getElem?_map, List.getElem?_eq_getElem hj] at hget
    rw [List.getElem?_eq_getElem hj]
    exact (Option.some.inj hget).symm
  · rw [List.getElem?_append_right (by rw [List.length_map]; omega), List.getElem?_replicate] at hget
    rw [List.getElem?_eq_none (by omega)]
    split at hget
    · exact (Option.some.inj hget).symm
    · cases hget

theorem Engine.Lists.exists_iff {e : Engine} {banks : List Byte} (h : e.Lists banks) (b : Byte) :
    (∃ j : Fin 10, e.lru[j] = some b) ↔ b ∈ banks := by
  rw [List.mem_iff_getElem?]
  constructor
  · rintro ⟨j, hj⟩
    exact ⟨j.val, (h.get j).symm.trans hj⟩
  · rintro ⟨n, hn⟩
    have hlt : n < banks.length := (List.getElem?_eq_some_iff.1 hn).1
    have hle := h.length_le
    exact ⟨⟨n, by omega⟩, (h.get ⟨n, by omega⟩).trans hn⟩

/-- On a sound cache the banks listed are those some slot holds (R82 items 1 and 3). -/
theorem Engine.CacheInv.slotHolding_isSome_iff {e : Engine} (h : e.CacheInv) {banks : List Byte} (hl : e.Lists banks)
    (b : Byte) : (e.slotHolding b).isSome = true ↔ b ∈ banks := by
  rw [← hl.exists_iff]
  constructor
  · intro hs
    obtain ⟨i, hi⟩ := Option.isSome_iff_exists.1 hs
    obtain ⟨hloaded, hbank⟩ := Engine.slotHolding_some hi
    exact hbank ▸ h.listed i hloaded
  · rintro ⟨j, hj⟩
    obtain ⟨i, hloaded, hbank⟩ := h.held j b hj
    rw [h.slotHolding hloaded hbank]
    rfl

/-- While fewer than ten banks are listed some slot is free (R82 item 6). -/
theorem Engine.CacheInv.freeSlot_of_lists {e : Engine} (h : e.CacheInv) {banks : List Byte} (hl : e.Lists banks)
    (hlen : banks.length < 10) : e.freeSlot ≠ none := by
  intro hfull
  have hsome := (h.leading 9).2 (by rw [e.loadedCount_eq_ten (e.freeSlot_eq_none.1 hfull)]; decide)
  rw [hl.get 9, List.getElem?_eq_none (show banks.length ≤ (9 : Fin 10).val from Nat.le_of_lt_succ hlen)] at hsome
  cases hsome

theorem Engine.lists_nil {e : Engine} (h : ∀ j : Fin 10, e.lru[j] = none) : e.Lists [] := by
  refine List.eq_replicate_iff.2 ⟨Vector.length_toList, fun x hx => ?_⟩
  obtain ⟨n, hn, rfl⟩ := List.getElem_of_mem hx
  rw [Vector.length_toList] at hn
  rw [Vector.getElem_toList]
  exact h ⟨n, hn⟩

/-! ## The list after a touch -/

theorem eraseIdx_nine (l : Vector (Option Byte) 10) : l.toList.eraseIdx 9 = l.toList.take 9 := by
  rw [List.eraseIdx_eq_take_drop_succ, List.drop_eq_nil_of_le (by rw [Vector.length_toList]), List.append_nil]

/-- Taking a value out of the list is taking out its first place. -/
theorem erase_first {b : Byte} {l : Vector (Option Byte) 10} {j : Fin 10} (hj : l[j] = some b)
    (hmin : ∀ t : Fin 10, t < j → l[t] ≠ some b) : l.toList.erase (some b) = l.toList.eraseIdx j.val := by
  have hten : l.toList.length = 10 := Vector.length_toList
  have hlt : j.val < l.toList.length := by omega
  refine List.erase_eq_iff.2 (Or.inr ⟨l.toList.take j.val, l.toList.drop (j.val + 1), ?_, ?_,
    List.eraseIdx_eq_take_drop_succ _ _⟩)
  · intro hmem
    obtain ⟨n, hn, hget⟩ := List.getElem_of_mem hmem
    rw [List.length_take] at hn
    rw [List.getElem_take, Vector.getElem_toList] at hget
    exact hmin ⟨n, by omega⟩ (Fin.lt_def.2 (show n < j.val by omega)) hget
  · have hsome : l.toList[j.val] = some b := by
      rw [Vector.getElem_toList]
      exact hj
    rw [← hsome, List.getElem_cons_drop, List.take_append_drop]

theorem take_eraseIdx (l : Vector (Option Byte) 10) (j : Fin 10) :
    (l.toList.eraseIdx j.val).take 9 = l.toList.eraseIdx j.val :=
  List.take_of_length_le (by rw [List.length_eraseIdx, Vector.length_toList, if_pos j.isLt])

/-- A touch takes the bank out of the list, if it is there, puts it in front, and the list keeps ten entries. -/
theorem lruTouch_toList {b : Byte} {l l' : Vector (Option Byte) 10} (h : lruTouch b l = some l') :
    l'.toList = some b :: (l.toList.erase (some b)).take 9 := by
  rcases lruTouch_cases b l with ⟨h0, he⟩ | ⟨j, -, hj, hmin, he⟩ | ⟨hall, -, he⟩ | ⟨-, -, he⟩ <;> cases he.symm.trans h
  · have hl := lruShift_toList 0 b l
    rw [lruShift_zero_of_head h0] at hl
    rw [erase_first (j := 0) h0 fun t ht => absurd ht (Fin.not_lt_zero t), take_eraseIdx]
    exact hl
  · rw [lruShift_toList, erase_first hj hmin, take_eraseIdx]
  · rw [lruShift_toList, List.erase_of_not_mem, ← eraseIdx_nine]
    · rfl
    · intro hmem
      obtain ⟨n, hn, hget⟩ := List.getElem_of_mem hmem
      rw [Vector.length_toList] at hn
      rw [Vector.getElem_toList] at hget
      exact hall ⟨n, hn⟩ hget

/-- What ten entries become when `b` is taken out, if it is there, and nine are kept. -/
theorem take_erase_listed (banks : List Byte) (b : Byte) (hlen : banks.length ≤ 10) :
    ((banks.map some ++ List.replicate (10 - banks.length) none).erase (some b)).take 9 =
      ((banks.erase b).take 9).map some ++ List.replicate (10 - (((banks.erase b).take 9).length + 1)) none := by
  have hmap : (banks.erase b).map some = (banks.map some).erase (some b) :=
    List.map_erase (Option.some_injective _) banks
  by_cases hb : b ∈ banks
  · have hlen' := List.length_erase_of_mem hb
    have hpos := List.length_pos_of_mem hb
    rw [List.erase_append_left _ (List.mem_map_of_mem hb), ← hmap, List.take_of_length_le,
      List.take_of_length_le (l := banks.erase b) (by omega), hlen']
    · congr 2
      omega
    · rw [List.length_append, List.length_map, List.length_replicate]
      omega
  · rw [List.erase_of_not_mem (a := b) hb, List.erase_of_not_mem (a := some b), List.take_append, List.length_map,
      List.take_replicate, List.map_take, List.length_take]
    · congr 2
      omega
    · rw [List.mem_append, List.mem_map, not_or]
      exact ⟨fun ⟨c, hc, heq⟩ => hb (Option.some.inj heq ▸ hc), fun h => nomatch (List.eq_of_mem_replicate h)⟩

theorem Engine.Lists.touched {e e' : Engine} {banks : List Byte} (h : e.Lists banks) {b : Byte}
    (htouch : e'.lru.toList = some b :: (e.lru.toList.erase (some b)).take 9) :
    e'.Lists (b :: (banks.erase b).take 9) := by
  rw [Engine.Lists, htouch, h, take_erase_listed banks b h.length_le, List.map_cons, List.length_cons, List.cons_append]

/-- After a completed load the list is its bank, then the banks listed before it, nine at most (R76, R77, R81). -/
theorem Engine.CacheInv.loadBank_lists {e : Engine} (h : e.CacheInv) (r : Fin 8) {b : Byte} (hcan : e.CanLoad b)
    {banks : List Byte} (hl : e.Lists banks) : (e.loadBank r.val b).Lists (b :: (banks.erase b).take 9) := by
  have habsent : e.slotHolding b = none → e.lru.toList.erase (some b) = e.lru.toList := by
    intro hs
    refine List.erase_of_not_mem fun hmem => ?_
    obtain ⟨n, hn, hget⟩ := List.getElem_of_mem hmem
    rw [Vector.length_toList] at hn
    rw [Vector.getElem_toList] at hget
    exact h.not_listed ((e.slotHolding_eq_none b).1 hs) ⟨n, hn⟩ hget
  rcases h.loadBank_cases r hcan with ⟨i, l, -, htouch, heq⟩ | ⟨v, hs, -, heq⟩ | ⟨v, hs, -, -, -, heq⟩ <;> rw [heq]
  · exact hl.touched (lruTouch_toList htouch)
  · refine hl.touched ?_
    rw [habsent hs, ← eraseIdx_nine]
    exact lruShift_toList 9 b e.lru
  · refine hl.touched ?_
    rw [habsent hs]
    refine (lruShift_toList 9 b (e.evict v).lru).trans ?_
    rw [show (9 : Fin 10).val = 9 from rfl, eraseIdx_nine, Engine.evict_lru, Vector.toList_set, List.take_set_of_le le_rfl]

/-! ## What a load keeps of the windows -/

/-- While some slot is free no load takes a window off its bank. -/
theorem Engine.CacheInv.loadBank_keeps_shown {e : Engine} (h : e.CacheInv) (r : Fin 8) {b : Byte} (hcan : e.CanLoad b)
    (hfree : e.freeSlot ≠ none) {k : Fin 8} (hk : k ≠ r) {c : Byte} (hshows : e.ShowsBank k c) :
    (e.loadBank r.val b).ShowsBank k c := by
  obtain ⟨i, hwin, hloaded, hbank⟩ := hshows
  have hwin' : ∀ j, (e.win.set r (.cache j))[k] = .cache i := fun j =>
    ((get_set _ r k _).trans (if_neg hk.symm)).trans hwin
  rcases h.loadBank_cases r hcan with ⟨j, l, -, -, heq⟩ | ⟨v, -, hv, heq⟩ | ⟨v, -, hfull, -⟩
  · rw [heq]
    exact ⟨i, hwin' j, hloaded, hbank⟩
  · have hne : v ≠ i := by
      rintro rfl
      exact Bool.false_ne_true (((e.freeSlot_eq_some v).1 hv).1.symm.trans hloaded)
    rw [heq]
    exact ⟨i, hwin' v, ((get_set _ v i _).trans (if_neg hne)).trans hloaded,
      ((get_set _ v i _).trans (if_neg hne)).trans hbank⟩
  · exact absurd hfull hfree

/-! ## Loads in sequence -/

/-- Each load of the sequence can complete, in the engine the loads before it left. -/
def Engine.CanLoadAll : List (Fin 8 × Byte) → Engine → Prop
  | [], _ => True
  | p :: ps, e => e.CanLoad p.2 ∧ (e.loadBank p.1.val p.2).CanLoadAll ps

theorem Engine.loadAll_cons (p : Fin 8 × Byte) (ps : List (Fin 8 × Byte)) (e : Engine) :
    e.loadAll (p :: ps) = (e.loadBank p.1.val p.2).loadAll ps := rfl

theorem Engine.loadAll_append (ps qs : List (Fin 8 × Byte)) (e : Engine) :
    e.loadAll (ps ++ qs) = (e.loadAll ps).loadAll qs := List.foldl_append

theorem Engine.canLoadAll_append {ps qs : List (Fin 8 × Byte)} {e : Engine} :
    e.CanLoadAll (ps ++ qs) ↔ e.CanLoadAll ps ∧ (e.loadAll ps).CanLoadAll qs := by
  induction ps generalizing e with
  | nil => exact ⟨fun h => ⟨trivial, h⟩, And.right⟩
  | cons p ps ih => exact (and_congr_right fun _ => ih).trans and_assoc.symm

theorem Engine.CacheInv.loadAll {e : Engine} (h : e.CacheInv) (loads : List (Fin 8 × Byte)) :
    (e.loadAll loads).CacheInv := by
  induction loads generalizing e with
  | nil => exact h
  | cons p ps ih => exact ih (h.loadBank p.1.val p.2).1

theorem Engine.CacheInv.loadAll_fault {e : Engine} (h : e.CacheInv) {loads : List (Fin 8 × Byte)}
    (hcan : e.CanLoadAll loads) : (e.loadAll loads).fault = e.fault := by
  induction loads generalizing e with
  | nil => rfl
  | cons p ps ih => exact (ih (h.loadBank p.1.val p.2).1 hcan.2).trans (h.loadBank_shows p.1 hcan.1).1

/-- A completed load uses up at most one of P_IO's answers. -/
theorem Engine.CacheInv.loadBank_ioFail {e : Engine} (h : e.CacheInv) (r : Fin 8) {b : Byte} (hcan : e.CanLoad b) :
    (e.loadBank r.val b).ioFail = e.ioFail ∨ (e.loadBank r.val b).ioFail = e.ioFail.tail := by
  rcases h.loadBank_cases r hcan with ⟨i, l, -, -, heq⟩ | ⟨v, -, -, heq⟩ | ⟨v, -, -, -, -, heq⟩ <;> rw [heq]
  · exact Or.inl rfl
  · exact Or.inr rfl
  · exact Or.inr rfl

theorem Engine.canLoad_of_reads {e : Engine} (hio : ∀ x ∈ e.ioFail, x = false) (b : Byte) : e.CanLoad b := by
  refine Or.inr ?_
  cases hl : e.ioFail with
  | nil => rfl
  | cons x xs => exact hio x (hl ▸ List.mem_cons_self)

theorem Engine.CacheInv.loadBank_reads {e : Engine} (h : e.CacheInv) (hio : ∀ x ∈ e.ioFail, x = false) (r : Fin 8)
    (b : Byte) : ∀ x ∈ (e.loadBank r.val b).ioFail, x = false := by
  intro x hx
  rcases h.loadBank_ioFail r (Engine.canLoad_of_reads hio b) with heq | heq <;> rw [heq] at hx
  · exact hio x hx
  · exact hio x (List.mem_of_mem_tail hx)

/-- Where P_IO fails no read, every load completes. -/
theorem Engine.CacheInv.canLoadAll_of_reads {e : Engine} (h : e.CacheInv) (hio : ∀ x ∈ e.ioFail, x = false)
    (loads : List (Fin 8 × Byte)) : e.CanLoadAll loads := by
  induction loads generalizing e with
  | nil => trivial
  | cons p ps ih =>
    exact ⟨Engine.canLoad_of_reads hio p.2, ih (h.loadBank p.1.val p.2).1 (h.loadBank_reads hio p.1 p.2)⟩

/-- No load clears a fault. -/
theorem Engine.CacheInv.loadAll_faulted {e : Engine} (h : e.CacheInv) (hf : e.fault ≠ none)
    (loads : List (Fin 8 × Byte)) : (e.loadAll loads).fault ≠ none := by
  induction loads generalizing e with
  | nil => exact hf
  | cons p ps ih =>
    obtain ⟨hinv, hfault⟩ := h.loadBank p.1.val p.2
    refine ih hinv ?_
    rcases hfault with heq | heq | ⟨-, heq⟩ <;> rw [heq]
    · exact hf
    · exact Option.some_ne_none _
    · exact Option.some_ne_none _

/-- Loads after which no fault stands have all completed. -/
theorem Engine.CacheInv.canLoadAll_of_unfaulted {e : Engine} (h : e.CacheInv) {loads : List (Fin 8 × Byte)}
    (hf : (e.loadAll loads).fault = none) : e.CanLoadAll loads := by
  induction loads generalizing e with
  | nil => trivial
  | cons p ps ih =>
    have hinv := (h.loadBank p.1.val p.2).1
    refine ⟨h.canLoad_of_unfaulted p.1 ?_, ih hinv hf⟩
    by_contra hfaulted
    exact hinv.loadAll_faulted hfaulted ps hf

/-- The list after loads of at most ten banks in all: each bank moved or inserted in front (R81). -/
theorem Engine.CacheInv.loadAll_lists {e : Engine} (h : e.CacheInv) {loads : List (Fin 8 × Byte)}
    (hcan : e.CanLoadAll loads) {banks : List Byte} (hl : e.Lists banks) (hlen : banks.length + loads.length ≤ 10) :
    (e.loadAll loads).Lists ((loads.map (·.2)).foldl (fun l b => b :: l.erase b) banks) := by
  induction loads generalizing e banks with
  | nil => exact hl
  | cons p ps ih =>
    have hle := List.length_erase_le (a := p.2) (l := banks)
    rw [List.length_cons] at hlen
    have hl' := h.loadBank_lists p.1 hcan.1 hl
    rw [List.take_of_length_le (by omega)] at hl'
    exact ih (banks := p.2 :: banks.erase p.2) (h.loadBank p.1.val p.2).1 hcan.2 hl' (by rw [List.length_cons]; omega)

/-- Loads of at most ten banks in all, into different registers, leave each register's window on its bank, and with it the
windows of the registers they do not name. -/
theorem Engine.CacheInv.loadAll_shows {e : Engine} (h : e.CacheInv) {loads : List (Fin 8 × Byte)}
    (hcan : e.CanLoadAll loads) {banks : List Byte} (hl : e.Lists banks) (hlen : banks.length + loads.length ≤ 10)
    (hregs : (loads.map (·.1)).Nodup) :
    (∀ p ∈ loads, (e.loadAll loads).ShowsBank p.1 p.2) ∧
      ∀ k c, k ∉ loads.map (·.1) → e.ShowsBank k c → (e.loadAll loads).ShowsBank k c := by
  induction loads generalizing e banks with
  | nil => exact ⟨nofun, fun _ _ _ hk => hk⟩
  | cons p ps ih =>
    have hle := List.length_erase_le (a := p.2) (l := banks)
    rw [List.length_cons] at hlen
    rw [List.map_cons, List.nodup_cons] at hregs
    have hl' := h.loadBank_lists p.1 hcan.1 hl
    rw [List.take_of_length_le (by omega)] at hl'
    obtain ⟨hshown, hkept⟩ :=
      ih (h.loadBank p.1.val p.2).1 hcan.2 hl' (by rw [List.length_cons]; omega) hregs.2
    refine ⟨fun q hq => ?_, fun k c hk hshows => ?_⟩
    · rcases List.mem_cons.1 hq with rfl | hq
      · exact hkept q.1 q.2 hregs.1 (h.loadBank_shows q.1 hcan.1).2
      · exact hshown q hq
    · rw [List.map_cons, List.mem_cons, not_or] at hk
      exact hkept k c hk.2
        (h.loadBank_keeps_shown p.1 hcan.1 (h.freeSlot_of_lists hl (by omega)) hk.1 hshows)

/-! ## An empty cache fills in order (R76) -/

/-- The bank a slot holds, if it is loaded. -/
def Engine.slotBank (e : Engine) (i : Fin 10) : Option Byte := if e.slotLoaded[i] then some e.slotBankId[i] else none

/-- The slots hold these banks from slot 0 on, and the slots after them are not loaded. -/
def Engine.HoldsInOrder (banks : List Byte) (e : Engine) : Prop := ∀ i : Fin 10, e.slotBank i = banks[i.val]?

theorem Engine.slotBank_eq_some {e : Engine} {i : Fin 10} {b : Byte} :
    e.slotBank i = some b ↔ e.slotLoaded[i] = true ∧ e.slotBankId[i] = b := by
  rw [Engine.slotBank]
  cases e.slotLoaded[i] <;> simp

theorem Engine.slotBank_eq_none {e : Engine} {i : Fin 10} : e.slotBank i = none ↔ e.slotLoaded[i] = false := by
  rw [Engine.slotBank]
  cases e.slotLoaded[i] <;> simp

theorem Engine.HoldsInOrder.slotHolding_eq_none {e : Engine} {banks : List Byte} (h : e.HoldsInOrder banks) {b : Byte}
    (hb : b ∉ banks) : e.slotHolding b = none := by
  refine (e.slotHolding_eq_none b).2 fun i hloaded hbank => hb ?_
  rw [List.mem_iff_getElem?]
  exact ⟨i.val, (h i).symm.trans (Engine.slotBank_eq_some.2 ⟨hloaded, hbank⟩)⟩

/-- The lowest free slot is the one after the last bank. -/
theorem Engine.HoldsInOrder.freeSlot {e : Engine} {banks : List Byte} (h : e.HoldsInOrder banks)
    (hlen : banks.length < 10) : e.freeSlot = some ⟨banks.length, hlen⟩ := by
  refine (e.freeSlot_eq_some _).2 ⟨?_, fun i hi => ?_⟩
  · rw [← Engine.slotBank_eq_none, h]
    exact List.getElem?_eq_none le_rfl
  · have hbank := (h i).trans (List.getElem?_eq_getElem (Fin.lt_def.1 hi))
    exact (Engine.slotBank_eq_some.1 hbank).1

/-- A load of a new bank fills the next slot. -/
theorem Engine.CacheInv.loadBank_inOrder {e : Engine} (h : e.CacheInv) (r : Fin 8) {b : Byte} (hcan : e.CanLoad b)
    {banks : List Byte} (hord : e.HoldsInOrder banks) (hb : b ∉ banks) (hlen : banks.length < 10) :
    (e.loadBank r.val b).HoldsInOrder (banks ++ [b]) ∧
      loadOutcomes (e.loadBank r.val b).events = loadOutcomes e.events ++ [.fill ⟨banks.length, hlen⟩] := by
  have hnone := hord.slotHolding_eq_none hb
  have hfree := hord.freeSlot hlen
  rcases h.loadBank_cases r hcan with ⟨i, l, hs, -⟩ | ⟨v, -, hv, heq⟩ | ⟨v, -, hfull, -⟩
  · cases hnone.symm.trans hs
  · cases hfree.symm.trans hv
    rw [heq]
    refine ⟨fun i => ?_, Engine.loadOutcomes_filled r b _ e⟩
    by_cases hi : i.val = banks.length
    · obtain rfl : i = ⟨banks.length, hlen⟩ := Fin.ext hi
      rw [List.getElem?_concat_length, Engine.slotBank_eq_some]
      exact ⟨(get_set _ _ _ _).trans (if_pos rfl), (get_set _ _ _ _).trans (if_pos rfl)⟩
    · have hne : (⟨banks.length, hlen⟩ : Fin 10) ≠ i := fun heq => hi (congrArg Fin.val heq).symm
      have hloaded : (e.filled r b ⟨banks.length, hlen⟩).slotLoaded[i] = e.slotLoaded[i] :=
        (get_set _ _ i _).trans (if_neg hne)
      have hbank : (e.filled r b ⟨banks.length, hlen⟩).slotBankId[i] = e.slotBankId[i] :=
        (get_set _ _ i _).trans (if_neg hne)
      rw [Engine.slotBank, hloaded, hbank]
      refine (hord i).trans ?_
      rcases Nat.lt_or_gt_of_ne hi with hlt | hgt
      · rw [List.getElem?_append_left hlt]
      · rw [List.getElem?_eq_none (by omega), List.getElem?_eq_none (by rw [List.length_append, List.length_singleton]; omega)]
  · cases hfree.symm.trans hfull

theorem drop_slotIxs {n : Nat} (hn : n < 10) : slotIxs.drop n = ⟨n, hn⟩ :: slotIxs.drop (n + 1) := by
  rw [List.drop_eq_getElem_cons (show n < slotIxs.length from hn)]
  congr 1
  interval_cases n <;> rfl

/-- Loads of new banks fill the next slots in order, one outcome each. -/
theorem Engine.CacheInv.loadAll_inOrder {e : Engine} (h : e.CacheInv) {loads : List (Fin 8 × Byte)}
    (hcan : e.CanLoadAll loads) {banks : List Byte} (hord : e.HoldsInOrder banks)
    (hnodup : (banks ++ loads.map (·.2)).Nodup) (hlen : banks.length + loads.length ≤ 10) :
    (e.loadAll loads).HoldsInOrder (banks ++ loads.map (·.2)) ∧
      loadOutcomes (e.loadAll loads).events =
        loadOutcomes e.events ++ ((slotIxs.drop banks.length).take loads.length).map .fill := by
  induction loads generalizing e banks with
  | nil =>
    rw [List.map_nil, List.append_nil, List.length_nil, List.take_zero, List.map_nil, List.append_nil]
    exact ⟨hord, rfl⟩
  | cons p ps ih =>
    rw [List.length_cons] at hlen
    have hlt : banks.length < 10 := by omega
    have hassoc : banks ++ (p :: ps).map (·.2) = (banks ++ [p.2]) ++ ps.map (·.2) := by
      rw [List.map_cons, List.append_assoc]
      rfl
    rw [hassoc] at hnodup ⊢
    have hb : p.2 ∉ banks := by
      have hpre := (List.nodup_append.1 hnodup).1
      exact fun hmem => (List.nodup_append.1 hpre).2.2 p.2 hmem p.2 List.mem_cons_self rfl
    obtain ⟨hord', hout⟩ := h.loadBank_inOrder p.1 hcan.1 hord hb hlt
    obtain ⟨hords, houts⟩ := ih (h.loadBank p.1.val p.2).1 hcan.2 hord' hnodup
      (by rw [List.length_append, List.length_singleton]; omega)
    refine ⟨hords, ?_⟩
    rw [Engine.loadAll_cons, houts, hout, drop_slotIxs hlt, List.length_append, List.length_singleton, List.append_assoc]
    rfl

/-- Banks that differ, each moved in front of the others, end in reverse order. -/
theorem foldl_recency_of_nodup {bs acc : List Byte} (h : (acc ++ bs).Nodup) :
    bs.foldl (fun l b => b :: l.erase b) acc = bs.reverse ++ acc := by
  induction bs generalizing acc with
  | nil => rfl
  | cons b bs ih =>
    have hmem : b ∉ acc := fun hb => (List.nodup_append.1 h).2.2 b hb b List.mem_cons_self rfl
    rw [List.foldl_cons, List.erase_of_not_mem hmem, ih, List.reverse_cons, List.append_assoc]
    · rfl
    · exact (List.perm_middle.nodup_iff.1 h)

end Sys2Proof.Machine
end

section
/-! PROOFS. The statement on loads in sequence (spec/42_bank_cache.md R84), from the rules above. -/

namespace Sys2Proof.Machine

/-- A load of a new bank into a full cache, whose slots and list hold ten banks in the order of their loads, evicts the
first of them and takes slot 0. -/
theorem Engine.CacheInv.loadBank_of_full {e : Engine} (h : e.CacheInv) (r : Fin 8) {b : Byte} (hcan : e.CanLoad b)
    {b0 : Byte} {banks : List Byte} (hord : e.HoldsInOrder (b0 :: banks)) (hl : e.Lists (b0 :: banks).reverse)
    (hlen : banks.length = 9) (hb : b ∉ b0 :: banks) :
    (e.loadBank r.val b).Lists (b :: banks.reverse) ∧
      loadOutcomes (e.loadBank r.val b).events = loadOutcomes e.events ++ [.fill 0] := by
  have hnone := hord.slotHolding_eq_none hb
  constructor
  · have hl' := h.loadBank_lists r hcan hl
    rwa [List.erase_of_not_mem (fun hmem => hb (List.mem_reverse.1 hmem)), List.reverse_cons,
      List.take_left' (by rw [List.length_reverse, hlen])] at hl'
  · rcases h.loadBank_cases r hcan with ⟨i, l, hs, -⟩ | ⟨v, -, hv, -⟩ | ⟨v, -, -, htail, hloaded, heq⟩
    · cases hnone.symm.trans hs
    · have hfree := (hord v).symm.trans (Engine.slotBank_eq_none.2 ((e.freeSlot_eq_some v).1 hv).1)
      rw [List.getElem?_eq_none_iff, List.length_cons, hlen] at hfree
      omega
    · have hlast : e.lru[(9 : Fin 10)] = some b0 := by
        rw [hl.get 9, List.reverse_cons]
        have hget : (banks.reverse ++ [b0])[banks.reverse.length]? = some b0 := List.getElem?_concat_length
        rwa [List.length_reverse, hlen] at hget
      have hbank : e.slotBankId[v] = b0 := Option.some.inj (htail.symm.trans hlast)
      obtain ⟨hloaded0, hbank0⟩ := Engine.slotBank_eq_some.1 (hord 0)
      obtain rfl : v = 0 := h.distinct v 0 hloaded hloaded0 (hbank.trans hbank0.symm)
      rw [heq]
      exact Engine.loadOutcomes_filled r b 0 (e.evict 0)

/-- Ten new banks into an empty cache, then an eleventh. -/
theorem Engine.CacheInv.loadAll_eleven {e : Engine} (h : e.CacheInv) (hempty : ∀ i : Fin 10, e.slotLoaded[i] = false)
    {init : List (Fin 8 × Byte)} {last : Fin 8 × Byte} (hcan : e.CanLoadAll (init ++ [last])) {b0 : Byte}
    {banks : List Byte} (hinit : init.map (·.2) = b0 :: banks) (hlen : banks.length = 9)
    (hnodup : (b0 :: banks ++ [last.2]).Nodup) :
    (e.loadAll (init ++ [last])).Lists (last.2 :: banks.reverse) ∧
      loadOutcomes (e.loadAll (init ++ [last])).events = loadOutcomes e.events ++ (slotIxs.map .fill ++ [.fill 0]) := by
  obtain ⟨hcanInit, hcanLast, -⟩ := Engine.canLoadAll_append.1 hcan
  obtain ⟨hnodupInit, -, hdisj⟩ := List.nodup_append.1 hnodup
  have hten : init.length = 10 := by rw [← List.length_map (f := (·.2)), hinit, List.length_cons, hlen]
  have hord0 : e.HoldsInOrder [] := fun i => Engine.slotBank_eq_none.2 (hempty i)
  have hlists0 : e.Lists [] := Engine.lists_nil fun j => by
    cases hj : e.lru[j] with
    | none => rfl
    | some b =>
      obtain ⟨i, hloaded, -⟩ := h.held j b hj
      cases (hempty i).symm.trans hloaded
  have hfits : ([] : List Byte).length + init.length ≤ 10 := (Nat.zero_add _).trans_le hten.le
  obtain ⟨hord, hout⟩ := h.loadAll_inOrder hcanInit hord0 (by rwa [hinit]) hfits
  have hlists := h.loadAll_lists hcanInit hlists0 hfits
  rw [hinit, List.nil_append] at hord
  rw [hinit, foldl_recency_of_nodup hnodupInit, List.append_nil] at hlists
  have hnew : last.2 ∉ b0 :: banks := fun hmem => hdisj last.2 hmem last.2 List.mem_cons_self rfl
  obtain ⟨hfinal, houtLast⟩ := (h.loadAll init).loadBank_of_full last.1 hcanLast hord hlists hlen hnew
  rw [Engine.loadAll_append]
  refine ⟨hfinal, houtLast.trans ?_⟩
  rw [hout, hten, List.append_assoc]
  rfl

/-- Settles O41: the list and the outcomes are those of `Engine.CacheInv.loadAll_eleven`; a bank is resident just if it is
listed. -/
theorem eleventhBankEvictsTheFirst : Obligations.EleventhBankEvictsTheFirst := by
  intro e loads hinv hempty hio hlen hnodup
  have hcan := hinv.canLoadAll_of_reads hio loads
  obtain ⟨init, last, rfl⟩ : ∃ init last, loads = init ++ [last] :=
    (List.eq_nil_or_concat' loads).resolve_left fun hnil => by rw [hnil] at hlen; cases hlen
  rw [List.length_append, List.length_singleton] at hlen
  have hbanks : (init.map (·.2)).length = 10 := (List.length_map _).trans (Nat.succ.inj hlen)
  rw [List.map_append, List.map_singleton] at hnodup ⊢
  cases hinit : init.map (·.2) with
  | nil => rw [hinit] at hbanks; cases hbanks
  | cons b0 banks =>
    rw [hinit] at hbanks hnodup
    have hnine : banks.length = 9 := Nat.succ.inj hbanks
    obtain ⟨hlists, hout⟩ := hinv.loadAll_eleven hempty hcan hinit hnine hnodup
    have hres := (hinv.loadAll (init ++ [last])).slotHolding_isSome_iff hlists
    have htail : (b0 :: banks ++ [last.2]).tail.reverse = last.2 :: banks.reverse := List.reverse_concat
    refine ⟨hinv.loadAll_fault hcan, hout, fun b hb => ?first, fun b hb => ?others, ?list⟩
    case first =>
      obtain rfl : b0 = b := Option.some.inj hb
      refine Option.not_isSome_iff_eq_none.1 fun hsome => (List.nodup_cons.1 hnodup).1 ?_
      have hmem := (hres b0).1 hsome
      rwa [← htail, List.mem_reverse] at hmem
    case others => rwa [hres, ← htail, List.mem_reverse]
    case list =>
      rw [htail, hlists, List.length_cons, List.length_reverse, hnine]
      exact List.append_nil _

end Sys2Proof.Machine
end

section
/-! PROOFS. The rules for the loads of the reset steps (spec/70_reset_and_hazards.md R110 to R112): in banked mode, where no
fault stands after them, they are eight loads in sequence from the cleared cache. -/

namespace Sys2Proof.Machine

/-! ## The mode (R110) -/

theorem Header.banked_eq_true (h : Header) : h.banked = true ↔ ∃ k : Fin 8, h.bankswitch[k] ≠ 0#8 := by
  rw [Header.banked, List.any_eq_true]
  constructor
  · rintro ⟨b, hb, hne⟩
    obtain ⟨n, hn, rfl⟩ := List.getElem_of_mem hb
    rw [Vector.length_toList] at hn
    rw [Vector.getElem_toList] at hne
    exact ⟨⟨n, hn⟩, bne_iff_ne.1 hne⟩
  · rintro ⟨k, hne⟩
    exact ⟨h.bankswitch[k], Vector.mem_toList_iff.2 (Vector.getElem_mem k.isLt), bne_iff_ne.2 hne⟩

/-! ## The loads (R111) -/

/-- The loads of `InitBanked()`, in order. -/
def Header.initLoads (h : Header) : List (Fin 8 × Byte) := windowIxs.map fun k => (k, h.bankswitch[k])

theorem Header.initLoads_banks (h : Header) : h.initLoads.map (·.2) = h.bankswitch.toList := by
  rw [Header.initLoads, List.map_map]
  refine List.ext_getElem (by rw [Vector.length_toList]; rfl) fun n hn hn' => ?_
  rw [Vector.length_toList] at hn'
  rw [List.getElem_map, Vector.getElem_toList]
  interval_cases n <;> rfl

theorem Header.mem_initLoads (h : Header) (k : Fin 8) : (k, h.bankswitch[k]) ∈ h.initLoads :=
  List.mem_map_of_mem (mem_windowIxs k)

theorem Header.initLoads_registers (h : Header) : (h.initLoads.map (·.1)).Nodup := by
  rw [Header.initLoads, List.map_map]
  exact (by decide : windowIxs.Nodup)

theorem Engine.foldl_initLoad_faulted {e : Engine} (hf : e.faulted = true) (ks : List (Fin 8)) :
    ks.foldl Engine.initLoad e = e := by
  induction ks with
  | nil => rfl
  | cons k ks ih => rwa [List.foldl_cons, Engine.initLoad, if_pos hf]

/-- Where no fault stands at the end, no load was left out. -/
theorem Engine.foldl_initLoad_unfaulted {e : Engine} {ks : List (Fin 8)}
    (hf : (ks.foldl Engine.initLoad e).fault = none) :
    ks.foldl Engine.initLoad e = e.loadAll (ks.map fun k => (k, e.header.bankswitch[k])) := by
  induction ks generalizing e with
  | nil => rfl
  | cons k ks ih =>
    cases hfaulted : e.faulted with
    | true =>
      rw [Engine.foldl_initLoad_faulted hfaulted, ← Engine.not_faulted_iff] at hf
      exact absurd (hf.symm.trans hfaulted) Bool.false_ne_true
    | false =>
      have hload : e.initLoad k = e.loadBank k.val e.header.bankswitch[k] := by
        rw [Engine.initLoad, if_neg (Bool.eq_false_iff.1 hfaulted)]
      have hheader := (e.loadBank_sameBus k.val e.header.bankswitch[k]).header
      rw [List.foldl_cons, hload] at hf ⊢
      rw [ih hf, hheader]
      rfl

theorem Engine.clearCache_lists (e : Engine) : e.clearCache.Lists [] :=
  Engine.lists_nil fun j => by rw [Engine.clearCache_lru, get_replicate]

theorem Header.initLoads_fit (h : Header) : ([] : List Byte).length + h.initLoads.length ≤ 10 :=
  show 0 + 8 ≤ 10 by decide

section
variable {e : Engine} (hf : e.initBanked.fault = none)
include hf

theorem Engine.initBanked_eq_loadAll : e.initBanked = e.clearCache.loadAll e.header.initLoads :=
  Engine.foldl_initLoad_unfaulted (e := e.clearCache) hf

theorem Engine.initBanked_canLoadAll : e.clearCache.CanLoadAll e.header.initLoads :=
  e.clearCache_cacheInv.canLoadAll_of_unfaulted (e.initBanked_eq_loadAll hf ▸ hf)

theorem Engine.initBanked_cacheInv : e.initBanked.CacheInv := by
  rw [e.initBanked_eq_loadAll hf]
  exact e.clearCache_cacheInv.loadAll _

/-- Every window is on its initial bank: eight loads evict none. -/
theorem Engine.initBanked_shows (k : Fin 8) : e.initBanked.ShowsBank k e.header.bankswitch[k] := by
  rw [e.initBanked_eq_loadAll hf]
  have hshown := (e.clearCache_cacheInv.loadAll_shows (e.initBanked_canLoadAll hf) e.clearCache_lists
    e.header.initLoads_fit e.header.initLoads_registers).1
  exact hshown (k, e.header.bankswitch[k]) (e.header.mem_initLoads k)

theorem Engine.initBanked_lists : e.initBanked.Lists (recency e.header.bankswitch.toList) := by
  rw [e.initBanked_eq_loadAll hf, ← Header.initLoads_banks]
  exact e.clearCache_cacheInv.loadAll_lists (e.initBanked_canLoadAll hf) e.clearCache_lists e.header.initLoads_fit

end

/-- Where P_IO fails no read the loads raise no fault. -/
theorem Engine.initBanked_unfaulted {e : Engine} (hf : e.fault = none) (hio : ∀ x ∈ e.ioFail, x = false) :
    e.initBanked.fault = none := by
  refine (Engine.initBanked_induct (fun e => e.CacheInv ∧ e.fault = none ∧ ∀ x ∈ e.ioFail, x = false) e
    ⟨e.clearCache_cacheInv, hf, hio⟩ ?_).2.1
  rintro e' k ⟨hinv, hfault, hreads⟩ -
  have hcan := Engine.canLoad_of_reads hreads e'.header.bankswitch[k]
  exact ⟨(hinv.loadBank k.val _).1, (hinv.loadBank_shows k hcan).1.trans hfault, hinv.loadBank_reads hreads k _⟩

/-- The loads of the reset steps leave every slot with its bank's bytes, whatever the engine was (R83). -/
theorem Engine.initCommon_initBanked_content (song region : Byte) (sink : Nat) (e : Engine) :
    (e.initCommon song region sink).initBanked.ContentInv := by
  refine (Engine.initBanked_induct (fun e => e.CacheInv ∧ e.MemWf ∧ e.ContentInv) (e.initCommon song region sink)
    ⟨Engine.clearCache_cacheInv _, ⟨rfl, shimImage_wf song region e.header, nofun, fun i => ?_⟩, fun i off hi => ?_⟩
    ?_).2.2
  · rw [Engine.clearCache_cache, get_replicate]
    rfl
  · rw [Engine.clearCache_slotLoaded, get_replicate] at hi
    cases hi
  · rintro e' k ⟨hinv, hmem, hcontent⟩ -
    exact ⟨(hinv.loadBank k.val _).1, hinv.loadBank_content hmem hcontent k.val _⟩

theorem Engine.initSteps_banked (song region : Byte) (sink : Nat) {e : Engine} (hb : e.header.banked = true)
    (hl : 0x8000 ≤ e.header.loadAddress.toNat) :
    e.initSteps song region sink = (e.initCommon song region sink).initBanked := by
  rw [Engine.initSteps, if_neg (Nat.not_lt.2 hl), if_pos hb]

/-- No load touches what the reset steps set outside the cache (R111). -/
theorem Engine.initBanked_sameBus (e : Engine) : e.clearCache.SameBus e.initBanked :=
  Engine.initBanked_induct (fun x => e.clearCache.SameBus x) e (Engine.SameBus.rfl _)
    fun x k hx _ => hx.trans (x.loadBank_sameBus k.val _)

/-! ## The flat buffer (R112) -/

/-- The flat buffer after the contiguous load. -/
def Engine.flatBytes (e : Engine) : Memory :=
  Memory.ofBytes (e.header.loadAddress.toNat - 0x8000)
    (fileBytes e.file Config.bodyOff (0xFFFF - e.header.loadAddress.toNat))

theorem Engine.read_flatBytes {e : Engine} (hl : 0x8000 ≤ e.header.loadAddress.toNat) (j : Nat) :
    e.flatBytes.read j = if e.header.loadAddress.toNat - 0x8000 ≤ j ∧ j < 0x7FFF then
      e.file.getD (0x80 + (j - (e.header.loadAddress.toNat - 0x8000))) 0#8 else 0#8 := by
  rw [Engine.flatBytes, Memory.read_ofBytes, fileBytes_getD]
  by_cases hlow : e.header.loadAddress.toNat - 0x8000 ≤ j
  · rw [if_pos hlow]
    exact if_congr (by omega) rfl rfl
  · rw [if_neg hlow, if_neg fun h => hlow h.1]

theorem Header.not_banked {h : Header} (hzero : ∀ k : Fin 8, h.bankswitch[k] = 0#8) : ¬ h.banked = true := fun hb => by
  obtain ⟨k, hk⟩ := h.banked_eq_true.1 hb
  exact hk (hzero k)

section
variable {song region : Byte} {sink : Nat} {e e' : Engine} (hb : ¬ e.header.banked = true)
  (hl : 0x8000 ≤ e.header.loadAddress.toNat)
include hb hl

theorem Engine.initSteps_of_contig_ok (h : (e.initCommon song region sink).initContig = .ok e' ()) :
    e.initSteps song region sink = e' := by
  rw [Engine.initSteps, if_neg (Nat.not_lt.2 hl), if_neg hb, h]

theorem Engine.initSteps_of_contig_raise {kind : ErrorKind} {info : FaultInfo}
    (h : (e.initCommon song region sink).initContig = .raise e' kind info) :
    e.initSteps song region sink = e'.raiseFault kind info := by
  rw [Engine.initSteps, if_neg (Nat.not_lt.2 hl), if_neg hb, h]

end

end Sys2Proof.Machine
end

section
/-! PROOFS. The statements on the two modes of the reset steps (spec/70_reset_and_hazards.md R110 to R112, R117), from the
rules above. -/

namespace Sys2Proof.Machine

/-- Settles O46: every window is on its initial bank (`Engine.initBanked_shows`) while the registers are those
`InitCommon` zeroed, so that a write of 0 is filtered and a write of the initial bank is a load that hits. -/
theorem bankRegistersHideTheInitialBanks : Obligations.BankRegistersHideTheInitialBanks := by
  intro e song region sink k s hb hl hs hf
  obtain ⟨-, -, -, hregs, -⟩ := e.initSteps_regions song region sink hl
  have hzero : s.eng.bankRegs[k] = 0#8 := by
    rw [hs, hregs, Engine.initCommon_bankRegs, get_replicate]
  rw [e.initSteps_banked song region sink hb hl] at hs
  have hfault : (e.initCommon song region sink).initBanked.fault = none := hs ▸ hf
  have hinv : s.eng.CacheInv := hs ▸ Engine.initBanked_cacheInv hfault
  obtain ⟨i, hwin, hloaded, hbank⟩ : s.eng.ShowsBank k e.header.bankswitch[k] :=
    hs ▸ Engine.initBanked_shows hfault k
  refine ⟨(hinv.shown k i hwin).2.trans hbank, ⟨i, hwin, hloaded, hbank⟩, ?read, exec_wrBankreg_of_held hzero.symm,
    fun hne => ?hit⟩
  case read =>
    rw [exec_read_of_no_effect (i := .rdBankreg k) rfl rfl, if_pos hf, hzero]
  case hit =>
    have hstored : Engine.CacheInv { s.eng with bankRegs := s.eng.bankRegs.set k e.header.bankswitch[k] } :=
      hinv.congr rfl rfl rfl rfl rfl rfl rfl
    obtain ⟨l, -, -, hload, -⟩ := loadBankHitShowsTheSlot _ k _ i hstored hloaded hbank
    refine ⟨_, i, exec_write_live rfl hf (Engine.writeBankreg_of_ne (hzero.symm ▸ hne)), ?_⟩
    rw [hload]

/-- Settles O54: no load raises a fault (`Engine.initBanked_unfaulted`), so the eight loads are those of
`Engine.initBanked_eq_loadAll`; what they do not touch is as `InitCommon` and the cleared cache left it. -/
theorem bankedInitLoadsTheWindows : Obligations.BankedInitLoadsTheWindows := by
  intro e song region sink hne hl hf hio
  rw [e.initSteps_banked song region sink (e.header.banked_eq_true.2 hne) hl]
  have hfault := Engine.initBanked_unfaulted (e := e.initCommon song region sink) hf hio
  have hsame := (e.initCommon song region sink).initBanked_sameBus
  refine ⟨hfault, hsame.romMode, hsame.flat, hsame.initialised, e.initCommon_initBanked_content song region sink,
    fun k => ?windows, Engine.initBanked_lists hfault⟩
  obtain ⟨i, hwin, hloaded, hbank⟩ := Engine.initBanked_shows hfault k
  exact ⟨((Engine.initBanked_cacheInv hfault).shown k i hwin).2.trans hbank, i, hwin, hloaded, hbank⟩

/-- Settles O55: what `InitContig` does is `Engine.initContig_eq`, the bytes of the buffer are `Engine.read_flatBytes`; the
read is short just if the file ends before the last byte asked for. -/
theorem contiguousInitFillsTheFlatBuffer : Obligations.ContiguousInitFillsTheFlatBuffer := by
  constructor
  · intro e song region sink hzero hl hio
    refine ⟨e.flatBytes, ?_, e.read_flatBytes hl⟩
    have hio' : ¬ (e.initCommon song region sink).ioFail.headD false = true := Bool.eq_false_iff.1 hio
    have hcontig := (e.initCommon song region sink).initContig_eq
    rw [if_neg hio', short_fileBytes] at hcontig
    exact Engine.initSteps_of_contig_ok (Header.not_banked hzero) hl hcontig
  · intro e song region sink hzero hl hio
    have hio' : (e.initCommon song region sink).ioFail.headD false = true := hio
    have hcontig := (e.initCommon song region sink).initContig_eq
    rw [if_pos hio'] at hcontig
    exact Engine.initSteps_of_contig_raise (Header.not_banked hzero) hl hcontig

end Sys2Proof.Machine
end

section
/-! PROOFS. The rules for a step of the process: what it can do to the engines and the run, said once
(spec/43_host_ops.md, spec/70_reset_and_hazards.md R107, R113, R114). -/

namespace Sys2Proof.Machine

/-! ## The blank engine and the new one -/

/-- Without a flat window item 8 of R82 asks nothing. -/
theorem Engine.blank_cacheInv : Engine.blank.CacheInv := by
  have hcleared := Engine.clearCache_cacheInv Engine.blank
  refine ⟨hcleared.listed, hcleared.once, hcleared.unloaded, hcleared.held, hcleared.shown, hcleared.noBank,
    hcleared.leading, hcleared.distinct, fun k hk => ?_⟩
  have hunmapped : Engine.blank.win[k] = .unmapped := get_replicate _ k
  cases hunmapped.symm.trans hk

theorem Engine.blank_inv : Engine.blank.Inv where
  mem := ⟨rfl, rfl, fun _ hm => (by cases hm), fun i => by rw [show Engine.blank.cache[i] = [] from get_replicate _ i]; rfl⟩
  bank := Engine.blank_cacheInv
  content := fun i _ hi => by cases (show Engine.blank.slotLoaded[i] = false from get_replicate _ i).symm.trans hi
  noInternal := fun _ hr => (by cases hr)
  shim := Or.inl rfl
  vectors := rfl
  ready := fun hi => (by cases hi)

/-- A new engine has every slot unloaded, so its header and file are nothing yet to R83. -/
theorem Engine.atOpen_inv (h : Header) (diags : List Diag) (file : List Byte) (io : List Bool) :
    (Engine.atOpen h diags file io).Inv where
  mem := Engine.blank_inv.mem.congr rfl rfl rfl rfl
  bank := Engine.blank_cacheInv.congr rfl rfl rfl rfl rfl rfl rfl
  content := fun i _ hi => by cases (show Engine.blank.slotLoaded[i] = false from get_replicate _ i).symm.trans hi
  noInternal := fun _ hr => (by cases hr)
  shim := Or.inl rfl
  vectors := rfl
  ready := fun hi => (by cases hi)

/-- The reset steps initialise no engine (R113). -/
theorem Engine.initSteps_initialised (song region : Byte) (sink : Nat) {e : Engine} (h : e.initialised = false) :
    (e.initSteps song region sink).initialised = false := by
  rcases e.initSteps_cases song region sink with ⟨-, h1⟩ | ⟨-, -, h1⟩ | ⟨-, -, ⟨e', hc, h1⟩ | ⟨e', hc, h1⟩⟩ <;> rw [h1]
  · exact h
  · exact Engine.initBanked_induct (·.initialised = false) _ rfl
      fun x k hx _ => (x.loadBank_sameBus k.val x.header.bankswitch[k]).initialised.trans hx
  · rw [Engine.initContig_eq] at hc
    split at hc <;> cases hc
    rfl
  · rw [Engine.initContig_eq] at hc
    split at hc <;> cases hc
    rfl

/-! ## What a step can do -/

/-- What a step does to the engines, the status and the run, by the operation it runs. Its inputs, `pc()` and the output are
left open. -/
inductive StepEffect (s : State) : State → Prop where
  /-- no engine changes; the run may end -/
  | keeps (run : Run) (inputs : List Input) (pc : Addr) (out : Output) (hrun : run = s.run ∨ run = .idle) :
      StepEffect s { s with run := run, inputs := inputs, cpuPc := pc, out := out }
  | transaction (i : Instr) (inputs : List Input) (out : Output) (hactive : s.status = .active)
      (hfault : s.eng.fault = none) :
      StepEffect s { s with eng := (s.eng.applyTxn i).1, inputs := inputs, out := out }
  | opens (file : List Byte) (io io' : List Bool) (h : Header) (diags : List Diag) (inputs : List Input) (out : Output)
      (hinput : s.inputs = .host (.openFile file io) :: inputs) (hidle : s.run = .idle) (hactive : s.status ≠ .active) :
      StepEffect s { s with
        eng := Engine.atOpen h diags file io', status := .active
        failed := if s.status = .detached then s.failed ++ [s.eng] else s.failed, inputs := inputs, out := out }
  /-- the reset steps of `playback_init`, which raise a fault -/
  | resetFails (song region : Byte) (sink : Nat) (inputs : List Input) (out : Output) (hidle : s.run = .idle)
      (hpresent : s.status ≠ .absent) (hfault : s.eng.fault = none)
      (hraised : (s.eng.initSteps song region sink).fault ≠ none) :
      StepEffect s { s with
        eng := { s.eng.initSteps song region sink with initialised := false }, status := .detached, run := .idle
        inputs := inputs, out := out }
  /-- the reset steps of `playback_init` without a fault, or of the trace line `INIT` -/
  | resets (song region : Byte) (sink : Nat) (run : Run) (inputs : List Input) (out : Output) (hidle : s.run = .idle)
      (hpresent : s.status ≠ .absent) (hfault : s.eng.fault = none)
      (hunfaulted : (s.eng.initSteps song region sink).fault = none) (hrun : run = .initRun ∨ run = .idle) :
      StepEffect s { s with eng := s.eng.initSteps song region sink, run := run, inputs := inputs, out := out }
  /-- the CPU run of `playback_init` ends with a fault -/
  | initFails (inputs : List Input) (pc : Addr) (out : Output) (hrun : s.run = .initRun) (hfault : s.eng.fault ≠ none) :
      StepEffect s { s with
        eng := { s.eng with initialised := false }, status := .detached, run := .idle
        inputs := inputs, cpuPc := pc, out := out }
  /-- the CPU run of `playback_init` reaches `$1007` -/
  | initDone (inputs : List Input) (out : Output) (hinput : s.inputs = .cpuReturn Config.idlePc :: inputs)
      (hrun : s.run = .initRun) (hfault : s.eng.fault = none) :
      StepEffect s { s with
        eng := { s.eng with initialised := true }, run := .idle, inputs := inputs, cpuPc := Config.idlePc, out := out }
  | frameBegins (inputs : List Input) (out : Output) (hpresent : s.status ≠ .absent) (hfault : s.eng.fault = none)
      (hinit : s.eng.initialised = true) :
      StepEffect s { s with run := .frameRun, inputs := inputs, out := out }
  /-- the trace line `LOADBANK` -/
  | loads (r : Nat) (b : Byte) (inputs : List Input) (out : Output) (hidle : s.run = .idle) (hpresent : s.status ≠ .absent)
      (hfault : s.eng.fault = none) :
      StepEffect s { s with eng := s.eng.loadBank r b, inputs := inputs, out := out }
  | closes (inputs : List Input) (out : Output) (hinput : s.inputs = .host (.close .current) :: inputs)
      (hidle : s.run = .idle) :
      StepEffect s { s with eng := Engine.blank, status := .absent, inputs := inputs, out := out }
  | closesFailed (k : Nat) (inputs : List Input) (out : Output) (hinput : s.inputs = .host (.close (.failed k)) :: inputs) :
      StepEffect s { s with failed := s.failed.eraseIdx k, inputs := inputs, out := out }

/-- A result is returned, and no more. -/
theorem StepEffect.returning (r : HostResult) (s : State) (inputs : List Input) :
    StepEffect s (({ s with inputs := inputs }).returning r) :=
  .keeps s.run inputs s.cpuPc _ (Or.inl rfl)

theorem StepEffect.of_onCurrent {s t : State} {rest : List Input} {f : State → State}
    (h : ({ s with inputs := rest }).onCurrent f = .next t)
    (hf : s.status ≠ .absent → StepEffect s (f { s with inputs := rest })) : StepEffect s t := by
  unfold State.onCurrent at h
  split at h
  · cases h
  · next hpresent =>
    cases h
    exact hf hpresent

theorem StepEffect.of_callOnFailed {s t : State} {rest : List Input} {k : Nat}
    (h : callOnFailed k { s with inputs := rest } = .next t) : StepEffect s t := by
  rcases callOnFailed_cases k { s with inputs := rest } with ⟨e, r, -, -, hc⟩ | ⟨-, hc⟩ <;> cases hc.symm.trans h
  exact .returning _ s rest

theorem StepEffect.callOpen {s : State} {file : List Byte} {io : List Bool} {rest : List Input}
    (hinput : s.inputs = .host (.openFile file io) :: rest) (hidle : s.run = .idle) :
    StepEffect s (callOpen file io { s with inputs := rest }) := by
  rcases callOpen_cases file io { s with inputs := rest } with ⟨-, h⟩ | ⟨-, _, _, -, h⟩ | ⟨hactive, io', hd, diags, -, h⟩ <;>
    rw [h]
  · exact .returning _ s rest
  · exact .returning _ s rest
  · exact .opens file io io' hd diags rest _ hinput hidle hactive

theorem StepEffect.callInit (whole : Bool) (song region : Byte) (sink : Nat) {s : State} (rest : List Input)
    (hidle : s.run = .idle) (hpresent : s.status ≠ .absent) :
    StepEffect s (callInit whole song region sink { s with inputs := rest }) := by
  rcases callInit_cases whole song region sink { s with inputs := rest } with
    ⟨_, -, h⟩ | ⟨hfault, _, hkind, h⟩ | ⟨hfault, hok, h⟩ <;> rw [h]
  · exact .returning _ s rest
  · refine .resetFails song region sink rest _ hidle hpresent hfault fun hnone => ?_
    cases hkind.symm.trans ((Engine.faultKind_eq_none _).2 hnone)
  · cases whole
    · exact .resets song region sink s.run rest _ hidle hpresent hfault hok (Or.inr hidle)
    · exact .resets song region sink .initRun rest _ hidle hpresent hfault hok (Or.inl rfl)

theorem StepEffect.callFrame {s : State} (rest : List Input) (hpresent : s.status ≠ .absent) :
    StepEffect s (callFrame { s with inputs := rest }) := by
  rcases callFrame_cases { s with inputs := rest } with ⟨_, -, h⟩ | ⟨-, -, h⟩ | ⟨hfault, hinit, -, h⟩ <;> rw [h]
  · exact .returning _ s rest
  · exact .returning _ s rest
  · exact .frameBegins rest _ hpresent hfault hinit

theorem StepEffect.callLoadBank (r : Nat) (b : Byte) {s : State} (rest : List Input) (hidle : s.run = .idle)
    (hpresent : s.status ≠ .absent) : StepEffect s (callLoadBank r b { s with inputs := rest }) := by
  rcases callLoadBank_cases r b { s with inputs := rest } with ⟨_, -, h⟩ | ⟨hfault, _, -, h⟩ | ⟨hfault, -, h⟩ <;> rw [h]
  · exact .returning _ s rest
  · exact .loads r b rest _ hidle hpresent hfault
  · exact .loads r b rest _ hidle hpresent hfault

theorem StepEffect.callClose {s t : State} {ref : EngineRef} {rest : List Input}
    (hinput : s.inputs = .host (.close ref) :: rest) (hidle : s.run = .idle)
    (h : callClose { s with inputs := rest } ref = .next t) : StepEffect s t := by
  cases ref with
  | current =>
    dsimp only [Machine.callClose] at h
    split at h <;> cases h
    exact .closes rest _ hinput hidle
  | failed k =>
    dsimp only [Machine.callClose] at h
    split at h <;> cases h
    exact .closesFailed k rest _ hinput

theorem StepEffect.hostCall {s t : State} {op : HostOp} {rest : List Input} (hinput : s.inputs = .host op :: rest)
    (h : hostCall op { s with inputs := rest } = .next t) : StepEffect s t := by
  unfold Machine.hostCall at h
  split at h
  · cases h
  next hrun =>
  have hidle : s.run = .idle := not_not.1 hrun
  cases op with
  | readHeader file io =>
    cases h
    unfold callReadHeader
    split <;> exact .returning _ s rest
  | openFile file io =>
    cases h
    exact .callOpen hinput hidle
  | getHeader ref =>
    dsimp only at h
    split at h <;> cases h
    exact .returning _ s rest
  | logHeader ref =>
    dsimp only at h
    split at h <;> cases h
    exact .returning _ s rest
  | playbackInit ref song region sink =>
    cases ref with
    | current => exact .of_onCurrent h (.callInit true song region sink rest hidle)
    | failed k => exact .of_callOnFailed h
  | playbackFrame ref =>
    cases ref with
    | current => exact .of_onCurrent h (.callFrame rest)
    | failed k => exact .of_callOnFailed h
  | close ref => exact .callClose hinput hidle h
  | traceInit song region sink => exact .of_onCurrent h (.callInit false song region sink rest hidle)
  | traceLoadBank r b => exact .of_onCurrent h (.callLoadBank r b rest hidle)

theorem StepEffect.cpuReturned {s : State} {pc : Addr} {rest : List Input} (hinput : s.inputs = .cpuReturn pc :: rest) :
    StepEffect s (cpuReturned pc { s with inputs := rest }) := by
  rcases cpuReturned_cases pc { s with inputs := rest } with ⟨-, h⟩ | ⟨hrun, kind, hkind, h⟩ | ⟨hrun, hfault, hpc, h⟩ |
      ⟨-, _, -, h⟩ | ⟨-, -, -, h⟩ | ⟨-, -, -, h⟩ <;> rw [h]
  · exact .keeps s.run rest pc _ (Or.inl rfl)
  · refine .initFails rest pc _ hrun fun hnone => ?_
    cases hkind.symm.trans ((Engine.faultKind_eq_none _).2 hnone)
  · subst hpc
    exact .initDone rest _ hinput hrun hfault
  · exact .keeps .idle rest pc _ (Or.inr rfl)
  · exact .keeps .idle rest pc _ (Or.inr rfl)
  · exact .keeps s.run rest pc _ (Or.inl rfl)

theorem StepEffect.busTransaction {s t : State} {w : TxnWord} {rest : List Input}
    (h : busTransaction w { s with inputs := rest } = .next t) : StepEffect s t := by
  unfold Machine.busTransaction at h
  split at h
  · next hactive =>
    obtain ⟨ht, ⟨-, heng⟩ | ⟨hfault, heng⟩⟩ := exec_next_eng h <;> rw [ht, heng]
    · exact .keeps s.run rest s.cpuPc _ (Or.inl rfl)
    · exact .transaction (decode w) rest _ hactive hfault
  · cases h

/-- Everything a step can do. -/
theorem step_effect {s t : State} (h : step s = .next t) : StepEffect s t := by
  cases hinput : s.inputs with
  | nil =>
    cases (step_nil hinput).symm.trans h
    exact .keeps s.run s.inputs s.cpuPc s.out (Or.inl rfl)
  | cons i rest =>
    rw [step_cons hinput] at h
    cases i with
    | bus w => exact .busTransaction h
    | cpuReturn pc =>
      cases h
      exact .cpuReturned hinput
    | host op => exact .hostCall hinput h

end Sys2Proof.Machine
end

section
/-! PROOFS. Reset, the invariant of the process, the sticky fault and the flag `initialised` (O1, O2, O42, O43, O44): each a
fact per effect of a step (`step_effect`). -/

namespace Sys2Proof.Machine

/-- Settles O1: the vectors hold one value throughout (`get_replicate`), and a memory of no stores reads 0. -/
theorem resetHoldsTheAtOpenValues : Obligations.ResetHoldsTheAtOpenValues :=
  ⟨rfl, rfl, rfl, rfl, fun _ => rfl, fun _ => rfl, get_replicate _, get_replicate _,
    fun k => ⟨get_replicate _ k, get_replicate _ k⟩, rfl, rfl, rfl, rfl, rfl, rfl, rfl, rfl,
    fun i _ => by rw [show State.reset.eng.cache[i] = [] from get_replicate _ i]; rfl,
    fun i => ⟨get_replicate _ i, get_replicate _ i, get_replicate _ i⟩, rfl, rfl, rfl, rfl⟩

/-- Settles O2: the engine of reset is the blank one (`Engine.blank_inv`); the rest speaks of a run or of engines that are
not there. -/
theorem resetSatisfiesTheInvariant : Obligations.ResetSatisfiesTheInvariant where
  eng := Engine.blank_inv
  failed := fun _ he => (by cases he)
  detached := fun h => (by cases h)
  absent := fun _ => rfl
  running := fun h => absurd rfl h
  initRun := fun h => (by cases h)
  frameRun := fun h => (by cases h)

/-! ## The invariant (O42) -/

theorem Engine.Inv.withInitialised_false {e : Engine} (h : e.Inv) : Engine.Inv { e with initialised := false } :=
  Engine.Inv.congr h rfl rfl rfl rfl rfl rfl rfl rfl rfl rfl rfl rfl (Or.inl rfl) rfl (Or.inr rfl)

theorem Engine.faulted_of_fault_ne_none {e : Engine} (h : e.fault ≠ none) : e.faulted = true :=
  (Engine.faulted_iff e).2 (Option.ne_none_iff_exists'.1 h)

/-- An engine without a fault waits for no `close`. -/
theorem State.Inv.active_of_unfaulted {s : State} (hs : s.Inv) (hpresent : s.status ≠ .absent) (hfault : s.eng.fault = none) :
    s.status = .active := by
  cases hst : s.status with
  | absent => exact absurd hst hpresent
  | active => rfl
  | detached => cases ((Engine.not_faulted_iff _).2 hfault).symm.trans (hs.detached hst).1

theorem StepEffect.inv {s t : State} (h : StepEffect s t) (hs : s.Inv) : t.Inv := by
  cases h with
  | keeps run _ _ _ hrun =>
    refine ⟨hs.eng, hs.failed, hs.detached, hs.absent, fun hr => hs.running ?_, fun hr => hs.initRun ?_,
      fun hr => hs.frameRun ?_⟩ <;> rcases hrun with rfl | rfl
    · exact hr
    · exact absurd rfl hr
    · exact hr
    · cases hr
    · exact hr
    · cases hr
  | transaction i _ _ hactive _ =>
    obtain ⟨-, -, -, hmode, hheader, -, hinit, -⟩ := s.eng.applyTxn_sameConfig i
    refine ⟨Engine.Inv.applyTxn hs.eng i, hs.failed, fun hd => ?_, fun ha => ?_, hs.running, fun hr => ?_, fun hr => ?_⟩
    · cases hactive.symm.trans hd
    · cases hactive.symm.trans ha
    · dsimp only
      rw [hinit, hmode, hheader]
      exact hs.initRun hr
    · exact hinit.trans (hs.frameRun hr)
  | opens file io io' hd diags _ _ _ hidle _ =>
    refine ⟨Engine.atOpen_inv hd diags file io', fun e he => ?_, fun h => (by cases h), fun h => (by cases h),
      fun _ => rfl, fun hr => (by cases hidle.symm.trans hr), fun hr => (by cases hidle.symm.trans hr)⟩
    dsimp only at he
    split at he
    · next hdetached =>
      rcases List.mem_append.1 he with he | he
      · exact hs.failed e he
      · rw [List.mem_singleton.1 he]
        exact ⟨hs.eng, hs.detached hdetached⟩
    · exact hs.failed e he
  | resetFails song region sink _ _ _ _ _ hraised =>
    exact ⟨(Engine.Inv.initSteps hs.eng song region sink).1.withInitialised_false, hs.failed,
      fun _ => ⟨Engine.faulted_of_fault_ne_none hraised, rfl⟩, fun h => (by cases h), fun hr => absurd rfl hr,
      fun hr => (by cases hr), fun hr => (by cases hr)⟩
  | resets song region sink run _ _ _ hpresent hfault hunfaulted hrun =>
    obtain ⟨hinv, hready⟩ := Engine.Inv.initSteps hs.eng song region sink
    obtain ⟨hinit, hload, hmode⟩ := hready hunfaulted
    have hactive := hs.active_of_unfaulted hpresent hfault
    refine ⟨hinv, hs.failed, fun hd => (by cases hactive.symm.trans hd), fun ha => absurd ha hpresent, fun _ => hactive,
      fun _ => ⟨hinit, hmode, hload⟩, fun hr => ?_⟩
    rcases hrun with rfl | rfl <;> cases hr
  | initFails _ _ _ _ hfault =>
    exact ⟨hs.eng.withInitialised_false, hs.failed, fun _ => ⟨Engine.faulted_of_fault_ne_none hfault, rfl⟩,
      fun h => (by cases h), fun hr => absurd rfl hr, fun hr => (by cases hr), fun hr => (by cases hr)⟩
  | initDone _ _ _ hrun _ =>
    obtain ⟨-, hready⟩ := hs.initRun hrun
    have hactive := hs.running (by rw [hrun]; exact Run.noConfusion)
    exact ⟨⟨hs.eng.mem.congr rfl rfl rfl rfl, hs.eng.bank.congr rfl rfl rfl rfl rfl rfl rfl,
        hs.eng.content.congr rfl rfl rfl rfl rfl, hs.eng.noInternal, hs.eng.shim, hs.eng.vectors, fun _ => hready⟩,
      hs.failed, fun hd => (by cases hactive.symm.trans hd), fun ha => (by cases hactive.symm.trans ha),
      fun hr => absurd rfl hr, fun hr => (by cases hr), fun hr => (by cases hr)⟩
  | frameBegins _ _ hpresent hfault hinit =>
    exact ⟨hs.eng, hs.failed, hs.detached, hs.absent, fun _ => hs.active_of_unfaulted hpresent hfault,
      fun hr => (by cases hr), fun _ => hinit⟩
  | loads r b _ _ hidle hpresent hfault =>
    have hactive := hs.active_of_unfaulted hpresent hfault
    exact ⟨Engine.Inv.loadBank hs.eng r b, hs.failed, fun hd => (by cases hactive.symm.trans hd),
      fun ha => absurd ha hpresent, hs.running, fun hr => (by cases hidle.symm.trans hr),
      fun hr => (by cases hidle.symm.trans hr)⟩
  | closes _ _ _ hidle =>
    exact ⟨Engine.blank_inv, hs.failed, fun h => (by cases h), fun _ => rfl, fun hr => absurd hidle hr,
      fun hr => (by cases hidle.symm.trans hr), fun hr => (by cases hidle.symm.trans hr)⟩
  | closesFailed k _ _ _ =>
    exact ⟨hs.eng, fun e he => hs.failed e (List.mem_of_mem_eraseIdx he), hs.detached, hs.absent, hs.running, hs.initRun,
      hs.frameRun⟩

/-- Settles O42: by the effects of a step (`step_effect`, `StepEffect.inv`). -/
theorem everyStepKeepsTheInvariant : Obligations.EveryStepKeepsTheInvariant :=
  fun _ _ hs h => (step_effect h).inv hs

/-! ## Sticky faults (O43) -/

/-- The fault of the current engine survives every effect but its `close` and an `open` beside it. -/
theorem StepEffect.fault {s t : State} {r : FaultRecord} (h : StepEffect s t) (hr : s.eng.fault = some r)
    (hclose : ∀ rest, s.inputs ≠ .host (.close .current) :: rest)
    (hopen : ∀ file io rest, s.inputs = .host (.openFile file io) :: rest → s.status = .active) : t.eng.fault = some r := by
  have hne : s.eng.fault ≠ none := by rw [hr]; exact Option.some_ne_none r
  cases h with
  | keeps => exact hr
  | transaction _ _ _ _ hfault => exact absurd hfault hne
  | opens _ _ _ _ _ _ _ hinput _ hactive => exact absurd (hopen _ _ _ hinput) hactive
  | resetFails _ _ _ _ _ _ _ hfault => exact absurd hfault hne
  | resets _ _ _ _ _ _ _ _ hfault => exact absurd hfault hne
  | initFails => exact hr
  | initDone _ _ _ _ hfault => exact absurd hfault hne
  | frameBegins => exact hr
  | loads _ _ _ _ _ _ hfault => exact absurd hfault hne
  | closes _ _ hinput => exact absurd hinput (hclose _)
  | closesFailed => exact hr

/-- An `open` beside a detached engine fails, or keeps that engine among the replaced ones. -/
theorem open_keeps_detached {s t : State} {file : List Byte} {io : List Bool} {rest : List Input}
    (hdetached : s.status = .detached) (hinput : s.inputs = .host (.openFile file io) :: rest) (h : step s = .next t) :
    t.eng = s.eng ∨ s.eng ∈ t.failed := by
  rw [step_cons hinput] at h
  change hostCall (.openFile file io) _ = _ at h
  unfold hostCall at h
  split at h
  · cases h
  · cases h
    rcases callOpen_cases file io { s with inputs := rest } with ⟨-, h⟩ | ⟨-, _, _, -, h⟩ | ⟨-, _, _, _, -, h⟩ <;> rw [h]
    · exact Or.inl rfl
    · exact Or.inl rfl
    · refine Or.inr ?_
      dsimp only
      rw [if_pos hdetached]
      exact List.mem_append_right _ (List.mem_singleton_self _)

/-- A replaced engine leaves the list only by its own `close`. -/
theorem StepEffect.mem_failed {s t : State} {e : Engine} (h : StepEffect s t) (he : e ∈ s.failed)
    (hclose : ∀ (k : Nat) (rest : List Input), s.inputs = .host (.close (.failed k)) :: rest → s.failed[k]? ≠ some e) :
    e ∈ t.failed := by
  cases h with
  | opens =>
    dsimp only
    split
    · exact List.mem_append_left _ he
    · exact he
  | closesFailed k rest _ hinput =>
    obtain ⟨j, hj⟩ := List.mem_iff_getElem?.1 he
    refine List.mem_eraseIdx_iff_getElem?.2 ⟨j, fun hjk => hclose k rest hinput (hjk ▸ hj), hj⟩
  | _ => exact he

/-- Settles O43: by the effects of a step (`step_effect`). -/
theorem faultsAreSticky : Obligations.FaultsAreSticky :=
  ⟨fun _ _ _ hr h hclose hopen => (step_effect h).fault hr hclose hopen,
    fun _ _ _ _ _ hdetached hinput h => open_keeps_detached hdetached hinput h,
    fun _ _ _ he h hclose => (step_effect h).mem_failed he hclose⟩

/-! ## `initialised` (O44) -/

/-- Settles O44: of the effects of a step (`step_effect`) one sets the flag. -/
theorem onlyTheInitRunInitialises : Obligations.OnlyTheInitRunInitialises := by
  intro s t hs h ht
  have hfalse : ∀ {b : Bool}, b = false → b = true → False := by
    rintro _ rfl ⟨⟩
  cases step_effect h with
  | transaction i => exact (hfalse ((s.eng.applyTxn_sameConfig i).initialised.trans hs) ht).elim
  | resets song region sink => exact (hfalse (Engine.initSteps_initialised song region sink hs) ht).elim
  | loads r b => exact (hfalse ((s.eng.loadBank_sameBus r b).initialised.trans hs) ht).elim
  | initDone rest _ hinput hrun hfault => exact ⟨hrun, hfault, rest, hinput⟩
  | keeps => exact (hfalse hs ht).elim
  | frameBegins => exact (hfalse hs ht).elim
  | closesFailed => exact (hfalse hs ht).elim
  | opens => cases ht
  | resetFails => cases ht
  | initFails => cases ht
  | closes => cases ht

end Sys2Proof.Machine
end

section
/-! PROOFS. The rules for the host operations (spec/43_host_ops.md, spec/70_reset_and_hazards.md R107, R113, R114): each call
by the case it is in. -/

namespace Sys2Proof.Machine

/-! ## The header (R58, R87) -/

theorem toNat_le16 (lo hi : Byte) : (le16 lo hi).toNat = lo.toNat + 256 * hi.toNat := by
  have hlo : lo.toNat < 2 ^ 8 := lo.isLt
  rw [le16, BitVec.toNat_append, ← Nat.shiftLeft_add_eq_or_of_lt hlo, Nat.shiftLeft_eq]
  omega

theorem headerText_length {h : List Byte} {i : Nat} (hfits : i + 31 ≤ h.length) : (headerText h i).length = 32 := by
  rw [headerText, List.length_append, List.length_take, List.length_drop, List.length_singleton]
  omega

/-- The header is what `read_header` reads first, and P_IO's answer to that read is used up. -/
theorem readHeader_eq (file : List Byte) (io : List Bool) :
    readHeader file io = (io.tail,
      if io.headD false = true then .error .ioError
      else if (file.take 128).length < 128 then .error .shortHeader
      else if (file.take 128).take 5 ≠ headerMagic then .error .badMagic
      else .ok (parseHeader (file.take 128), reservedDiags (file.take 128))) := by
  rw [readHeader, fileRead]
  cases io.headD false <;> rfl

theorem readHeader_io (file : List Byte) (io : List Bool) : (readHeader file io).1 = io.tail := by
  rw [readHeader_eq]

theorem headerByte_take (file : List Byte) {i : Nat} (hi : i < 128) : headerByte (file.take 128) i = file.getD i 0#8 := by
  rw [headerByte, List.getD_eq_getElem?_getD, List.getElem?_take_of_lt hi, ← List.getD_eq_getElem?_getD]

/-! ## The calls -/

section
variable {s : State} (hidle : s.run = .idle)
include hidle

theorem hostCall_readHeader (file : List Byte) (io : List Bool) :
    hostCall (.readHeader file io) s = .next (callReadHeader file io s) := if_neg (not_not.2 hidle)

theorem hostCall_openFile (file : List Byte) (io : List Bool) :
    hostCall (.openFile file io) s = .next (callOpen file io s) := if_neg (not_not.2 hidle)

theorem hostCall_getHeader {ref : EngineRef} {e : Engine} (he : s.engineAt ref = some e) :
    hostCall (.getHeader ref) s = .next (s.returning (.header e.header [])) := by
  refine (if_neg (not_not.2 hidle)).trans ?_
  dsimp only
  rw [he]

theorem hostCall_logHeader {ref : EngineRef} {e : Engine} (he : s.engineAt ref = some e) :
    hostCall (.logHeader ref) s = .next (s.returning .ok) := by
  refine (if_neg (not_not.2 hidle)).trans ?_
  dsimp only
  rw [he]
  rfl

theorem hostCall_close (ref : EngineRef) : hostCall (.close ref) s = callClose s ref := if_neg (not_not.2 hidle)

theorem hostCall_playbackInit_failed (k : Nat) (song region : Byte) (sink : Nat) :
    hostCall (.playbackInit (.failed k) song region sink) s = callOnFailed k s := if_neg (not_not.2 hidle)

theorem hostCall_playbackFrame_failed (k : Nat) : hostCall (.playbackFrame (.failed k)) s = callOnFailed k s :=
  if_neg (not_not.2 hidle)

variable (hpresent : s.status ≠ .absent)
include hpresent

theorem hostCall_playbackInit (song region : Byte) (sink : Nat) :
    hostCall (.playbackInit .current song region sink) s = .next (callInit true song region sink s) :=
  (if_neg (not_not.2 hidle)).trans (if_neg hpresent)

theorem hostCall_playbackFrame : hostCall (.playbackFrame .current) s = .next (callFrame s) :=
  (if_neg (not_not.2 hidle)).trans (if_neg hpresent)

theorem hostCall_traceInit (song region : Byte) (sink : Nat) :
    hostCall (.traceInit song region sink) s = .next (callInit false song region sink s) :=
  (if_neg (not_not.2 hidle)).trans (if_neg hpresent)

theorem hostCall_traceLoadBank (r : Nat) (b : Byte) :
    hostCall (.traceLoadBank r b) s = .next (callLoadBank r b s) :=
  (if_neg (not_not.2 hidle)).trans (if_neg hpresent)

end

/-! ## What each of them does -/

theorem Engine.faultKind_of_fault {e : Engine} {r : FaultRecord} (h : e.fault = some r) : e.faultKind = some r.kind := by
  rw [Engine.faultKind, h]
  rfl

theorem State.engineAt_current {s : State} (hpresent : s.status ≠ .absent) : s.engineAt .current = some s.eng :=
  if_neg hpresent

theorem callOpen_of_active (file : List Byte) (io : List Bool) {s : State} (h : s.status = .active) :
    callOpen file io s = s.returning (.err .alreadyOpen) := if_pos h

theorem callOpen_of_error {file : List Byte} {io : List Bool} {s : State} {kind : ErrorKind} (h : s.status ≠ .active)
    (hread : (readHeader file io).2 = .error kind) : callOpen file io s = s.returning (.err kind) := by
  rw [callOpen, if_neg h, ← Prod.mk.eta (p := readHeader file io), hread]

theorem callOpen_of_ok {file : List Byte} {io : List Bool} {s : State} {h : Header} {diags : List Diag}
    (hstatus : s.status ≠ .active) (hread : (readHeader file io).2 = .ok (h, diags)) :
    callOpen file io s = { s with
      eng := Engine.atOpen h diags file io.tail, status := .active
      failed := if s.status = .detached then s.failed ++ [s.eng] else s.failed, out := .hostReturn .ok } := by
  rw [callOpen, if_neg hstatus, ← Prod.mk.eta (p := readHeader file io), hread, readHeader_io]

theorem callOnFailed_of_faulted {k : Nat} {s : State} {e : Engine} {r : FaultRecord} (hk : s.failed[k]? = some e)
    (hr : e.fault = some r) : callOnFailed k s = .next (s.returning (.err r.kind)) := by
  rw [callOnFailed, hk, Option.bind_some, Engine.faultKind_of_fault hr]

theorem State.failInit_of_idle {s : State} (hidle : s.run = .idle) (kind : ErrorKind) (e : Engine) :
    s.failInit kind e =
      { s with eng := { e with initialised := false }, status := .detached, out := .hostReturn (.err kind) } := by
  rw [State.failInit, ← hidle]

theorem callInit_of_faulted (whole : Bool) (song region : Byte) (sink : Nat) {s : State} {r : FaultRecord}
    (hr : s.eng.fault = some r) : callInit whole song region sink s = s.returning (.err r.kind) := by
  rw [callInit, Engine.faultKind_of_fault hr]

theorem callInit_of_raise (whole : Bool) {song region : Byte} {sink : Nat} {s : State} {r : FaultRecord}
    (hfault : s.eng.fault = none) (hr : (s.eng.initSteps song region sink).fault = some r) :
    callInit whole song region sink s = s.failInit r.kind (s.eng.initSteps song region sink) := by
  rw [callInit, (Engine.faultKind_eq_none _).2 hfault]
  dsimp only
  rw [Engine.faultKind_of_fault hr]

theorem callInit_of_unfaulted (whole : Bool) {song region : Byte} {sink : Nat} {s : State} (hfault : s.eng.fault = none)
    (hok : (s.eng.initSteps song region sink).fault = none) :
    callInit whole song region sink s =
      if whole then { s with eng := s.eng.initSteps song region sink, run := .initRun, out := .nothing }
      else { s with eng := s.eng.initSteps song region sink, out := .hostReturn .ok } := by
  rw [callInit, (Engine.faultKind_eq_none _).2 hfault]
  dsimp only
  rw [(Engine.faultKind_eq_none _).2 hok]

theorem Engine.initSteps_of_low_load (song region : Byte) (sink : Nat) {e : Engine}
    (hlow : e.header.loadAddress.toNat < 0x8000) :
    e.initSteps song region sink = e.raiseFault .badLoadAddress (.loadAddress e.header.loadAddress) := if_pos hlow

theorem callFrame_of_faulted {s : State} {r : FaultRecord} (hr : s.eng.fault = some r) :
    callFrame s = s.returning (.err r.kind) := by
  rw [callFrame, Engine.faultKind_of_fault hr]

theorem callFrame_refused {s : State} (hfault : s.eng.fault = none)
    (h : s.eng.initialised = false ∨ s.cpuPc ≠ Config.idlePc) : callFrame s = s.returning (.err .invalidState) := by
  rcases callFrame_cases s with ⟨kind, hkind, -⟩ | ⟨-, -, hc⟩ | ⟨-, hinit, hpc, -⟩
  · cases hkind.symm.trans ((Engine.faultKind_eq_none _).2 hfault)
  · exact hc
  · rcases h with h | h
    · cases h.symm.trans hinit
    · exact absurd hpc h

theorem callFrame_begins {s : State} (hfault : s.eng.fault = none) (hinit : s.eng.initialised = true)
    (hpc : s.cpuPc = Config.idlePc) : callFrame s = { s with run := .frameRun, out := .nothing } := by
  rcases callFrame_cases s with ⟨kind, hkind, -⟩ | ⟨-, h | h, -⟩ | ⟨-, -, -, hc⟩
  · cases hkind.symm.trans ((Engine.faultKind_eq_none _).2 hfault)
  · cases h.symm.trans hinit
  · exact absurd hpc h
  · exact hc

theorem callLoadBank_of_fault {r : Nat} {b : Byte} {s : State} {f : FaultRecord} (hfault : s.eng.fault = none)
    (hf : (s.eng.loadBank r b).fault = some f) :
    callLoadBank r b s = { s with eng := s.eng.loadBank r b, out := .hostReturn (.err f.kind) } := by
  rw [callLoadBank, (Engine.faultKind_eq_none _).2 hfault]
  dsimp only
  rw [Engine.faultKind_of_fault hf]

theorem callLoadBank_of_unfaulted {r : Nat} {b : Byte} {s : State} (hfault : s.eng.fault = none)
    (hf : (s.eng.loadBank r b).fault = none) :
    callLoadBank r b s = { s with eng := s.eng.loadBank r b, out := .hostReturn .ok } := by
  rw [callLoadBank, (Engine.faultKind_eq_none _).2 hfault]
  dsimp only
  rw [(Engine.faultKind_eq_none _).2 hf]

/-! ## The CPU's returns (R90, R113) -/

theorem cpuReturned_initRun_of_faulted (pc : Addr) {s : State} {r : FaultRecord} (hrun : s.run = .initRun)
    (hr : s.eng.fault = some r) :
    cpuReturned pc s = { s with
      eng := { s.eng with initialised := false }
      status := .detached, run := .idle, cpuPc := pc, out := .hostReturn (.err r.kind) } := by
  rw [cpuReturned, hrun, Engine.faultKind_of_fault hr]
  rfl

theorem cpuReturned_initRun_of_unfaulted (pc : Addr) {s : State} (hrun : s.run = .initRun) (hfault : s.eng.fault = none) :
    cpuReturned pc s =
      if pc = Config.idlePc then
        { s with eng := { s.eng with initialised := true }, run := .idle, cpuPc := pc, out := .hostReturn .ok }
      else { s with cpuPc := pc, out := .nothing } := by
  rw [cpuReturned, hrun, (Engine.faultKind_eq_none _).2 hfault]

theorem cpuReturned_frameRun_of_faulted (pc : Addr) {s : State} {r : FaultRecord} (hrun : s.run = .frameRun)
    (hr : s.eng.fault = some r) :
    cpuReturned pc s = { s with run := .idle, cpuPc := pc, out := .hostReturn (.err r.kind) } := by
  rw [cpuReturned, hrun, Engine.faultKind_of_fault hr]

theorem cpuReturned_frameRun_of_unfaulted (pc : Addr) {s : State} (hrun : s.run = .frameRun) (hfault : s.eng.fault = none) :
    cpuReturned pc s =
      if pc = Config.idlePc then { s with run := .idle, cpuPc := pc, out := .hostReturn .ok }
      else { s with cpuPc := pc, out := .nothing } := by
  rw [cpuReturned, hrun, (Engine.faultKind_eq_none _).2 hfault]

end Sys2Proof.Machine
end

section
/-! PROOFS. The statements on the host operations (O49 to O52, O56 to O58), case by case from the rules of the calls. -/

namespace Sys2Proof.Machine

theorem callReadHeader_eq (file : List Byte) (io : List Bool) (s : State) :
    callReadHeader file io s = s.returning
      (if io.headD false = true then .err .ioError
      else if file.length < 128 then .err .shortHeader
      else if file.take 5 ≠ headerMagic then .err .badMagic
      else .header (parseHeader (file.take 128)) (reservedDiags (file.take 128))) := by
  have hlen : (file.take 128).length < 128 ↔ file.length < 128 := by rw [List.length_take]; omega
  have htake : (file.take 128).take 5 = file.take 5 := by rw [List.take_take]; rfl
  rw [callReadHeader, readHeader_eq, htake]
  dsimp only
  by_cases hio : io.headD false = true
  · simp only [if_pos hio]
  by_cases hshort : file.length < 128
  · simp only [if_neg hio, if_pos (hlen.2 hshort), if_pos hshort]
  by_cases hmagic : file.take 5 ≠ headerMagic
  · simp only [if_neg hio, if_neg (mt hlen.1 hshort), if_neg hshort, if_pos hmagic]
  · simp only [if_neg hio, if_neg (mt hlen.1 hshort), if_neg hshort, if_neg hmagic]

theorem reservedDiags_take (file : List Byte) :
    reservedDiags (file.take 128) =
      if file.getD 122 0#8 &&& 0xFC#8 ≠ 0#8 ∨ file.getD 123 0#8 &&& 0xC0#8 ≠ 0#8 then
        [.reservedHeaderBits (file.getD 122 0#8) (file.getD 123 0#8)] else [] := by
  rw [reservedDiags, headerByte_take file (by decide), headerByte_take file (by decide)]
  rfl

/-- Settles O49: the call by `callReadHeader_eq`, the fields by their offsets. -/
theorem readHeaderParsesTheFields : Obligations.ReadHeaderParsesTheFields := by
  refine ⟨fun file io s hidle => ⟨_, (hostCall_readHeader hidle file io).trans ?_, rfl⟩, fun h hlen => ?_⟩
  · rw [callReadHeader_eq, reservedDiags_take]
    rfl
  · have hreserved : (h.drop 124).take 4 = h.drop 124 := List.take_of_length_le (by rw [List.length_drop]; omega)
    exact ⟨rfl, rfl, fun hsong => if_neg hsong, toNat_le16 _ _, toNat_le16 _ _, toNat_le16 _ _,
      rfl, headerText_length (by omega), rfl, headerText_length (by omega), rfl, headerText_length (by omega),
      toNat_le16 _ _, fun k => Vector.getElem_ofFn k.isLt, toNat_le16 _ _, rfl, rfl, hreserved⟩

/-- Settles O50: the three outcomes of `open`. -/
theorem openCreatesTheEngine : Obligations.OpenCreatesTheEngine := by
  refine ⟨fun file io s hidle hactive => ?_, fun file io s kind hidle hstatus hread => ?_,
    fun file io s h diags hidle hstatus hread => ?_⟩
  · rw [hostCall_openFile hidle, callOpen_of_active file io hactive]
    rfl
  · rw [hostCall_openFile hidle, callOpen_of_error hstatus hread]
    rfl
  · refine ⟨_, (hostCall_openFile hidle file io).trans (congrArg _ (callOpen_of_ok hstatus hread)), rfl, rfl, hidle, rfl, rfl,
      ?_, rfl⟩
    by_cases hdetached : s.status = .detached
    · exact (if_pos hdetached).trans (by rw [if_pos hdetached])
    · exact (if_neg hdetached).trans (by rw [if_neg hdetached, List.append_nil])

/-- Settles O51: the outcomes of `playback_init` before its CPU run. -/
theorem playbackInitRunsTheResetSteps : Obligations.PlaybackInitRunsTheResetSteps := by
  refine ⟨fun s k e song region sink r hidle hk hr => ?_, fun s song region sink r hidle hpresent hr => ?_,
    fun s song region sink hidle hpresent hfault hlow => ?_, fun s song region sink r hidle hpresent hfault hr => ?_,
    fun s song region sink hidle hpresent hfault hok => ?_⟩
  · exact (hostCall_playbackInit_failed hidle k song region sink).trans (callOnFailed_of_faulted hk hr)
  · rw [hostCall_playbackInit hidle hpresent, callInit_of_faulted true song region sink hr]
    rfl
  · have hsteps := Engine.initSteps_of_low_load song region sink hlow
    have hraise : (s.eng.initSteps song region sink).fault =
        some ⟨.badLoadAddress, .loadAddress s.eng.header.loadAddress⟩ := by rw [hsteps, Engine.raiseFault_fault]
    rw [hostCall_playbackInit hidle hpresent, callInit_of_raise true hfault hraise, State.failInit_of_idle hidle, hsteps]
    rfl
  · rw [hostCall_playbackInit hidle hpresent, callInit_of_raise true hfault hr, State.failInit_of_idle hidle]
  · rw [hostCall_playbackInit hidle hpresent, callInit_of_unfaulted true hfault hok, if_pos rfl]

/-- Settles O52: the returns of the CPU in the run of `playback_init`; after a failed one the engine is detached, so a new
`open` is not refused. -/
theorem initRunEndsAtTheIdleLoop : Obligations.InitRunEndsAtTheIdleLoop := by
  refine ⟨fun s pc r hrun hr => cpuReturned_initRun_of_faulted pc hrun hr, fun s hrun hfault => ?_,
    fun s pc hrun hfault hpc => ?_, fun s pc r file io hd hrun hr hread => ?_⟩
  · rw [cpuReturned_initRun_of_unfaulted _ hrun hfault, if_pos rfl]
  · rw [cpuReturned_initRun_of_unfaulted _ hrun hfault, if_neg hpc]
  · have hdetached : EngineStatus.detached ≠ .active := EngineStatus.noConfusion
    rw [cpuReturned_initRun_of_faulted pc hrun hr]
    exact ⟨_, (hostCall_openFile rfl file io).trans (congrArg _ (callOpen_of_ok hdetached hread)), rfl, rfl⟩

/-- Settles O56: the checks of `playback_frame` in order, and the returns of the CPU in its run. -/
theorem frameRunsToTheIdleLoop : Obligations.FrameRunsToTheIdleLoop := by
  refine ⟨fun s k e r hidle hk hr => ?_, fun s r hidle hpresent hr => ?_, fun s hidle hpresent hfault h => ?_,
    fun s hidle hpresent hfault hinit hpc => ?_, fun s pc r hrun hr => cpuReturned_frameRun_of_faulted pc hrun hr,
    fun s hrun hfault => ?_, fun s pc hrun hfault hpc => ?_⟩
  · exact (hostCall_playbackFrame_failed hidle k).trans (callOnFailed_of_faulted hk hr)
  · rw [hostCall_playbackFrame hidle hpresent, callFrame_of_faulted hr]
    rfl
  · rw [hostCall_playbackFrame hidle hpresent, callFrame_refused hfault h]
    rfl
  · rw [hostCall_playbackFrame hidle hpresent, callFrame_begins hfault hinit hpc]
  · rw [cpuReturned_frameRun_of_unfaulted _ hrun hfault, if_pos rfl]
  · rw [cpuReturned_frameRun_of_unfaulted _ hrun hfault, if_neg hpc]

/-- Settles O57: the calls that need no sound engine. -/
theorem headerCallsAndCloseAlwaysSucceed : Obligations.HeaderCallsAndCloseAlwaysSucceed := by
  refine ⟨fun s hidle hpresent => ?_, fun s k e hidle hk => ⟨hostCall_getHeader hidle hk, hostCall_logHeader hidle hk⟩,
    fun s hidle hpresent => ?_, fun s k hidle hk => ?_⟩
  · have hcurrent := State.engineAt_current hpresent
    exact ⟨hostCall_getHeader hidle hcurrent, hostCall_logHeader hidle hcurrent⟩
  · exact (hostCall_close hidle .current).trans (if_neg hpresent)
  · exact (hostCall_close hidle (.failed k)).trans (if_pos hk)

/-- Settles O58: the calls of the trace lines, and the word of a `SWITCH` by its region. -/
theorem traceLinesRunTheirOperation : Obligations.TraceLinesRunTheirOperation := by
  refine ⟨fun s r b hidle hpresent hfault hok => ?_, fun s r b f hidle hpresent hfault hf => ?_,
    fun s r b hidle hpresent hfault hr => ?_, fun s song region sink hidle hpresent hfault hok => ?_,
    fun k v => ⟨_, rfl, decode_write_of_region (regionOf_bankreg k) v⟩⟩
  · rw [hostCall_traceLoadBank hidle hpresent, callLoadBank_of_unfaulted hfault hok]
  · rw [hostCall_traceLoadBank hidle hpresent, callLoadBank_of_fault hfault hf]
  · have hbad := s.eng.loadBank_bad (Nat.not_lt.2 hr) b
    have hraise : (s.eng.loadBank r b).fault = some ⟨.invalidArg, .badRegister r⟩ := by rw [hbad, Engine.raiseFault_fault]
    rw [hostCall_traceLoadBank hidle hpresent, callLoadBank_of_fault hfault hraise, hbad]
    rfl
  · rw [hostCall_traceInit hidle hpresent, callInit_of_unfaulted false hfault hok, if_neg Bool.false_ne_true]

end Sys2Proof.Machine
end

section
/-! PROOFS. The rules for the lines of a trace (spec/30_encoding.md R55): the reads of `RD` and `RDW`, and the CPU's steps of
a `FRAME`. -/

namespace Sys2Proof.Machine

/-! ## Reads -/

/-- A ROM read keeps R82: it touches a bank that is listed. -/
theorem Engine.CacheInv.readRom_cacheInv {e : Engine} (h : e.CacheInv) (k : Fin 8) (off : Fin 0x1000) :
    (e.readRom k off).1.CacheInv := by
  cases hw : e.win[k] with
  | unmapped =>
    rw [Engine.readRom_unmapped off hw]
    exact h.congr rfl rfl rfl rfl rfl rfl rfl
  | flat =>
    obtain ⟨m, hm⟩ := Option.isSome_iff_exists.1 (h.flatMode k hw).2
    rw [Engine.readRom_flat off hw hm]
    exact h
  | cache i =>
    obtain ⟨hloaded, -⟩ := h.shown k i hw
    obtain ⟨j, hj⟩ := h.listed i hloaded
    obtain ⟨l, htouch, -, hinv⟩ := h.touch hj
    rw [Engine.readRom_touched off hw hloaded htouch]
    exact hinv

theorem Engine.CacheInv.applyTxn_read_cacheInv {e : Engine} (h : e.CacheInv) (r : Region) :
    (e.applyTxn r.read).1.CacheInv := by
  cases r with
  | rom k off => exact h.readRom_cacheInv k off
  | _ => exact h

/-- A read line's transaction: the byte of the bus, in a state that shows the same bytes. -/
theorem giveInput_rdWord (a : Addr) {s : State} (hactive : s.status = .active) (hinv : s.eng.CacheInv)
    (hfault : s.eng.fault = none) :
    ∃ t : State, giveInput (.bus (rdWord a)) s = .next (.readData (s.eng.busByte a), t) ∧ t.status = .active ∧
      t.eng.fault = none ∧ t.eng.CacheInv ∧ ∀ b : Addr, t.eng.busByte b = s.eng.busByte b := by
  obtain ⟨l, evs, heq⟩ := hinv.applyTxn_read (regionOf a)
  have hkeep := hinv.applyTxn_read_cacheInv (regionOf a)
  rw [heq] at hkeep
  have hexec : exec (decode (rdWord a)) s =
      .next { s with eng := { s.eng with lru := l, events := evs }, out := .readData (s.eng.busByte a) } := by
    rw [rdWord, decode_read_of_region rfl, s.eng.busByte_eq]
    exact exec_read_live (Region.read_isWrite _) hfault heq
  refine ⟨{ s with eng := { s.eng with lru := l, events := evs }, out := .readData (s.eng.busByte a) }, ?_, hactive, hfault,
    hkeep, s.eng.busByte_of_touch l evs⟩
  rw [giveInput_eq, perform, busTransaction, if_pos hactive, hexec]
  rfl

theorem met_rd (a : Addr) (x : Option Byte) (v : Byte) :
    (TraceLine.rd a x).met (.out (.readData v)) = true ↔ ∀ w ∈ x, w = v := by
  cases x with
  | none => exact ⟨fun _ _ hw => (by cases hw), fun _ => rfl⟩
  | some w =>
    refine decide_eq_true_iff.trans ⟨?_, fun h => by rw [h w rfl]⟩
    rintro ⟨⟩ _ ⟨⟩
    rfl

theorem met_rdw (a : Addr) (x : Option Addr) (v : Addr) :
    (TraceLine.rdw a x).met (.word v) = true ↔ ∀ w ∈ x, w = v := by
  cases x with
  | none => exact ⟨fun _ _ hw => (by cases hw), fun _ => rfl⟩
  | some w =>
    refine decide_eq_true_iff.trans ⟨?_, fun h => by rw [h w rfl]⟩
    rintro ⟨⟩ _ ⟨⟩
    rfl

theorem runLine_rd (a : Addr) (x : Option Byte) {s : State} (hactive : s.status = .active) (hinv : s.eng.CacheInv)
    (hfault : s.eng.fault = none) :
    ∃ t : State, runLine (.rd a x) s = .next (.out (.readData (s.eng.busByte a)), t) ∧ t.status = .active ∧
      t.eng.fault = none ∧ ∀ b : Addr, t.eng.busByte b = s.eng.busByte b := by
  obtain ⟨t, hread, hactive', hfault', -, hbus⟩ := giveInput_rdWord a hactive hinv hfault
  refine ⟨t, ?_, hactive', hfault', hbus⟩
  rw [runLine_other (fun _ => TraceLine.noConfusion), TraceLine.inputs, inOrder_cons_next hread]
  rfl

/-- The second read of `RDW` finds the bus as the first one found it. -/
theorem runLine_rdw (a : Addr) (x : Option Addr) {s : State} (hactive : s.status = .active) (hinv : s.eng.CacheInv)
    (hfault : s.eng.fault = none) :
    ∃ t : State, runLine (.rdw a x) s = .next (.word (le16 (s.eng.busByte a) (s.eng.busByte (a + 1))), t) ∧
      t.status = .active ∧ t.eng.fault = none ∧ ∀ b : Addr, t.eng.busByte b = s.eng.busByte b := by
  obtain ⟨t, hlow, hactive', hfault', hinv', hbus⟩ := giveInput_rdWord a hactive hinv hfault
  obtain ⟨u, hhigh, hactive'', hfault'', -, hbus'⟩ := giveInput_rdWord (a + 1) hactive' hinv' hfault'
  refine ⟨u, ?_, hactive'', hfault'', fun b => (hbus' b).trans (hbus b)⟩
  rw [hbus] at hhigh
  rw [runLine_other (fun _ => TraceLine.noConfusion), TraceLine.inputs, inOrder_cons_next hlow, inOrder_cons_next hhigh]
  rfl

/-! ## A frame -/

theorem State.present_of_active {s : State} (h : s.status = .active) : s.status ≠ .absent := by
  rw [h]
  exact EngineStatus.noConfusion

/-- The call of a `FRAME` line. -/
theorem giveInput_playbackFrame {s : State} (hidle : s.run = .idle) (hpresent : s.status ≠ .absent) :
    giveInput (.host (.playbackFrame .current)) s = .next ((callFrame s).out, callFrame s) := by
  rw [giveInput_eq, perform, hostCall_playbackFrame hidle hpresent]
  rfl

/-- A refused call runs none of the CPU's steps. -/
theorem runLine_frame_refused (cpu : List CpuStep) {s : State} {kind : ErrorKind} (hidle : s.run = .idle)
    (hpresent : s.status ≠ .absent) (h : callFrame s = s.returning (.err kind)) :
    runLine (.frame cpu) s = .next (.out (.hostReturn (.err kind)), s.returning (.err kind)) := by
  obtain ⟨os, hsteps⟩ := inOrder_takeCpuStep_idle cpu (s := s.returning (.err kind)) hidle
  rw [runLine_frame cpu (giveInput_playbackFrame hidle hpresent), h, hsteps]
  rfl

/-- State `t` is a frame's end, begun from `s`. -/
structure EndsFrame (s t : State) : Prop where
  run : t.run = .idle
  status : t.status = .active
  inputs : t.inputs = s.inputs
  initialised : t.eng.initialised = s.eng.initialised
  out : t.out = .hostReturn (frameEnd t.eng)
  cpuPc : t.eng.fault = none → t.cpuPc = Config.idlePc

theorem EndsFrame.of_step {s t u : State} (h : EndsFrame t u) (hinputs : t.inputs = s.inputs)
    (hinit : t.eng.initialised = s.eng.initialised) : EndsFrame s u :=
  ⟨h.run, h.status, h.inputs.trans hinputs, h.initialised.trans hinit, h.out, h.cpuPc⟩

/-- The steps of the CPU, the last of which reaches `$1007`, end the frame; where no fault and no earlier `$1007` ended it
before, all of their transactions and returns have run. -/
theorem inOrder_takeCpuStep_ends (pre : List CpuStep) {c : CpuStep} (hc : c.pc = Config.idlePc) {s : State}
    (hactive : s.status = .active) (hrun : s.run = .frameRun) :
    ∃ (os : List Output) (t : State), inOrder takeCpuStep (pre ++ [c]) s = .next (os, t) ∧ EndsFrame s t ∧
      (t.eng.fault = none → (∀ d ∈ pre, d.pc ≠ Config.idlePc) →
        ∃ os' : List Output, inOrder giveInput ((pre ++ [c]).flatMap CpuStep.inputs) s = .next (os', t)) := by
  induction pre generalizing s with
  | nil =>
    obtain ⟨os, t, htake, hgive, hstatus, hinputs, hpc, hinit, ⟨hidle, hout, -⟩ | ⟨-, -, hne⟩⟩ :=
      takeCpuStep_cases c hactive hrun
    · refine ⟨[t.out], t, inOrder_cons_next htake [], ⟨hidle, hstatus, hinputs, hinit, hout, fun _ => hpc.trans hc⟩,
        fun _ _ => ⟨os, ?_⟩⟩
      rw [List.nil_append, List.flatMap_singleton]
      exact hgive
    · exact absurd hc hne
  | cons d pre ih =>
    obtain ⟨os, t, htake, hgive, hstatus, hinputs, hpc, hinit, ⟨hidle, hout, hwhy⟩ | ⟨hrun', -, -⟩⟩ :=
      takeCpuStep_cases d hactive hrun
    · obtain ⟨os', hrest⟩ := inOrder_takeCpuStep_idle (pre ++ [c]) hidle
      refine ⟨t.out :: os', t, ?_, ⟨hidle, hstatus, hinputs, hinit, hout, fun hfault => hpc.trans ?_⟩, fun hfault hpre => ?_⟩
      · rw [List.cons_append, inOrder_cons_next htake, hrest]
        rfl
      · exact hwhy.resolve_left (absurd hfault)
      · exact absurd (hwhy.resolve_left (absurd hfault)) (hpre d List.mem_cons_self)
    · obtain ⟨os', u, hrest, hends, hall⟩ := ih hstatus hrun'
      refine ⟨t.out :: os', u, ?_, hends.of_step hinputs hinit, fun hfault hpre => ?_⟩
      · rw [List.cons_append, inOrder_cons_next htake, hrest]
        rfl
      · obtain ⟨os'', hgiven⟩ := hall hfault fun d' hd' => hpre d' (List.mem_cons_of_mem d hd')
        refine ⟨os ++ os'', ?_⟩
        rw [List.cons_append, List.flatMap_cons]
        exact inOrder_append_next hgive hgiven

/-- A frame that begins, run with such steps. -/
theorem runLine_frame_ends (pre : List CpuStep) {c : CpuStep} (hc : c.pc = Config.idlePc) {s : State} (hidle : s.run = .idle)
    (hactive : s.status = .active) (hfault : s.eng.fault = none) (hinit : s.eng.initialised = true)
    (hpc : s.cpuPc = Config.idlePc) :
    ∃ t : State, runLine (.frame (pre ++ [c])) s = .next (.out (.hostReturn (frameEnd t.eng)), t) ∧ EndsFrame s t ∧
      (t.eng.fault = none → (∀ d ∈ pre, d.pc ≠ Config.idlePc) →
        ∃ os : List Output, inOrder giveInput (TraceLine.frame (pre ++ [c])).inputs s = .next (os, t)) := by
  have hpresent := State.present_of_active hactive
  have hcall := giveInput_playbackFrame hidle hpresent
  rw [callFrame_begins hfault hinit hpc] at hcall
  obtain ⟨os, t, hsteps, hends, hall⟩ :=
    inOrder_takeCpuStep_ends pre hc (s := { s with run := .frameRun, out := .nothing }) hactive rfl
  refine ⟨t, ?_, hends.of_step rfl rfl, fun hfault' hpre => ?_⟩
  · rw [runLine_frame _ hcall, hsteps, ← hends.out]
    rfl
  · obtain ⟨os', hgiven⟩ := hall hfault' hpre
    refine ⟨.nothing :: os', ?_⟩
    rw [TraceLine.inputs, inOrder_cons_next hcall, hgiven]
    rfl

/-- Begun or refused, a `FRAME` line gives a result of `playback_frame` and leaves no operation in progress. -/
theorem runLine_frame_completes {cpu : List CpuStep} {c : CpuStep} (hlast : cpu.getLast? = some c)
    (hc : c.pc = Config.idlePc) {s : State} (hidle : s.run = .idle) (hactive : s.status = .active) :
    ∃ (h : HostResult) (t : State), runLine (.frame cpu) s = .next (.out (.hostReturn h), t) ∧ t.run = .idle ∧
      t.status = .active := by
  have hpresent := State.present_of_active hactive
  rcases callFrame_cases s with ⟨kind, -, hcall⟩ | ⟨-, -, hcall⟩ | ⟨hfault, hinit, hpc, -⟩
  · exact ⟨_, _, runLine_frame_refused cpu hidle hpresent hcall, hidle, hactive⟩
  · exact ⟨_, _, runLine_frame_refused cpu hidle hpresent hcall, hidle, hactive⟩
  · obtain ⟨pre, rfl⟩ := List.getLast?_eq_some_iff.1 hlast
    obtain ⟨t, hline, hends, -⟩ := runLine_frame_ends pre hc hidle hactive hfault hinit hpc
    exact ⟨_, t, hline, hends.run, hends.status⟩

end Sys2Proof.Machine
end

section
/-! PROOFS. The statements on the lines of a trace (O59, O60). -/

namespace Sys2Proof.Machine

/-- Settles O59: each line by its reads (`runLine_rd`, `runLine_rdw`); `$FFFC` is the low byte of the reset vector. -/
theorem traceReadsGiveTheirValue : Obligations.TraceReadsGiveTheirValue := by
  refine ⟨fun s a x hactive hinv hfault => ?_, fun s a x hactive hinv hfault => ?_, fun s x hactive hinv hfault => ?_⟩
  · obtain ⟨t, hline, hactive', hfault', hbus⟩ := runLine_rd a x hactive hinv hfault
    exact ⟨t, hline, hactive', hfault', hbus, met_rd a x _⟩
  · obtain ⟨t, hline, hactive', hfault', hbus⟩ := runLine_rdw a x hactive hinv hfault
    exact ⟨t, _, hline, toNat_le16 _ _, hactive', hfault', hbus, met_rdw a x _⟩
  · obtain ⟨t, hline, -⟩ := runLine_rdw 0xFFFC x hactive hinv.bank hfault
    have hlow : s.eng.busByte 0xFFFC = 0x00#8 := by
      rw [Engine.busByte_eq, show regionOf 0xFFFC = .vec 2 from rfl, Engine.regionByte, hinv.vectors]
      rfl
    have hhigh : s.eng.busByte (0xFFFC + 1) = 0x10#8 := by
      rw [Engine.busByte_eq, show regionOf (0xFFFC + 1) = .vec 3 from rfl, Engine.regionByte, hinv.vectors]
      rfl
    rw [hlow, hhigh] at hline
    exact ⟨t, hline⟩

/-- Frames in sequence: each finds the one before it ended. -/
theorem runTrace_frames (frames : List (List CpuStep)) {s : State} (hidle : s.run = .idle) (hactive : s.status = .active)
    (hlast : ∀ cpu ∈ frames, ∃ c, cpu.getLast? = some c ∧ c.pc = Config.idlePc) :
    ∃ (rs : List LineResult) (t : State), runTrace (frames.map .frame) s = .next (rs, t) ∧ t.run = .idle ∧
      t.status = .active ∧ rs.length = frames.length ∧ ∀ r ∈ rs, ∃ h : HostResult, r = .out (.hostReturn h) := by
  induction frames generalizing s with
  | nil => exact ⟨[], s, rfl, hidle, hactive, rfl, fun _ hr => (by cases hr)⟩
  | cons cpu frames ih =>
    obtain ⟨c, hcpu, hc⟩ := hlast cpu List.mem_cons_self
    obtain ⟨h, t, hline, hidle', hactive'⟩ := runLine_frame_completes hcpu hc hidle hactive
    obtain ⟨rs, u, htrace, hidle'', hactive'', hlen, hresults⟩ :=
      ih hidle' hactive' fun cpu' hcpu' => hlast cpu' (List.mem_cons_of_mem cpu hcpu')
    refine ⟨.out (.hostReturn h) :: rs, u, ?_, hidle'', hactive'', congrArg Nat.succ hlen, fun r hr => ?_⟩
    · rw [runTrace] at htrace ⊢
      rw [List.map_cons, inOrder_cons_next hline, htrace]
      rfl
    · rcases List.mem_cons.1 hr with rfl | hr
      · exact ⟨h, rfl⟩
      · exact hresults r hr

/-- Settles O60: the refused call (`runLine_frame_refused`), the frame that runs (`runLine_frame_ends`), and frames in
sequence (`runTrace_frames`). -/
theorem frameLineRunsOneFrame : Obligations.FrameLineRunsOneFrame := by
  refine ⟨fun s cpu hidle hpresent h => ?_, fun s pre c hidle hactive hfault hinit hpc hc => ?_,
    fun s frames hidle hactive hlast => runTrace_frames frames hidle hactive hlast⟩
  · cases hf : s.eng.fault with
    | some r => exact runLine_frame_refused cpu hidle hpresent (callFrame_of_faulted hf)
    | none => exact runLine_frame_refused cpu hidle hpresent (callFrame_refused hf (h.resolve_left (absurd hf)))
  · obtain ⟨t, hline, hends, hall⟩ := runLine_frame_ends pre hc hidle hactive hfault hinit hpc
    exact ⟨t, hline, hends.run, hends.status, hends.initialised.trans hinit, hends.inputs, hends.cpuPc, hall⟩

end Sys2Proof.Machine
end
